-- ==== Sys2Proof/Word.lean ====
section
/-! DEFINITION. The word types of rule R11 of 00_scope.md: unsigned words as bit vectors.
Signed readings are `BitVec.toInt` of the same bits. -/

namespace Sys2Proof

/-- `u32` of rule R11. -/
abbrev U32 := BitVec 32

/-- `u64` of rule R11; also the width of every host register (R9, `REG_W`). -/
abbrev U64 := BitVec 64

/-- A byte offset into the 4096-byte register window (R9, `ADDR_W` = 12; R60). -/
abbrev Offset := BitVec 12

end Sys2Proof
end

