-- ==== Sys2Proof/Config.lean ====
section
/-! DEFINITION. What is fixed for this hardware (rule R9 of 00_scope.md) and the one free value
the spec leaves open (rule R29 of 10_state.md). The generators' own constants (rules R170, R171,
R200) stand beside the generators, in Machine/Twist.lean and Machine/Additive.lean. -/

namespace Sys2Proof

/-- The four instances (R9 "instance count", R82). -/
inductive Inst where
  | mt32
  | mt64
  | add64
  | ext
deriving DecidableEq, Repr

namespace Config

/-- `KEY_DEPTH`: words in the seed key buffer (R9). -/
abbrev keyDepth : Nat := 624

/-- `EXT_FIFO_DEPTH`: words the EXT FIFO can hold (R9, R32). -/
abbrev extFifoDepth : Nat := 16

/-- `DEFAULT_KEY_MT32` (R9). -/
def defaultKeyMt32 : List U32 := [0x123, 0x234, 0x345, 0x456]

/-- `DEFAULT_KEY_MT64` (R9). -/
def defaultKeyMt64 : List U64 := [0x12345, 0x23456, 0x34567, 0x45678]

/-- `ADD_DEFAULT_STATE` (R9, R205). -/
def addDefaultState : U64 := 0x0123456789ABCDEF

/-- `EXT_NATIVE_MAX_RESET` (R9, R30). -/
def extNativeMaxReset : U64 := 0xFFFFFFFFFFFFFFFF

/-- The hard-wired value of register ID (R23): ASCII "LM_PRG", revision 1. -/
def idValue : U64 := 0x4C4D5F5052470001

/-- FREE VALUE. What the k-th read of RES made while BUSY = 1 returns: "any 64-bit value"
(R29, U4 of 93_implementation_defined.md). It has no body, so nothing can be proved of its values
(notes/assumptions/4.md). -/
opaque freeRes : Nat → U64

end Config

end Sys2Proof
end

