-- ==== Sys2Proof/Syntax.lean ====
section
/-! DEFINITION. The command set, one constructor per row of spec/opcode_table.json (rule R85 of
30_encoding.md). INST is a field of every command, of NOP too, which ignores it (R82); INCL is a
field of the eight ranged-integer commands only (R83), so a term of `Instr` is well-formed by its
type: the checks on raw command fields stand in WellFormed.lean. -/

namespace Sys2Proof

inductive Instr where
  /-- NOP, R150. -/
  | nop (inst : Inst)
  /-- NEXT, R110. -/
  | next (inst : Inst)
  /-- NEXT32, R111. -/
  | next32 (inst : Inst)
  /-- NEXT64, R112. -/
  | next64 (inst : Inst)
  /-- GETU32, R113. -/
  | getu32 (inst : Inst) (incl : Bool)
  /-- GETU32R, R114. -/
  | getu32r (inst : Inst) (incl : Bool)
  /-- GETI32, R115. -/
  | geti32 (inst : Inst) (incl : Bool)
  /-- GETI32R, R116. -/
  | geti32r (inst : Inst) (incl : Bool)
  /-- GETU64, R117. -/
  | getu64 (inst : Inst) (incl : Bool)
  /-- GETU64R, R118. -/
  | getu64r (inst : Inst) (incl : Bool)
  /-- GETI64, R119. -/
  | geti64 (inst : Inst) (incl : Bool)
  /-- GETI64R, R120. -/
  | geti64r (inst : Inst) (incl : Bool)
  /-- SEED_DEFAULT, R152. -/
  | seedDefault (inst : Inst)
  /-- SEED_SCALAR, R153. -/
  | seedScalar (inst : Inst)
  /-- SEED_KEY, R155. -/
  | seedKey (inst : Inst)
  /-- DISCARD, R156. -/
  | discard (inst : Inst)
  /-- TEMPER, R190. -/
  | temper (inst : Inst)
  /-- WHITEN, R206. -/
  | whiten (inst : Inst)
deriving DecidableEq, Repr

/-- The instance a command names (R82). -/
def Instr.inst : Instr → Inst
  | .nop i => i
  | .next i => i
  | .next32 i => i
  | .next64 i => i
  | .getu32 i _ => i
  | .getu32r i _ => i
  | .geti32 i _ => i
  | .geti32r i _ => i
  | .getu64 i _ => i
  | .getu64r i _ => i
  | .geti64 i _ => i
  | .geti64r i _ => i
  | .seedDefault i => i
  | .seedScalar i => i
  | .seedKey i => i
  | .discard i => i
  | .temper i => i
  | .whiten i => i

/-- The INCL bit of a command; 0 where R83 gives the command no such field. -/
def Instr.incl : Instr → Bool
  | .nop _ => false
  | .next _ => false
  | .next32 _ => false
  | .next64 _ => false
  | .getu32 _ b => b
  | .getu32r _ b => b
  | .geti32 _ b => b
  | .geti32r _ b => b
  | .getu64 _ b => b
  | .getu64r _ b => b
  | .geti64 _ b => b
  | .geti64r _ b => b
  | .seedDefault _ => false
  | .seedScalar _ => false
  | .seedKey _ => false
  | .discard _ => false
  | .temper _ => false
  | .whiten _ => false

/-- The eight ranged-integer commands, which alone have INCL (R83). -/
def Instr.ranged : Instr → Bool
  | .nop _ => false
  | .next _ => false
  | .next32 _ => false
  | .next64 _ => false
  | .getu32 _ _ => true
  | .getu32r _ _ => true
  | .geti32 _ _ => true
  | .geti32r _ _ => true
  | .getu64 _ _ => true
  | .getu64r _ _ => true
  | .geti64 _ _ => true
  | .geti64r _ _ => true
  | .seedDefault _ => false
  | .seedScalar _ => false
  | .seedKey _ => false
  | .discard _ => false
  | .temper _ => false
  | .whiten _ => false

end Sys2Proof
end

