-- ==== Sys2Proof/WellFormed.lean ====
section
/-! DEFINITION. When the raw fields of a command word are well-formed: the decode checks (1) to (3)
of rule R221 of 60_exceptions.md, from rules R81, R86, R87 and R88 of 30_encoding.md. Written from
the list of RESERVED opcodes (R86), not from the opcode map (R85) that Decode.lean uses, so that
the two can be held against each other. -/

namespace Sys2Proof

/-- The fields of a command word (R81). -/
structure CommandFields where
  op   : BitVec 8
  inst : BitVec 2
  incl : Bool
  rsv  : BitVec 53
deriving DecidableEq, Repr

/-- R87: bits 63:11 must be 0. -/
def CommandFields.rsvClear (f : CommandFields) : Bool := f.rsv == 0

/-- R86: OP is none of 0x0C to 0x0F, 0x13 to 0x17, 0x19 to 0x1F, 0x22 to 0xFF. -/
def CommandFields.opListed (f : CommandFields) : Bool :=
  let op := f.op.toNat
  !((0x0C ≤ op && op ≤ 0x0F) || (0x13 ≤ op && op ≤ 0x17) || (0x19 ≤ op && op ≤ 0x1F) || 0x22 ≤ op)

/-- R88: INCL = 1 only where OP is one of GETU32 (0x04) to GETI64R (0x0B). -/
def CommandFields.inclAllowed (f : CommandFields) : Bool :=
  !f.incl || (0x04 ≤ f.op.toNat && f.op.toNat ≤ 0x0B)

/-- The fields of a command that decodes. -/
def CommandFields.wellFormed (f : CommandFields) : Bool :=
  f.rsvClear && f.opListed && f.inclAllowed

end Sys2Proof
end

