-- ==== Sys2Proof/Decode.lean ====
section
/-! DEFINITION. The decoder and the encoder of the 64-bit command word (rules R80 to R89 of
30_encoding.md). Decoding is total: a word is an instruction or is rejected by the name of the
first check it fails, in the order of rule R221. -/

namespace Sys2Proof

/-- Why a command word is no command. Each is IllegalCommand at execution (R220, R221). -/
inductive DecodeReject where
  /-- A RSV bit (63:11) is set (R87). -/
  | reservedBits
  /-- OP is not in the opcode map (R86). -/
  | reservedOpcode
  /-- INCL = 1 on a command that is not ranged (R88). -/
  | inclNotRanged
deriving DecidableEq, Repr

/-- The INST numbers of R82. -/
def instOfBits (b : BitVec 2) : Inst :=
  match b.toNat with
  | 0 => .mt32
  | 1 => .mt64
  | 2 => .add64
  | _ => .ext

/-- The INST numbers of R82, the other way. -/
def instBits : Inst → BitVec 2
  | .mt32 => 0
  | .mt64 => 1
  | .add64 => 2
  | .ext => 3

/-- The fields of a command word (R81): OP 7:0, INST 9:8, INCL 10, RSV 63:11. -/
def commandFields (c : U64) : CommandFields :=
  { op := c.extractLsb' 0 8
    inst := c.extractLsb' 8 2
    incl := c.getLsbD 10
    rsv := c.extractLsb' 11 53 }

/-- The word with the given OP, INST and INCL: `OP | INST << 8 | INCL << 10` (R90), RSV = 0. -/
def assemble (op : BitVec 8) (inst : BitVec 2) (incl : Bool) : U64 :=
  op.setWidth 64 ||| (inst.setWidth 64 <<< 8) ||| ((BitVec.ofBool incl).setWidth 64 <<< 10)

/-- A command without an INCL field: bit 10 must be 0 (R88). -/
def withoutIncl (i : Instr) (incl : Bool) : Except DecodeReject Instr :=
  if incl then .error .inclNotRanged else .ok i

/-- The opcode map of R85; every other OP is reserved (R86). -/
def decodeOp (op : Nat) (inst : Inst) (incl : Bool) : Except DecodeReject Instr :=
  match op with
  | 0x00 => withoutIncl (.nop inst) incl
  | 0x01 => withoutIncl (.next inst) incl
  | 0x02 => withoutIncl (.next32 inst) incl
  | 0x03 => withoutIncl (.next64 inst) incl
  | 0x04 => .ok (.getu32 inst incl)
  | 0x05 => .ok (.getu32r inst incl)
  | 0x06 => .ok (.geti32 inst incl)
  | 0x07 => .ok (.geti32r inst incl)
  | 0x08 => .ok (.getu64 inst incl)
  | 0x09 => .ok (.getu64r inst incl)
  | 0x0A => .ok (.geti64 inst incl)
  | 0x0B => .ok (.geti64r inst incl)
  | 0x10 => withoutIncl (.seedDefault inst) incl
  | 0x11 => withoutIncl (.seedScalar inst) incl
  | 0x12 => withoutIncl (.seedKey inst) incl
  | 0x18 => withoutIncl (.discard inst) incl
  | 0x20 => withoutIncl (.temper inst) incl
  | 0x21 => withoutIncl (.whiten inst) incl
  | _ => .error .reservedOpcode

/-- The instruction a command word stands for (R89), or the first check it fails (R221). -/
def decode (c : U64) : Except DecodeReject Instr :=
  let f := commandFields c
  if f.rsvClear then decodeOp f.op.toNat (instOfBits f.inst) f.incl else .error .reservedBits

/-- OP of each command (R85). -/
def opcode : Instr → BitVec 8
  | .nop _ => 0x00
  | .next _ => 0x01
  | .next32 _ => 0x02
  | .next64 _ => 0x03
  | .getu32 _ _ => 0x04
  | .getu32r _ _ => 0x05
  | .geti32 _ _ => 0x06
  | .geti32r _ _ => 0x07
  | .getu64 _ _ => 0x08
  | .getu64r _ _ => 0x09
  | .geti64 _ _ => 0x0A
  | .geti64r _ _ => 0x0B
  | .seedDefault _ => 0x10
  | .seedScalar _ => 0x11
  | .seedKey _ => 0x12
  | .discard _ => 0x18
  | .temper _ => 0x20
  | .whiten _ => 0x21

/-- The command word of an instruction (R90). -/
def encode (i : Instr) : U64 := assemble (opcode i) (instBits i.inst) i.incl

/-- `mask_r` of an instruction's row (R89). -/
def rowMask (i : Instr) : U64 :=
  if i.ranged then 0xFFFFFFFFFFFFF8FF else 0xFFFFFFFFFFFFFCFF

/-- `match_r` of an instruction's row: its OP (R89). -/
def rowMatch (i : Instr) : U64 := (opcode i).setWidth 64

/-- The command word whose low `nbits` bits are those of `w` and whose other bits are 0. A command
is always 64 bits (R80), and the block has no byte order (R64): a word of the opcode table IS the
value written to CMD (notes/assumptions/11.md). -/
def tableWord (nbits w : Nat) : U64 := BitVec.ofNat 64 (w % 2 ^ nbits)

/-- The host's question to the decoder: what the instruction with bits `w` is. -/
def decodeTableWord (nbits w : Nat) : Option Instr :=
  match decode (tableWord nbits w) with
  | .ok i => some i
  | .error _ => none

end Sys2Proof
end

