-- ==== Sys2Proof/Machine/Additive.lean ====
section
/-! DEFINITION. The scrambled additive generator ADD64 (rules R200 to R204 of
43_additive_whitening.md): the state advance, the output whitening, the draw and the closed-form
discard. There is no rotation (C1 of 90_conflicts.md). -/

namespace Sys2Proof.Machine

/-- G, the increment (R200). -/
def addIncrement : U64 := 0x9E3779B97F4A7C15

/-- C1, the first whitening multiplier (R200). -/
def whitenMul1 : U64 := 0xBF58476D1CE4E5B9

/-- C2, the second whitening multiplier (R200). -/
def whitenMul2 : U64 := 0x94D049BB133111EB

/-- AddAdvance (R201): s + G modulo 2^64. The constant is written first because Lean's kernel
unfolds a sum at its second argument, step by step where that is a literal. -/
def addAdvance (s : U64) : U64 := addIncrement + s

/-- Whiten (R202). -/
def whiten (z : U64) : U64 :=
  let z := (z ^^^ (z >>> 30)) * whitenMul1
  let z := (z ^^^ (z >>> 27)) * whitenMul2
  z ^^^ (z >>> 31)

/-- AddDraw (R203): the whitened new state, and the new state. -/
def addDraw (s : U64) : U64 × U64 := (whiten (addAdvance s), addAdvance s)

/-- AddDiscard (R204): closed form, modulo 2^64. -/
def addDiscard (n s : U64) : U64 := s + n * addIncrement

end Sys2Proof.Machine
end

