-- ==== Sys2Proof/Machine/Twist.lean ====
section
/-! DEFINITION. The twisted-feedback-shift generator and its tempering (rules R170 to R188 of
42_lfsr_tempering.md), written once for both variants MT32 and MT64.

The reload and the seedings are written as single passes over the array, so that Lean's kernel can
run them. Machine/TwistInPlace.lean holds the rules' own in-place pseudocode; that the two agree
for both variants is a statement of its own (notes/assumptions/10.md). The constants are the spec's
general knowledge (notes/assumptions/9.md). -/

namespace Sys2Proof.Machine

/-- The parameters of a variant (R170, R171). The array size N is the type's `n`. -/
structure MtParams (w : Nat) where
  /-- M: the offset of the word "ahead". -/
  offset : Nat
  /-- A: the matrix constant. -/
  matrix : BitVec w
  /-- UM: the upper mask. -/
  upper : BitVec w
  /-- LM: the lower mask. -/
  lower : BitVec w
  /-- u, d: first tempering shift and mask. -/
  u : Nat
  d : BitVec w
  /-- s, b: second tempering shift and mask. -/
  s : Nat
  b : BitVec w
  /-- t, c: third tempering shift and mask. -/
  t : Nat
  c : BitVec w
  /-- l: last tempering shift. -/
  l : Nat
  /-- F: the scalar-seed multiplier. -/
  mul : BitVec w
  /-- S: the scalar-seed shift. -/
  shift : Nat
  /-- The pass-one multiplier of key seeding. -/
  mix1 : BitVec w
  /-- The pass-two multiplier of key seeding. -/
  mix2 : BitVec w
deriving DecidableEq, Repr

/-- AlgorithmState of a variant (R41): `n` words of width `w`, and the read index in 0..n
(notes/assumptions/12.md). -/
structure Mt (w n : Nat) where
  words : Vector (BitVec w) n
  idx : Nat
deriving DecidableEq, Repr

/-- R170. -/
def mt32Params : MtParams 32 :=
  { offset := 397, matrix := 0x9908B0DF, upper := 0x80000000, lower := 0x7FFFFFFF
    u := 11, d := 0xFFFFFFFF, s := 7, b := 0x9D2C5680, t := 15, c := 0xEFC60000, l := 18
    mul := 1812433253, shift := 30, mix1 := 1664525, mix2 := 1566083941 }

/-- R171. -/
def mt64Params : MtParams 64 :=
  { offset := 156, matrix := 0xB5026F5AA96619E9
    upper := 0xFFFFFFFF80000000, lower := 0x000000007FFFFFFF
    u := 29, d := 0x5555555555555555, s := 17, b := 0x71D67FFFEDA60000
    t := 37, c := 0xFFF7EEE000000000, l := 43
    mul := 6364136223846793005, shift := 62
    mix1 := 3935559000370003845, mix2 := 2862933555777941757 }

/-- The base seed of key seeding (R170, R171, R184). -/
def keyBaseSeed : Nat := 19650218

variable {w n : Nat}

/-- Word k of the array; 0 past its end. -/
def Mt.word (g : Mt w n) (k : Nat) : BitVec w :=
  if h : k < n then g.words[k] else 0

/-- An array from a list of the right length. -/
def wordsOf (l : List (BitVec w)) (h : l.length = n) : Vector (BitVec w) n :=
  ⟨l.toArray, by simpa using h⟩

/-- Temper32 and Temper64 (R176, R177): four xor steps with the variant's shifts and masks. -/
def temper (p : MtParams w) (y : BitVec w) : BitVec w :=
  let y := y ^^^ ((y >>> p.u) &&& p.d)
  let y := y ^^^ ((y <<< p.s) &&& p.b)
  let y := y ^^^ ((y <<< p.t) &&& p.c)
  y ^^^ (y >>> p.l)

/-- The new word of one reload position (R173) from the current word, the next word and the word
M positions ahead. The condition is bit 0 of the combined word before the shift (C4). -/
def twist (p : MtParams w) (current next ahead : BitVec w) : BitVec w :=
  let y := (current &&& p.upper) ||| (next &&& p.lower)
  let v := ahead ^^^ (y >>> 1)
  if y.getLsbD 0 then v ^^^ p.matrix else v

/-- One ascending pass over the array (R173). `first` is the new word 0, which is the last
position's "next word" (R174). The words M positions ahead come from a queue whose front is
`ahead` and whose back, newest first, is `made`: at first the old words from position M on, then
the new words in the order they were made (R174). -/
def reloadFrom (p : MtParams w) (first : BitVec w) :
    List (BitVec w) → List (BitVec w) → List (BitVec w) → List (BitVec w)
  | [], _, _ => []
  | x :: rest, a :: ahead, made =>
    let v := twist p x (rest.headD first) a
    v :: reloadFrom p first rest ahead (v :: made)
  | x :: rest, [], made =>
    let queue := made.reverse
    let v := twist p x (rest.headD first) (queue.headD 0)
    v :: reloadFrom p first rest queue.tail [v]

/-- The array after a reload, as a list (R173). -/
def reloadList (p : MtParams w) (old : List (BitVec w)) : List (BitVec w) :=
  let first := twist p (old.getD 0 0) (old.getD 1 0) (old.getD p.offset 0)
  reloadFrom p first old (old.drop p.offset) []

theorem reloadFrom_length (p : MtParams w) (first : BitVec w) (l a m : List (BitVec w)) :
    (reloadFrom p first l a m).length = l.length := by
  induction l generalizing a m with
  | nil => rfl
  | cons x rest ih => cases a <;> simp [reloadFrom, ih]

theorem reloadList_length (p : MtParams w) (old : List (BitVec w)) :
    (reloadList p old).length = old.length := reloadFrom_length ..

/-- Reload (R173): every word recomputed, the read index 0. -/
def Mt.reload (p : MtParams w) (g : Mt w n) : Mt w n :=
  { words := wordsOf (reloadList p g.words.toList) (by simp [reloadList_length])
    idx := 0 }

/-- The lazy trigger (R175): a draw or a discard step that finds idx = N reloads first. -/
def Mt.ready (p : MtParams w) (g : Mt w n) : Mt w n :=
  if n ≤ g.idx then g.reload p else g

/-- MTDraw (R180): the tempered word at the read index, and the generator after it. -/
def Mt.draw (p : MtParams w) (g : Mt w n) : BitVec w × Mt w n :=
  let g := g.ready p
  (temper p (g.word g.idx), { g with idx := g.idx + 1 })

/-- One step of MTDiscard (R188). -/
def Mt.skip (p : MtParams w) (g : Mt w n) : Mt w n :=
  let g := g.ready p
  { g with idx := g.idx + 1 }

/-- MTDiscard (R188): `count` steps. -/
def Mt.discard (p : MtParams w) : Nat → Mt w n → Mt w n
  | 0, g => g
  | count + 1, g => Mt.discard p count (g.skip p)

/-- The scalar recurrence (R182, R183): `count` words from word k, whose value is x. -/
def seedWords (p : MtParams w) : Nat → Nat → BitVec w → List (BitVec w)
  | 0, _, _ => []
  | count + 1, k, x =>
    x :: seedWords p count (k + 1) (p.mul * (x ^^^ (x >>> p.shift)) + BitVec.ofNat w (k + 1))

theorem seedWords_length (p : MtParams w) (count k : Nat) (x : BitVec w) :
    (seedWords p count k x).length = count := by
  induction count generalizing k x with
  | zero => rfl
  | succ c ih => simp [seedWords, ih]

/-- MTSeedScalar (R182, R183): word 0 is x, and the read index is N. -/
def mtSeedScalar (p : MtParams w) (x : BitVec w) : Mt w n :=
  { words := wordsOf (seedWords p n 0 x) (seedWords_length ..)
    idx := n }

/-- The array in the middle of key seeding (R184), cut at index i: `before` is mt[i-1], …, mt[0]
and `after` is mt[i], …, mt[N-1]. -/
structure Cursor (w : Nat) where
  i : Nat
  before : List (BitVec w)
  after : List (BitVec w)
deriving DecidableEq, Repr

/-- The array of a cursor. -/
def Cursor.words (c : Cursor w) : List (BitVec w) := c.before.reverse ++ c.after

/-- "if i >= N: mt[0] <- mt[N-1]; i <- 1" (R184): past the end the array is cut after word 0 again,
with word 0 taken from the last word. -/
def Cursor.wrap (c : Cursor w) : Cursor w :=
  match c.before, c.after with
  | last :: _, [] => { i := 1, before := [last], after := c.before.reverse.tail }
  | _, _ => c

/-- The body both passes share (R184): mt[i] <- (mt[i] ^ ((p ^ (p >> S)) * mult)) + addend with
p = mt[i-1], then i + 1 and the wrap. -/
def Cursor.mix (p : MtParams w) (mult addend : BitVec w) (c : Cursor w) : Cursor w :=
  match c.before, c.after with
  | q :: _, x :: after =>
    let v := (x ^^^ ((q ^^^ (q >>> p.shift)) * mult)) + addend
    Cursor.wrap { i := c.i + 1, before := v :: c.before, after := after }
  | _, _ => c

/-- Pass one (R184): `count` steps adding key[j] + j. `rest` is the key from index j on; at its end
j starts again at 0. -/
def passOne (p : MtParams w) (key : List (BitVec w)) :
    Nat → Nat → List (BitVec w) → Cursor w → Cursor w
  | 0, _, _, c => c
  | count + 1, j, k :: rest, c =>
    passOne p key count (j + 1) rest (c.mix p p.mix1 (k + BitVec.ofNat w j))
  | count + 1, _, [], c =>
    passOne p key count 1 key.tail (c.mix p p.mix1 (key.headD 0 + BitVec.ofNat w 0))

/-- Pass two (R184): `count` steps subtracting i. -/
def passTwo (p : MtParams w) : Nat → Cursor w → Cursor w
  | 0, c => c
  | count + 1, c => passTwo p count (c.mix p p.mix2 (-BitVec.ofNat w c.i))

theorem Cursor.wrap_words_length (c : Cursor w) : c.wrap.words.length = c.words.length := by
  obtain ⟨i, before, after⟩ := c
  cases before <;> cases after <;> simp [Cursor.wrap, Cursor.words]

theorem Cursor.mix_words_length (p : MtParams w) (mult addend : BitVec w) (c : Cursor w) :
    (c.mix p mult addend).words.length = c.words.length := by
  obtain ⟨i, before, after⟩ := c
  cases before <;> cases after <;> simp [Cursor.mix, Cursor.wrap_words_length]
  simp [Cursor.words]

theorem passOne_words_length (p : MtParams w) (key : List (BitVec w)) (count j : Nat)
    (rest : List (BitVec w)) (c : Cursor w) :
    (passOne p key count j rest c).words.length = c.words.length := by
  induction count generalizing j rest c with
  | zero => rfl
  | succ m ih => cases rest <;> simp [passOne, ih, Cursor.mix_words_length]

theorem passTwo_words_length (p : MtParams w) (count : Nat) (c : Cursor w) :
    (passTwo p count c).words.length = c.words.length := by
  induction count generalizing c with
  | zero => rfl
  | succ m ih => simp [passTwo, ih, Cursor.mix_words_length]

/-- The seeded array before its first word is forced (R184): the scalar array of the base seed,
cut at index 1, through both passes. -/
def keyMixed (p : MtParams w) (n : Nat) (key : List (BitVec w)) : Cursor w :=
  let base := seedWords p n 0 (BitVec.ofNat w keyBaseSeed)
  let start : Cursor w := { i := 1, before := base.take 1, after := base.drop 1 }
  passTwo p (n - 1) (passOne p key (max n key.length) 0 key start)

theorem keyMixed_words_length (p : MtParams w) (n : Nat) (key : List (BitVec w)) :
    (keyMixed p n key).words.length = n := by
  simp only [keyMixed, passTwo_words_length, passOne_words_length]
  have h := seedWords_length p n 0 (BitVec.ofNat w keyBaseSeed)
  simp only [Cursor.words, List.length_append, List.length_reverse, List.length_take,
    List.length_drop]
  omega

/-- "mt[0] <- 2^(W-1)" (R185): the first word is assigned, not or-ed. -/
def forceTopBit : List (BitVec w) → List (BitVec w)
  | [] => []
  | _ :: rest => BitVec.twoPow w (w - 1) :: rest

theorem forceTopBit_length (l : List (BitVec w)) : (forceTopBit l).length = l.length := by
  cases l <;> rfl

/-- MTSeedKey (R184, R186, R187) for a key of at least one word. -/
def mtSeedKey (p : MtParams w) (key : List (BitVec w)) : Mt w n :=
  { words := wordsOf (forceTopBit (keyMixed p n key).words)
      (by rw [forceTopBit_length, keyMixed_words_length])
    idx := n }

end Sys2Proof.Machine
end

