-- ==== Sys2Proof/Machine/State.lean ====
section
/-! DEFINITION. The machine's state (rules R20 to R49 of 10_state.md), its reset (R48, R250), and
the reasons a step can stop.

The block's own state comes first. The last three fields are the MODEL's, not the spec's: the
accesses the host has still to make and where the engine's steps fall among them (R20 calls these
inputs of the step relation), the values the host's reads have returned, and the number of free
values taken so far. -/

namespace Sys2Proof.Machine

/-- CacheState of an instance (R43). -/
structure Cache where
  half : U32
  toggle : Bool
deriving DecidableEq, Repr

/-- The zero form of CacheState (R43, R48). -/
def Cache.zero : Cache := { half := 0, toggle := false }

/-- AlgorithmState, CacheState and, for EXT, the settable maximum from which RangeContext is
derived (R41, R42, R43). RangeContext itself is a view: see `rangeContext` in Ops.lean. -/
structure Generators where
  /-- mt32[0..623], idx32 (R41). -/
  mt32 : Mt 32 624
  /-- mt64[0..311], idx64 (R41). -/
  mt64 : Mt 64 312
  /-- s of ADD64 (R41), register ADD_STATE (R39). -/
  addState : U64
  /-- Register EXT_NATIVE_MAX (R30). -/
  extNativeMax : U64
  /-- Register CACHE_MT32 (R40). -/
  cacheMt32 : Cache
  /-- Register CACHE_MT64 (R40). -/
  cacheMt64 : Cache
  /-- Register CACHE_ADD64 (R40). -/
  cacheAdd64 : Cache
  /-- Register CACHE_EXT (R40). -/
  cacheExt : Cache
deriving DecidableEq, Repr

/-- The completion codes of R220, held in STATUS.ERR (R25). -/
inductive Completion where
  | ok
  | invalidRange
  | bufferBounds
  | unsupportedOperation
  | illegalCommand
deriving DecidableEq, Repr

/-- The latched command word and operands of a busy engine (R44): CMDL, OPAL, OPBL. `drawn` is how
far the engine has come: the EXT words the command has popped, oldest first. On any other
instance a command is one step (R100), so `drawn` stays empty. -/
structure Latched where
  cmd : U64
  opa : U64
  opb : U64
  drawn : List U64
deriving DecidableEq, Repr

/-- The engine (R44). STATUS.BUSY is 1 exactly in `busy` (R25). -/
inductive Engine where
  | idle
  | busy (latched : Latched)
deriving DecidableEq, Repr

/-- One move of the environment (R16, R62). `bits` is an access's width. -/
inductive Event where
  /-- The engine takes a step. -/
  | engine
  /-- The host reads the window at an offset. -/
  | read (bits : Nat) (offset : Offset)
  /-- The host writes the window at an offset. -/
  | write (bits : Nat) (offset : Offset) (value : U64)
  /-- Power-on reset (R250). -/
  | powerOn
deriving DecidableEq, Repr

structure State where
  /-- The four instances (R20b). -/
  gen : Generators
  /-- The EXT FIFO, head first (R32). -/
  extFifo : List U64
  /-- KEY[0..623] (R34). -/
  key : Vector U64 624
  /-- KEY_ADDR[9:0] (R34). -/
  keyAddr : BitVec 10
  /-- MT32_ADDR[9:0] (R35). -/
  mt32Addr : BitVec 10
  /-- MT64_ADDR[8:0] (R37). -/
  mt64Addr : BitVec 9
  /-- OPA (R28). -/
  opa : U64
  /-- OPB (R28). -/
  opb : U64
  /-- RES (R29). -/
  res : U64
  /-- STATUS.ERR (R25). -/
  err : Completion
  /-- STATUS.WAIT_EXT (R25). -/
  waitExt : Bool
  /-- STATUS.CMD_DROPPED (R25). -/
  cmdDropped : Bool
  /-- STATUS.PUSH_DROPPED (R25). -/
  pushDropped : Bool
  /-- Idle, or the latched command (R20e, R44); also STATUS.BUSY. -/
  engine : Engine
  /-- MODEL. The environment's next moves, first one first (notes/assumptions/1.md). -/
  schedule : List Event
  /-- MODEL. What the host's reads have returned, newest first (notes/assumptions/2.md). -/
  readLog : List U64
  /-- MODEL. How many free values have been taken (notes/assumptions/4.md). -/
  freeCount : Nat
deriving DecidableEq, Repr

/-- Why a step stops with a fault: never. The block has no trap (R225) and a hang is no fault
(R235), so the type is empty. -/
inductive Fault where
deriving DecidableEq, Repr

/-- Why a step has no meaning. -/
inductive Refusal where
  /-- Raised by exec's arm of a command without a meaning. There is none left. Safe. -/
  | notModelled (mnemonic : String)
  /-- Raised by a host access that is not 64 bits wide or not at a multiple of 8: "A model refuses
  any other access" (R61, U6). Safe. -/
  | unsupportedAccess (bits : Nat) (offset : Offset)
deriving DecidableEq, Repr

/-- The instances after reset (R48, R251). -/
def Generators.reset : Generators :=
  { mt32 := mtSeedKey mt32Params Config.defaultKeyMt32
    mt64 := mtSeedKey mt64Params Config.defaultKeyMt64
    addState := Config.addDefaultState
    extNativeMax := Config.extNativeMaxReset
    cacheMt32 := Cache.zero
    cacheMt64 := Cache.zero
    cacheAdd64 := Cache.zero
    cacheExt := Cache.zero }

/-- The machine right after reset (R48). The model's own three fields are empty and 0
(notes/assumptions/1.md, 2.md, 4.md). -/
def State.reset : State :=
  { gen := Generators.reset
    extFifo := []
    key := Vector.replicate 624 0
    keyAddr := 0
    mt32Addr := 0
    mt64Addr := 0
    opa := 0
    opb := 0
    res := 0
    err := .ok
    waitExt := false
    cmdDropped := false
    pushDropped := false
    engine := .idle
    schedule := []
    readLog := []
    freeCount := 0 }

end Sys2Proof.Machine
end

