-- ==== Sys2Proof/Machine/Operands.lean ====
section
/-! DEFINITION. Operand assembly and result widening (rule R84 of 30_encoding.md), and the
bit-field helpers of rule R11 of 00_scope.md. -/

namespace Sys2Proof.Machine

/-- v[63:32]. -/
def hi32 (v : U64) : U32 := v.extractLsb' 32 32

/-- v[31:0]. -/
def lo32 (v : U64) : U32 := v.extractLsb' 0 32

/-- {hi, lo} (R11). -/
def pair (hi lo : U32) : U64 := hi ++ lo

/-- zext_64 of a 32-bit value (R11). -/
def zext64 (v : U32) : U64 := v.setWidth 64

/-- sext_64 of a 32-bit value (R11). -/
def sext64 (v : U32) : U64 := v.signExtend 64

/-- OPAL[31:0]: bits 63:32 are ignored (R84). -/
def Latched.a32 (l : Latched) : U32 := lo32 l.opa

/-- OPBL[31:0]: bits 63:32 are ignored (R84). -/
def Latched.b32 (l : Latched) : U32 := lo32 l.opb

/-- The InvalidRange condition of the ranged commands (R113 to R120): the maximum is below the
minimum, or the width is zero and the bound is exclusive. -/
def badRange (maxBelowMin widthZero incl : Bool) : Bool :=
  maxBelowMin || (!incl && widthZero)

end Sys2Proof.Machine
end

