-- ==== Sys2Proof/Machine/Flags.lean ====
section
/-! DEFINITION. The STATUS fields and the other composed register words (rules R25, R26, R31, R33,
R40, R47 of 10_state.md; R220 of 60_exceptions.md). The block has no condition codes (R47). -/

namespace Sys2Proof.Machine

/-- STATUS.BUSY (R25): 1 from acceptance to completion. -/
def State.busy (s : State) : Bool :=
  match s.engine with
  | .idle => false
  | .busy _ => true

/-- The numbers of the completion codes (R220). -/
def Completion.code : Completion → BitVec 3
  | .ok => 0
  | .invalidRange => 1
  | .bufferBounds => 2
  | .unsupportedOperation => 3
  | .illegalCommand => 4

/-- The bit b at position k of a register word. -/
def bitAt (b : Bool) (k : Nat) : U64 := (BitVec.ofBool b).setWidth 64 <<< k

/-- STATUS as the host reads it (R25): BUSY 0, WAIT_EXT 1, ERR 6:4, CMD_DROPPED 8,
PUSH_DROPPED 9, every other bit 0. -/
def State.statusWord (s : State) : U64 :=
  bitAt s.busy 0 ||| bitAt s.waitExt 1 ||| (s.err.code.setWidth 64 <<< 4)
    ||| bitAt s.cmdDropped 8 ||| bitAt s.pushDropped 9

/-- A write to STATUS (R26): a 1 in bit 8 or 9 clears that sticky bit; nothing else changes. -/
def State.writeStatus (s : State) (v : U64) : State :=
  { s with
    cmdDropped := s.cmdDropped && !v.getLsbD 8
    pushDropped := s.pushDropped && !v.getLsbD 9 }

/-- A CACHE_* register (R40): HALF in 31:0, TOGGLE in 32. -/
def Cache.word (c : Cache) : U64 := zext64 c.half ||| bitAt c.toggle 32

/-- The CacheState a write of v to a CACHE_* register leaves (R40). -/
def Cache.ofWord (v : U64) : Cache := { half := lo32 v, toggle := v.getLsbD 32 }

end Sys2Proof.Machine
end

