-- ==== Sys2Proof/Machine/Ops.lean ====
section
/-! DEFINITION. The operations every command shares: the instances' accessors, RangeContext (R42),
the native draw (R101, R102), and how a command's step ends: completion (R223), error (R220,
R223), or one more EXT draw, which may hold (R102).

An error is the block's only exception, and it is no trap (R225): `State.raise` is its one entry.
There is no return from it (R226). -/

namespace Sys2Proof.Machine

/-- CacheState of an instance (R43). -/
def Generators.cache (g : Generators) : Inst → Cache
  | .mt32 => g.cacheMt32
  | .mt64 => g.cacheMt64
  | .add64 => g.cacheAdd64
  | .ext => g.cacheExt

/-- Sets CacheState of an instance (R43). -/
def Generators.setCache (g : Generators) (i : Inst) (c : Cache) : Generators :=
  match i with
  | .mt32 => { g with cacheMt32 := c }
  | .mt64 => { g with cacheMt64 := c }
  | .add64 => { g with cacheAdd64 := c }
  | .ext => { g with cacheExt := c }

/-- nativeMax of an instance (R10, R42). -/
def Generators.nativeMax (g : Generators) : Inst → U64
  | .mt32 => 0xFFFFFFFF
  | .mt64 => 0xFFFFFFFFFFFFFFFF
  | .add64 => 0xFFFFFFFFFFFFFFFF
  | .ext => g.extNativeMax

/-- RangeContext (R42). -/
structure RangeContext where
  nativeMax : U64
  isNative32 : Bool
  isNative64 : Bool
  shiftBits : Nat
  shiftMax : U64
deriving DecidableEq, Repr

/-- The largest k in 1..limit with 2^k - 1 <= m, or 0 if there is none (R42). -/
def largestShift (m : Nat) : Nat → Nat
  | 0 => 0
  | k + 1 => if 2 ^ (k + 1) - 1 ≤ m then k + 1 else largestShift m k

/-- RangeContext of a native maximum (R42). -/
def rangeContext (nativeMax : U64) : RangeContext :=
  let k := largestShift nativeMax.toNat 64
  { nativeMax := nativeMax
    isNative32 := nativeMax == 0xFFFFFFFF
    isNative64 := nativeMax == 0xFFFFFFFFFFFFFFFF
    shiftBits := k
    shiftMax := BitVec.ofNat 64 (2 ^ k - 1) }

/-- EXT_RANGE_INFO (R31): shiftBits in 6:0, isNative32 in 8, isNative64 in 9. -/
def RangeContext.infoWord (rc : RangeContext) : U64 :=
  (BitVec.ofNat 7 rc.shiftBits).setWidth 64 ||| bitAt rc.isNative32 8 ||| bitAt rc.isNative64 9

/-- What a command draws from: the instances, and the EXT words it has popped and not yet used. -/
structure Source where
  gen : Generators
  words : List U64
deriving DecidableEq, Repr

/-- RangeContext of an instance (R42). -/
def Source.range (src : Source) (i : Inst) : RangeContext := rangeContext (src.gen.nativeMax i)

/-- NativeDraw (R101): the native word and what is left, or nothing where the command needs an EXT
word it has not popped yet (R102). -/
def nativeDraw (i : Inst) (src : Source) : Option (U64 × Source) :=
  match i with
  | .mt32 =>
    let (y, mt) := src.gen.mt32.draw mt32Params
    some (zext64 y, { src with gen := { src.gen with mt32 := mt } })
  | .mt64 =>
    let (y, mt) := src.gen.mt64.draw mt64Params
    some (y, { src with gen := { src.gen with mt64 := mt } })
  | .add64 =>
    let (y, st) := addDraw src.gen.addState
    some (y, { src with gen := { src.gen with addState := st } })
  | .ext =>
    match src.words with
    | [] => none
    | v :: rest => some (v, { src with words := rest })

/-- What running a command's pseudocode on the words it has popped comes to. -/
inductive Progress where
  /-- The pseudocode ends: the result, if the command has one (R84), and the instances. -/
  | done (result : Option U64) (gen : Generators)
  /-- `raise E` (R13). -/
  | raise (e : Completion)
  /-- The pseudocode stands at an EXT draw. -/
  | needWord
deriving DecidableEq, Repr

/-- Completion of a command that succeeded (R223): its state writes, then RES if there is a
result, ERR <- 0, BUSY <- 0 and WAIT_EXT <- 0, all in the one engine step (notes/assumptions/13.md). -/
def State.complete (s : State) (result : Option U64) (gen : Generators) : State :=
  { s with
    gen := gen
    res := result.getD s.res
    err := .ok
    engine := .idle
    waitExt := false }

/-- Completion of a command that raised E (R223): ERR <- code(E), BUSY <- 0, WAIT_EXT <- 0, and
nothing else changes (R222, R225). -/
def State.raise (s : State) (e : Completion) : State :=
  { s with err := e, engine := .idle, waitExt := false }

/-- ExtDraw (R102): on an empty FIFO the engine holds with WAIT_EXT = 1; else WAIT_EXT <- 0 and the
head is popped. -/
def State.extDraw (s : State) (l : Latched) : State :=
  match s.extFifo with
  | [] => { s with waitExt := true }
  | v :: rest =>
    { s with
      waitExt := false
      extFifo := rest
      engine := .busy { l with drawn := l.drawn ++ [v] } }

/-- The end of one engine step (R100). -/
def State.settle (s : State) (l : Latched) : Progress → State
  | .done result gen => s.complete result gen
  | .raise e => s.raise e
  | .needWord => s.extDraw l

/-- What the command latched in `l` draws from. -/
def State.source (s : State) (l : Latched) : Source := { gen := s.gen, words := l.drawn }

/-- One engine step of a command (R100): its checks and pseudocode are run on the latched operands
and the EXT words popped so far, so that each EXT draw is a step of its own and everything else is
part of the step it follows (notes/assumptions/3.md). An idle engine executes nothing
(notes/assumptions/5.md). -/
def runCommand (body : Latched → Source → Progress) (s : State) :
    Host.Outcome State Fault Refusal :=
  match s.engine with
  | .idle => .next s
  | .busy l => .next (s.settle l (body l (s.source l)))

/-- A CMD write (R44): accepted by an idle engine, which latches the word and the operands; by a
busy one dropped, with CMD_DROPPED <- 1. -/
def State.issue (s : State) (v : U64) : State :=
  match s.engine with
  | .idle => { s with engine := .busy { cmd := v, opa := s.opa, opb := s.opb, drawn := [] } }
  | .busy _ => { s with cmdDropped := true }

/-- Reset (R250): every piece of the block's state at its reset value. The environment's fields are
not the block's and stay. -/
def State.resetBlock (s : State) : State :=
  { State.reset with schedule := s.schedule, readLog := s.readLog, freeCount := s.freeCount }

end Sys2Proof.Machine
end

