-- ==== Sys2Proof/Machine/Bus.lean ====
section
/-! DEFINITION. The host's accesses to the register window (rules R21 to R46 of 10_state.md, R60 to
R63 of 20_memory.md). -/

namespace Sys2Proof.Machine

/-- The registers of the map (R21). -/
inductive Reg where
  | id
  | ctrl
  | status
  | cmd
  | opa
  | opb
  | res
  | extNativeMax
  | extRangeInfo
  | extShiftMax
  | extPush
  | extLevel
  | keyAddr
  | keyData
  | mt32Addr
  | mt32Data
  | mt32Idx
  | mt64Addr
  | mt64Data
  | mt64Idx
  | addState
  | cache (inst : Inst)
deriving DecidableEq, Repr

/-- The register at an offset (R21); nothing at a reserved one (R46). -/
def regAt (offset : Offset) : Option Reg :=
  match offset.toNat with
  | 0x000 => some .id
  | 0x008 => some .ctrl
  | 0x010 => some .status
  | 0x018 => some .cmd
  | 0x020 => some .opa
  | 0x028 => some .opb
  | 0x030 => some .res
  | 0x038 => some .extNativeMax
  | 0x040 => some .extRangeInfo
  | 0x048 => some .extShiftMax
  | 0x050 => some .extPush
  | 0x058 => some .extLevel
  | 0x060 => some .keyAddr
  | 0x068 => some .keyData
  | 0x070 => some .mt32Addr
  | 0x078 => some .mt32Data
  | 0x080 => some .mt32Idx
  | 0x088 => some .mt64Addr
  | 0x090 => some .mt64Data
  | 0x098 => some .mt64Idx
  | 0x0A0 => some .addState
  | 0x0C0 => some (.cache .mt32)
  | 0x0C8 => some (.cache .mt64)
  | 0x0D0 => some (.cache .add64)
  | 0x0D8 => some (.cache .ext)
  | _ => none

/-- Word k of an array, 0 past its end: the read of a data window (R34, R35, R37). -/
def windowRead {w n : Nat} (words : Vector (BitVec w) n) (k : Nat) : BitVec w :=
  if h : k < n then words[k] else 0

/-- words[k] <- v, ignored past the end: the write of a data window (R34, R35, R37). -/
def windowWrite {w n : Nat} (words : Vector (BitVec w) n) (k : Nat) (v : BitVec w) :
    Vector (BitVec w) n :=
  if h : k < n then words.set k v else words

/-- The value a register reads as, by its rule. RES while BUSY = 1 is a free value (R29). -/
def readReg (s : State) : Reg → U64
  | .id => Config.idValue
  | .ctrl => 0
  | .status => s.statusWord
  | .cmd => 0
  | .opa => s.opa
  | .opb => s.opb
  | .res => if s.busy then Config.freeRes s.freeCount else s.res
  | .extNativeMax => s.gen.extNativeMax
  | .extRangeInfo => (rangeContext s.gen.extNativeMax).infoWord
  | .extShiftMax => (rangeContext s.gen.extNativeMax).shiftMax
  | .extPush => 0
  | .extLevel => (BitVec.ofNat 5 s.extFifo.length).setWidth 64
  | .keyAddr => s.keyAddr.setWidth 64
  | .keyData => windowRead s.key s.keyAddr.toNat
  | .mt32Addr => s.mt32Addr.setWidth 64
  | .mt32Data => zext64 (windowRead s.gen.mt32.words s.mt32Addr.toNat)
  | .mt32Idx => BitVec.ofNat 64 s.gen.mt32.idx
  | .mt64Addr => s.mt64Addr.setWidth 64
  | .mt64Data => windowRead s.gen.mt64.words s.mt64Addr.toNat
  | .mt64Idx => BitVec.ofNat 64 s.gen.mt64.idx
  | .addState => s.gen.addState
  | .cache i => (s.gen.cache i).word

/-- BusRead (R60): a reserved offset reads 0 (R46). -/
def busRead (s : State) (offset : Offset) : U64 :=
  match regAt offset with
  | some r => readReg s r
  | none => 0

/-- A write to EXT_NATIVE_MAX (R30): 0 is ignored; any other value constructs EXT anew. -/
def State.writeExtNativeMax (s : State) (v : U64) : State :=
  if v = 0 then s
  else { s with gen := { s.gen with extNativeMax := v, cacheExt := Cache.zero }, extFifo := [] }

/-- A write to EXT_PUSH (R32): dropped by a full FIFO or above the maximum, else appended, which lifts
a hold (R102), so that WAIT_EXT is 0 from then on (R25: "1 while the engine is held on an empty EXT
FIFO [...]; else 0"; DEDUCED, notes/assumptions/7.md). -/
def State.push (s : State) (v : U64) : State :=
  if Config.extFifoDepth ≤ s.extFifo.length then { s with pushDropped := true }
  else if s.gen.extNativeMax < v then { s with pushDropped := true }
  else { s with extFifo := s.extFifo ++ [v], waitExt := false }

/-- A locked register: its write is ignored while BUSY = 1 (R45). -/
def State.unlessBusy (s : State) (written : State) : State := if s.busy then s else written

/-- The effect of a write to a register, by its rule. -/
def writeReg (s : State) (r : Reg) (v : U64) : State :=
  match r with
  | .id => s
  | .ctrl => if v.getLsbD 0 then s.resetBlock else s
  | .status => s.writeStatus v
  | .cmd => s.issue v
  | .opa => { s with opa := v }
  | .opb => { s with opb := v }
  | .res => s
  | .extNativeMax => s.unlessBusy (s.writeExtNativeMax v)
  | .extRangeInfo => s
  | .extShiftMax => s
  | .extPush => s.push v
  | .extLevel => s
  | .keyAddr => { s with keyAddr := v.setWidth 10 }
  | .keyData => s.unlessBusy { s with key := windowWrite s.key s.keyAddr.toNat v }
  | .mt32Addr => { s with mt32Addr := v.setWidth 10 }
  | .mt32Data => s.unlessBusy { s with gen := { s.gen with mt32 :=
      { s.gen.mt32 with words := windowWrite s.gen.mt32.words s.mt32Addr.toNat (lo32 v) } } }
  | .mt32Idx => s.unlessBusy { s with gen := { s.gen with mt32 :=
      { s.gen.mt32 with idx := min v.toNat 624 } } }
  | .mt64Addr => { s with mt64Addr := v.setWidth 9 }
  | .mt64Data => s.unlessBusy { s with gen := { s.gen with mt64 :=
      { s.gen.mt64 with words := windowWrite s.gen.mt64.words s.mt64Addr.toNat v } } }
  | .mt64Idx => s.unlessBusy { s with gen := { s.gen with mt64 :=
      { s.gen.mt64 with idx := min v.toNat 312 } } }
  | .addState => s.unlessBusy { s with gen := { s.gen with addState := v } }
  | .cache i => s.unlessBusy { s with gen := s.gen.setCache i (Cache.ofWord v) }

/-- BusWrite (R60): a write to a reserved offset is ignored (R46). -/
def busWrite (s : State) (offset : Offset) (v : U64) : State :=
  match regAt offset with
  | some r => writeReg s r v
  | none => s

/-- R61: the only accesses with a meaning are 64 bits wide at a multiple of 8. -/
def accessSupported (bits : Nat) (offset : Offset) : Bool :=
  bits == 64 && offset.toNat % 8 == 0

/-- The host reads (R60, R63): the value joins the read log, the block is unchanged. A read of RES
while BUSY = 1 takes a free value. -/
def hostRead (s : State) (bits : Nat) (offset : Offset) : Host.Outcome State Fault Refusal :=
  if accessSupported bits offset then
    let taken := if regAt offset = some .res ∧ s.busy then 1 else 0
    .next { s with readLog := busRead s offset :: s.readLog, freeCount := s.freeCount + taken }
  else .refused (.unsupportedAccess bits offset)

/-- The host writes (R60). -/
def hostWrite (s : State) (bits : Nat) (offset : Offset) (v : U64) :
    Host.Outcome State Fault Refusal :=
  if accessSupported bits offset then .next (busWrite s offset v)
  else .refused (.unsupportedAccess bits offset)

end Sys2Proof.Machine
end

