-- ==== Sys2Proof/Machine/RangeMapping.lean ====
section
/-! DEFINITION. The range-mapping and bias-removal stage (40_range_mapping.md): widening and
narrowing (R103 to R105), the multiply-shift mapping (R106, R107), and the commands NEXT, NEXT32,
NEXT64 and the eight GET* (R110 to R120).

A function that draws answers nothing where it stands at an EXT word not yet popped. -/

namespace Sys2Proof.Machine

/-- Chunk64 (R105) over the EXT words: the only instance that reaches it. Words above shiftMax are
used up and change nothing; accepted words are shifted in from the right until 64 bits. -/
def chunk64 (rc : RangeContext) (acc : U64) (bits : Nat) :
    List U64 → Option (U64 × List U64)
  | [] => if 64 ≤ bits then some (acc, []) else none
  | v :: rest =>
    if 64 ≤ bits then some (acc, v :: rest)
    else if v ≤ rc.shiftMax then
      chunk64 rc ((acc <<< rc.shiftBits) ||| v) (bits + rc.shiftBits) rest
    else chunk64 rc acc bits rest

/-- Next64 (R103). -/
def next64 (i : Inst) (src : Source) : Option (U64 × Source) :=
  let rc := src.range i
  if rc.isNative64 then nativeDraw i src
  else if rc.isNative32 then
    match nativeDraw i src with
    | none => none
    | some (hi, src) =>
      match nativeDraw i src with
      | none => none
      | some (lo, src) => some (pair (lo32 hi) (lo32 lo), src)
  else
    match chunk64 rc 0 0 src.words with
    | none => none
    | some (v, rest) => some (v, { src with words := rest })

/-- Next32 (R104). -/
def next32 (i : Inst) (src : Source) : Option (U32 × Source) :=
  if (src.range i).isNative32 then
    match nativeDraw i src with
    | none => none
    | some (v, src) => some (lo32 v, src)
  else
    let cache := src.gen.cache i
    if cache.toggle then
      some (cache.half, { src with gen := src.gen.setCache i { cache with toggle := false } })
    else
      match next64 i src with
      | none => none
      | some (v, src) =>
        let cache : Cache := { half := hi32 v, toggle := true }
        some (lo32 v, { src with gen := src.gen.setCache i cache })

/-- INCL as an addend of the width (R106, R107). -/
def inclAddend (incl : Bool) : U64 := if incl then 1 else 0

/-- ((zext_64(r) * w) >> 32)[31:0] (R106). -/
def mulShift32 (r : U32) (w : U64) : U32 := lo32 ((zext64 r * w) >>> 32)

/-- MapU32 (R106). -/
def mapU32 (i : Inst) (m : U32) (incl : Bool) (src : Source) : Option (U32 × Source) :=
  if incl && m == 0xFFFFFFFF then next32 i src
  else
    match next32 i src with
    | none => none
    | some (r, src) => some (mulShift32 r (zext64 m + inclAddend incl), src)

/-- The sum of three cross products of R107; no low-low product, no carry between the terms. -/
def crossSum (r w : U64) : U64 :=
  ((zext64 (lo32 r) * zext64 (hi32 w)) >>> 32) + ((zext64 (hi32 r) * zext64 (lo32 w)) >>> 32)
    + zext64 (hi32 r) * zext64 (hi32 w)

/-- MapU64 (R107). -/
def mapU64 (i : Inst) (m : U64) (incl : Bool) (src : Source) : Option (U64 × Source) :=
  if m ≤ 0xFFFFFFFF then
    match mapU32 i (lo32 m) incl src with
    | none => none
    | some (v, src) => some (zext64 v, src)
  else if incl && m == 0xFFFFFFFFFFFFFFFF then next64 i src
  else
    match next64 i src with
    | none => none
    | some (r, src) => some (crossSum r (m + inclAddend incl), src)

/-- A command whose result is a drawn value, put into RES by `out` (R84). -/
def drawn {α : Type} (draw : Option (α × Source)) (out : α → U64) : Progress :=
  match draw with
  | none => .needWord
  | some (v, src) => .done (some (out v)) src.gen

/-- A ranged command (R113 to R120): InvalidRange before any draw, else the mapped value. -/
def ranged {α : Type} (bad : Bool) (draw : Option (α × Source)) (out : α → U64) : Progress :=
  if bad then .raise .invalidRange else drawn draw out

/-- NEXT (R110). -/
def execNext (i : Inst) (s : State) : Host.Outcome State Fault Refusal :=
  runCommand (fun _ src => drawn (nativeDraw i src) id) s

/-- NEXT32 (R111). -/
def execNext32 (i : Inst) (s : State) : Host.Outcome State Fault Refusal :=
  runCommand (fun _ src => drawn (next32 i src) zext64) s

/-- NEXT64 (R112). -/
def execNext64 (i : Inst) (s : State) : Host.Outcome State Fault Refusal :=
  runCommand (fun _ src => drawn (next64 i src) id) s

/-- GETU32 (R113). -/
def execGetu32 (i : Inst) (incl : Bool) (s : State) : Host.Outcome State Fault Refusal :=
  runCommand (fun l src =>
    ranged (badRange false (l.a32 == 0) incl) (mapU32 i l.a32 incl src) zext64) s

/-- GETU32R (R114). -/
def execGetu32r (i : Inst) (incl : Bool) (s : State) : Host.Outcome State Fault Refusal :=
  runCommand (fun l src =>
    ranged (badRange (decide (l.b32 < l.a32)) (l.b32 == l.a32) incl)
      (mapU32 i (l.b32 - l.a32) incl src) (fun v => zext64 (l.a32 + v))) s

/-- GETI32 (R115). -/
def execGeti32 (i : Inst) (incl : Bool) (s : State) : Host.Outcome State Fault Refusal :=
  runCommand (fun l src =>
    ranged (badRange (l.a32.slt 0) (l.a32 == 0) incl) (mapU32 i l.a32 incl src) sext64) s

/-- GETI32R (R116). -/
def execGeti32r (i : Inst) (incl : Bool) (s : State) : Host.Outcome State Fault Refusal :=
  runCommand (fun l src =>
    ranged (badRange (l.b32.slt l.a32) (l.b32 == l.a32) incl)
      (mapU32 i (l.b32 - l.a32) incl src) (fun v => sext64 (l.a32 + v))) s

/-- GETU64 (R117). -/
def execGetu64 (i : Inst) (incl : Bool) (s : State) : Host.Outcome State Fault Refusal :=
  runCommand (fun l src =>
    ranged (badRange false (l.opa == 0) incl) (mapU64 i l.opa incl src) id) s

/-- GETU64R (R118). -/
def execGetu64r (i : Inst) (incl : Bool) (s : State) : Host.Outcome State Fault Refusal :=
  runCommand (fun l src =>
    ranged (badRange (decide (l.opb < l.opa)) (l.opb == l.opa) incl)
      (mapU64 i (l.opb - l.opa) incl src) (fun v => l.opa + v)) s

/-- GETI64 (R119). -/
def execGeti64 (i : Inst) (incl : Bool) (s : State) : Host.Outcome State Fault Refusal :=
  runCommand (fun l src =>
    ranged (badRange (l.opa.slt 0) (l.opa == 0) incl) (mapU64 i l.opa incl src) id) s

/-- GETI64R (R120). -/
def execGeti64r (i : Inst) (incl : Bool) (s : State) : Host.Outcome State Fault Refusal :=
  runCommand (fun l src =>
    ranged (badRange (l.opb.slt l.opa) (l.opb == l.opa) incl)
      (mapU64 i (l.opb - l.opa) incl src) (fun v => l.opa + v)) s

end Sys2Proof.Machine
end

