-- ==== Sys2Proof/Machine/Seeding.lean ====
section
/-! DEFINITION. NOP, the seed commands and DISCARD (41_seeding_discard.md). -/

namespace Sys2Proof.Machine

/-- SEED_DEFAULT's case on INST (R152); EXT has no algorithm state. -/
def defaultSeed (i : Inst) (g : Generators) : Generators :=
  match i with
  | .mt32 => { g with mt32 := mtSeedKey mt32Params Config.defaultKeyMt32 }
  | .mt64 => { g with mt64 := mtSeedKey mt64Params Config.defaultKeyMt64 }
  | .add64 => { g with addState := Config.addDefaultState }
  | .ext => g

/-- SEED_SCALAR's case on INST (R153); EXT is rejected before it. -/
def scalarSeed (i : Inst) (l : Latched) (g : Generators) : Generators :=
  match i with
  | .mt32 => { g with mt32 := mtSeedScalar mt32Params l.a32 }
  | .mt64 => { g with mt64 := mtSeedScalar mt64Params l.opa }
  | .add64 => { g with addState := l.opa }
  | .ext => g

/-- SEED_KEY's case on INST (R155) for the seed words KEY[0..L-1], L at least 1; EXT is rejected
before it. MT32 takes the low 32 bits of each word; ADD64 takes KEY[0]. -/
def keySeed (i : Inst) (words : List U64) (g : Generators) : Generators :=
  match i with
  | .mt32 => { g with mt32 := mtSeedKey mt32Params (words.map lo32) }
  | .mt64 => { g with mt64 := mtSeedKey mt64Params words }
  | .add64 => { g with addState := words.headD 0 }
  | .ext => g

/-- The end of a successful seed command (R151): HALF <- 0, TOGGLE <- 0, no result. -/
def seeded (i : Inst) (g : Generators) : Progress := .done none (g.setCache i Cache.zero)

/-- `repeat n times: ExtDraw()`, the values dropped (R156). -/
def extDiscard : Nat → Source → Option Source
  | 0, src => some src
  | n + 1, src =>
    match nativeDraw .ext src with
    | none => none
    | some (_, src) => extDiscard n src

/-- DISCARD's case on INST (R156). -/
def discard (i : Inst) (n : U64) (src : Source) : Progress :=
  match i with
  | .mt32 => .done none { src.gen with mt32 := src.gen.mt32.discard mt32Params n.toNat }
  | .mt64 => .done none { src.gen with mt64 := src.gen.mt64.discard mt64Params n.toNat }
  | .add64 => .done none { src.gen with addState := addDiscard n src.gen.addState }
  | .ext =>
    match extDiscard n.toNat src with
    | none => .needWord
    | some src => .done none src.gen

/-- NOP (R150): INST is ignored, nothing is done. -/
def execNop (_ : Inst) (s : State) : Host.Outcome State Fault Refusal :=
  runCommand (fun _ src => .done none src.gen) s

/-- SEED_DEFAULT (R152). -/
def execSeedDefault (i : Inst) (s : State) : Host.Outcome State Fault Refusal :=
  runCommand (fun _ src => seeded i (defaultSeed i src.gen)) s

/-- SEED_SCALAR (R153). -/
def execSeedScalar (i : Inst) (s : State) : Host.Outcome State Fault Refusal :=
  runCommand (fun l src =>
    if i = .ext then .raise .unsupportedOperation else seeded i (scalarSeed i l src.gen)) s

/-- SEED_KEY (R155), its checks in the order of R221. -/
def execSeedKey (i : Inst) (s : State) : Host.Outcome State Fault Refusal :=
  runCommand (fun l src =>
    if i = .ext then .raise .unsupportedOperation
    else if Config.keyDepth < l.opa.toNat then .raise .bufferBounds
    else if l.opa = 0 then seeded i (defaultSeed i src.gen)
    else seeded i (keySeed i (s.key.toList.take l.opa.toNat) src.gen)) s

/-- DISCARD (R156). CacheState is not touched. -/
def execDiscard (i : Inst) (s : State) : Host.Outcome State Fault Refusal :=
  runCommand (fun l src => discard i l.opa src) s

end Sys2Proof.Machine
end

