-- ==== Sys2Proof/Machine/TestHooks.lean ====
section
/-! DEFINITION. The test hooks TEMPER (rule R190 of 42_lfsr_tempering.md) and WHITEN (rule R206 of
43_additive_whitening.md): one stage alone, no state read or written. -/

namespace Sys2Proof.Machine

/-- TEMPER (R190). -/
def execTemper (i : Inst) (s : State) : Host.Outcome State Fault Refusal :=
  runCommand (fun l src =>
    match i with
    | .mt32 => .done (some (zext64 (temper mt32Params l.a32))) src.gen
    | .mt64 => .done (some (temper mt64Params l.opa)) src.gen
    | .add64 => .raise .unsupportedOperation
    | .ext => .raise .unsupportedOperation) s

/-- WHITEN (R206). -/
def execWhiten (i : Inst) (s : State) : Host.Outcome State Fault Refusal :=
  runCommand (fun l src =>
    match i with
    | .add64 => .done (some (whiten l.opa)) src.gen
    | .mt32 => .raise .unsupportedOperation
    | .mt64 => .raise .unsupportedOperation
    | .ext => .raise .unsupportedOperation) s

end Sys2Proof.Machine
end

