-- ==== Sys2Proof/Machine/Dispatch.lean ====
section
/-! DEFINITION. The meaning of every command: one engine step of it (rule R100 of
40_range_mapping.md) on the operands the engine has latched. -/

namespace Sys2Proof.Machine

def exec (i : Instr) (s : State) : Host.Outcome State Fault Refusal :=
  match i with
  | .nop inst => Sys2Proof.Machine.execNop inst s
  | .next inst => Sys2Proof.Machine.execNext inst s
  | .next32 inst => Sys2Proof.Machine.execNext32 inst s
  | .next64 inst => Sys2Proof.Machine.execNext64 inst s
  | .getu32 inst incl => Sys2Proof.Machine.execGetu32 inst incl s
  | .getu32r inst incl => Sys2Proof.Machine.execGetu32r inst incl s
  | .geti32 inst incl => Sys2Proof.Machine.execGeti32 inst incl s
  | .geti32r inst incl => Sys2Proof.Machine.execGeti32r inst incl s
  | .getu64 inst incl => Sys2Proof.Machine.execGetu64 inst incl s
  | .getu64r inst incl => Sys2Proof.Machine.execGetu64r inst incl s
  | .geti64 inst incl => Sys2Proof.Machine.execGeti64 inst incl s
  | .geti64r inst incl => Sys2Proof.Machine.execGeti64r inst incl s
  | .seedDefault inst => Sys2Proof.Machine.execSeedDefault inst s
  | .seedScalar inst => Sys2Proof.Machine.execSeedScalar inst s
  | .seedKey inst => Sys2Proof.Machine.execSeedKey inst s
  | .discard inst => Sys2Proof.Machine.execDiscard inst s
  | .temper inst => Sys2Proof.Machine.execTemper inst s
  | .whiten inst => Sys2Proof.Machine.execWhiten inst s

end Sys2Proof.Machine
end

