-- ==== Sys2Proof/Machine/Engine.lean ====
section
/-! DEFINITION. One step of the engine (rule R100 of 40_range_mapping.md) and one move of the
environment (rules R16 and R62). -/

namespace Sys2Proof.Machine

/-- One engine step: an idle engine does nothing; a busy one decodes its latched word, and either
completes it with IllegalCommand (R86 to R88, R221) or executes it. -/
def engineStep (s : State) : Host.Outcome State Fault Refusal :=
  match s.engine with
  | .idle => .next s
  | .busy l =>
    match decode l.cmd with
    | .error _ => .next (s.raise .illegalCommand)
    | .ok i => exec i s

/-- One move (R62): an engine step, one indivisible access of the one host (R232,
notes/assumptions/8.md), or power-on reset. -/
def move (e : Event) (s : State) : Host.Outcome State Fault Refusal :=
  match e with
  | .engine => engineStep s
  | .read bits offset => hostRead s bits offset
  | .write bits offset v => hostWrite s bits offset v
  | .powerOn => .next s.resetBlock

/-- The first scheduled move; with none left, the engine runs on (notes/assumptions/1.md). -/
def stepScheduled (s : State) : Host.Outcome State Fault Refusal :=
  match s.schedule with
  | [] => engineStep s
  | e :: rest => move e { s with schedule := rest }

/-- The state in which an idle block has just accepted the command word `c` (R44) and the engine
moves next. -/
def State.withCommand (s : State) (c : U64) : State :=
  { s with
    engine := .busy { cmd := c, opa := s.opa, opb := s.opb, drawn := [] }
    schedule := .engine :: s.schedule }

end Sys2Proof.Machine
end

