-- ==== Sys2Proof/Machine/Step.lean ====
section
/-! DEFINITION. The machine's step, and how a command is placed so that the next step runs it. The
block has no program counter and fetches nothing (R49): a command arrives as a CMD write (R44). -/

namespace Sys2Proof.Machine

def step (s : State) : Host.Outcome State Fault Refusal := stepScheduled s

/-- The command word is latched as by an accepted CMD write, and the next move is the engine's
(notes/assumptions/6.md). -/
def State.withFetchWord (s : State) (nbits w : Nat) : State := s.withCommand (tableWord nbits w)

end Sys2Proof.Machine
end

