-- ==== Sys2Proof/Machine/TwistInPlace.lean ====
section
/-! DEFINITION. The pseudocode of rules R173, R182, R183 and R184 of 42_lfsr_tempering.md as it is
written there: loops over an array that is read and written in place. Nothing runs these; the
statements hold Machine/Twist.lean's one-pass forms against them. -/

namespace Sys2Proof.Machine

variable {w n : Nat}

/-- mt[k] <- v; nothing past the array's end. -/
def Mt.setWord (g : Mt w n) (k : Nat) (v : BitVec w) : Mt w n :=
  if h : k < n then { g with words := g.words.set k v } else g

/-- `for k in start .. start + count - 1 (ascending)`. -/
def loopUp {α : Type} (body : Nat → α → α) : Nat → Nat → α → α
  | 0, _, a => a
  | count + 1, k, a => loopUp body count (k + 1) (body k a)

/-- The body of Reload at position k (R173): it reads the array as already updated. -/
def reloadAt (p : MtParams w) (k : Nat) (g : Mt w n) : Mt w n :=
  let y := (g.word k &&& p.upper) ||| (g.word ((k + 1) % n) &&& p.lower)
  let v := g.word ((k + p.offset) % n) ^^^ (y >>> 1)
  g.setWord k (if y.getLsbD 0 then v ^^^ p.matrix else v)

/-- Reload(V) (R173). -/
def reloadInPlace (p : MtParams w) (g : Mt w n) : Mt w n :=
  { loopUp (reloadAt p) n 0 g with idx := 0 }

/-- The array before any seed word is stored; every word of it is overwritten. -/
def blankMt (w n : Nat) : Mt w n := { words := Vector.replicate n 0, idx := 0 }

/-- MT32SeedScalar and MT64SeedScalar (R182, R183). -/
def seedScalarInPlace (p : MtParams w) (x : BitVec w) : Mt w n :=
  let body (k : Nat) (g : Mt w n) : Mt w n :=
    g.setWord k (p.mul * (g.word (k - 1) ^^^ (g.word (k - 1) >>> p.shift)) + BitVec.ofNat w k)
  { loopUp body (n - 1) 1 ((blankMt w n).setWord 0 x) with idx := n }

/-- The variables of MTSeedKey's loops (R184). -/
structure KeyLoop (w n : Nat) where
  mt : Mt w n
  i : Nat
  j : Nat

/-- "if i >= N: mt[0] <- mt[N-1]; i <- 1" (R184). -/
def KeyLoop.wrapI (st : KeyLoop w n) : KeyLoop w n :=
  if n ≤ st.i then { st with mt := st.mt.setWord 0 (st.mt.word (n - 1)), i := 1 } else st

/-- One step of pass one (R184). -/
def passOneStep (p : MtParams w) (key : List (BitVec w)) (st : KeyLoop w n) : KeyLoop w n :=
  let q := st.mt.word (st.i - 1)
  let v := (st.mt.word st.i ^^^ ((q ^^^ (q >>> p.shift)) * p.mix1)) + key.getD st.j 0
    + BitVec.ofNat w st.j
  let st := KeyLoop.wrapI { mt := st.mt.setWord st.i v, i := st.i + 1, j := st.j + 1 }
  if key.length ≤ st.j then { st with j := 0 } else st

/-- One step of pass two (R184). -/
def passTwoStep (p : MtParams w) (st : KeyLoop w n) : KeyLoop w n :=
  let q := st.mt.word (st.i - 1)
  let v := (st.mt.word st.i ^^^ ((q ^^^ (q >>> p.shift)) * p.mix2)) - BitVec.ofNat w st.i
  KeyLoop.wrapI { st with mt := st.mt.setWord st.i v, i := st.i + 1 }

/-- MTSeedKey(V, key) (R184, R185). -/
def seedKeyInPlace (p : MtParams w) (key : List (BitVec w)) : Mt w n :=
  let start : KeyLoop w n :=
    { mt := seedScalarInPlace p (BitVec.ofNat w keyBaseSeed), i := 1, j := 0 }
  let one := loopUp (fun _ => passOneStep p key) (max n key.length) 0 start
  let two := loopUp (fun _ => passTwoStep p) (n - 1) 0 one
  { two.mt.setWord 0 (BitVec.twoPow w (w - 1)) with idx := n }

end Sys2Proof.Machine
end

