-- ==== Sys2Proof/Safety.lean ====
section
/-! DEFINITION. The terms the statements use: how one engine step of a command can end, the
command words that are illegal, and the invariant of a run. -/

namespace Sys2Proof.Machine

/-- The command completes with ERR = OK and the result v, leaving the instances `g` (R223). Nothing
else of the state changes. -/
def CompletesWith (i : Instr) (s : State) (g : Generators) (v : U64) : Prop :=
  exec i s = .next { s with gen := g, res := v, err := .ok, engine := .idle, waitExt := false }

/-- The command completes with ERR = OK and no result, leaving the instances `g` (R223). Nothing
else of the state changes, RES included. -/
def CompletesSilently (i : Instr) (s : State) (g : Generators) : Prop :=
  exec i s = .next { s with gen := g, err := .ok, engine := .idle, waitExt := false }

/-- The command completes with the error `e`, and nothing else changes (R223). -/
def FailsWith (i : Instr) (s : State) (e : Completion) : Prop :=
  exec i s = .next { s with err := e, engine := .idle, waitExt := false }

/-- The command stands at an EXT draw (R102): the engine pops the head of the FIFO, or holds on an
empty one. -/
def TakesWord (i : Instr) (s : State) (l : Latched) : Prop :=
  (s.extFifo = [] → exec i s = .next { s with waitExt := true })
  ∧ (∀ v rest, s.extFifo = v :: rest →
      exec i s = .next { s with waitExt := false, extFifo := rest,
                                engine := .busy { l with drawn := l.drawn ++ [v] } })

/-- No environment move is scheduled before the engine's, and the engine is busy with a word that
decodes to `i`. -/
def EngineRuns (s : State) (l : Latched) (i : Instr) : Prop :=
  s.schedule = [] ∧ s.engine = .busy l ∧ decode l.cmd = .ok i

/-- `k` steps of the machine from `s` end in `t`. -/
def RunsTo (k : Nat) (s t : State) : Prop := Sys2Proof.core.run k s = .next t

/-- The generators agree on everything that is not instance `i`'s own (R41): the AlgorithmState and
CacheState of the other instances, and EXT_NATIVE_MAX. -/
structure SameOutside (i : Inst) (g g' : Generators) : Prop where
  mt32 : i ≠ .mt32 → g'.mt32 = g.mt32
  mt64 : i ≠ .mt64 → g'.mt64 = g.mt64
  add64 : i ≠ .add64 → g'.addState = g.addState
  nativeMax : g'.extNativeMax = g.extNativeMax
  caches : ∀ j, j ≠ i → g'.cache j = g.cache j

/-- The generators agree on instance `i` (R158): its AlgorithmState, RangeContext and CacheState. -/
structure SameInstance (i : Inst) (g g' : Generators) : Prop where
  mt32 : i = .mt32 → g'.mt32 = g.mt32
  mt64 : i = .mt64 → g'.mt64 = g.mt64
  add64 : i = .add64 → g'.addState = g.addState
  nativeMax : g'.nativeMax i = g.nativeMax i
  cache : g'.cache i = g.cache i

/-- The command words of rules R86, R87 and R88. -/
def illegalWord (c : U64) : Prop :=
  let op := c.toNat % 256
  c.toNat / 2 ^ 11 ≠ 0
  ∨ (0x0C ≤ op ∧ op ≤ 0x0F) ∨ (0x13 ≤ op ∧ op ≤ 0x17) ∨ (0x19 ≤ op ∧ op ≤ 0x1F) ∨ 0x22 ≤ op
  ∨ (c.getLsbD 10 = true ∧ ¬(0x04 ≤ op ∧ op ≤ 0x0B))

/-- What every run keeps. -/
structure State.Inv (s : State) : Prop where
  /-- R179, R36. -/
  idx32 : s.gen.mt32.idx ≤ 624
  /-- R179, R38. -/
  idx64 : s.gen.mt64.idx ≤ 312
  /-- R30: nativeMax "must be > 0". -/
  nativeMax : s.gen.extNativeMax ≠ 0
  /-- R32: the FIFO holds 0 to 16 words. -/
  fifoDepth : s.extFifo.length ≤ 16
  /-- R32, R102: every word in the FIFO is at most EXT_NATIVE_MAX. -/
  fifoWords : ∀ v ∈ s.extFifo, v ≤ s.gen.extNativeMax
  /-- R101: every word a command has drawn is at most EXT_NATIVE_MAX. -/
  drawnWords : ∀ l, s.engine = .busy l → ∀ v ∈ l.drawn, v ≤ s.gen.extNativeMax
  /-- R100, R102, C8: only a command on EXT draws EXT words. -/
  drawnExt : ∀ l, s.engine = .busy l → l.drawn ≠ [] →
    ∃ i, decode l.cmd = .ok i ∧ i.inst = .ext
  /-- R25, R100, C8: the engine is held only on an empty FIFO, executing a command on EXT. -/
  held : s.waitExt = true → s.extFifo = [] ∧
    ∃ l i, s.engine = .busy l ∧ decode l.cmd = .ok i ∧ i.inst = .ext

end Sys2Proof.Machine
end

