-- ==== Sys2Proof/Certificates/Slice0/Obligations.lean ====
section
/-! DEFINITION. The statements for the provers. "R<n>" are the numbered rules of spec/. -/

open Sys2Proof Sys2Proof.Machine

/-! ## Encoding -/

/-- Every instruction's word decodes to it, with INST and INCL at every value (R81 to R90). -/
def Obligations.DecodeOfEncode : Prop :=
  ∀ i : Instr, decode (encode i) = .ok i

/-- R89: a word decodes to an instruction exactly when it matches the instruction's row under the
row's mask and carries its INST and, where the row has one, INCL field; and a word that decodes to
nothing is one of the words of R86, R87 and R88. -/
def Obligations.DecodeIffRowMatches : Prop :=
  (∀ (c : U64) (i : Instr), decode c = .ok i ↔
    (c &&& (if i.ranged then 0xFFFFFFFFFFFFF8FF else 0xFFFFFFFFFFFFFCFF) = (opcode i).setWidth 64
      ∧ c.extractLsb' 8 2 = instBits i.inst
      ∧ (i.ranged = true → c.getLsbD 10 = i.incl)))
  ∧ (∀ c : U64, (∀ i, decode c ≠ .ok i) ↔ illegalWord c)

/-- R86, R87, R88: an accepted command with a reserved OP, a RSV bit set, or INCL on a command that
is not ranged completes with IllegalCommand in the engine's next step, and changes nothing else. That
the engine is next where nothing is scheduled is the model's choice (notes/assumptions/1.md). -/
def Obligations.IllegalWordCompletes : Prop :=
  ∀ (s : State) (l : Latched), s.engine = .busy l → illegalWord l.cmd →
    (s.schedule = [] →
      step s = .next { s with err := .illegalCommand, engine := .idle, waitExt := false })
    ∧ (∀ rest, s.schedule = .engine :: rest →
      step s = .next { s with err := .illegalCommand, engine := .idle, waitExt := false,
                              schedule := rest })

/-- Words written out from R81 and R85, and what they decode to (V61 of 95_test_vectors.md). -/
def Obligations.SampleWordsDecode : Prop :=
  decode 0x0000000000000000 = .ok (.nop .mt32)
  ∧ decode 0x0000000000000101 = .ok (.next .mt64)
  ∧ decode 0x0000000000000302 = .ok (.next32 .ext)
  ∧ decode 0x0000000000000604 = .ok (.getu32 .add64 true)
  ∧ decode 0x000000000000030B = .ok (.geti64r .ext false)
  ∧ decode 0x0000000000000012 = .ok (.seedKey .mt32)
  ∧ decode 0x0000000000000218 = .ok (.discard .add64)
  ∧ decode 0x0000000000000120 = .ok (.temper .mt64)
  ∧ decode 0x0000000000000221 = .ok (.whiten .add64)
  ∧ decode 0x0000000000000418 = .error .inclNotRanged
  ∧ decode 0x0000000000001001 = .error .reservedBits
  ∧ decode 0x0000000000000013 = .error .reservedOpcode

/-- When the engine's turn comes, a step executes the instruction its latched word decodes to; an
idle engine's step changes nothing of the block, whether the step was scheduled or not; and a
scheduled host access or power-on is a step of its own (R44, R62, R100; the schedule, and that the
engine is next where it is empty, are the model's choice, notes/assumptions/1.md). -/
def Obligations.StepRunsDecodedInstruction : Prop :=
  (∀ s l i, s.schedule = [] → s.engine = .busy l → decode l.cmd = .ok i → step s = exec i s)
  ∧ (∀ s l i rest, s.schedule = .engine :: rest → s.engine = .busy l → decode l.cmd = .ok i →
      step s = exec i { s with schedule := rest })
  ∧ (∀ s, s.schedule = [] → s.engine = .idle → step s = .next s)
  ∧ (∀ s rest, s.schedule = .engine :: rest → s.engine = .idle →
      step s = .next { s with schedule := rest })
  ∧ (∀ s bits offset rest, s.schedule = .read bits offset :: rest →
      step s = hostRead { s with schedule := rest } bits offset)
  ∧ (∀ s bits offset v rest, s.schedule = .write bits offset v :: rest →
      step s = hostWrite { s with schedule := rest } bits offset v)
  ∧ (∀ s rest, s.schedule = .powerOn :: rest →
      step s = .next { s.resetBlock with schedule := rest })

/-! ## Invariants and whole-machine rules -/

/-- Every step keeps the invariant, from every state that meets it. -/
def Obligations.StepKeepsInvariant : Prop :=
  ∀ s t : State, s.Inv → step s = .next t → t.Inv

/-- The invariant holds after reset. -/
def Obligations.ResetMeetsInvariant : Prop := State.reset.Inv

/-- No step faults, and a step is refused only for a host access that is not 64 bits wide at a
multiple of 8, which always is (R61); every command has its effect. -/
def Obligations.OnlyUnsupportedAccessStops : Prop :=
  (∀ s : State, (∃ t, step s = .next t) ∨
    (∃ bits offset rest, (bits ≠ 64 ∨ offset.toNat % 8 ≠ 0)
      ∧ ((s.schedule = .read bits offset :: rest)
          ∨ ∃ v, s.schedule = .write bits offset v :: rest)
      ∧ step s = .refused (.unsupportedAccess bits offset)))
  ∧ (∀ (s : State) (bits : Nat) (offset : Offset) (v : U64), bits ≠ 64 ∨ offset.toNat % 8 ≠ 0 →
    hostRead s bits offset = .refused (.unsupportedAccess bits offset)
    ∧ hostWrite s bits offset v = .refused (.unsupportedAccess bits offset))

/-- R41: no command writes another instance's AlgorithmState or CacheState; beyond its instance it
writes only RES, ERR, BUSY, WAIT_EXT and, on EXT, the FIFO. -/
def Obligations.CommandsKeepOtherState : Prop :=
  ∀ (i : Instr) (s t : State), exec i s = .next t →
    SameOutside i.inst s.gen t.gen
    ∧ (i.inst ≠ .ext → t.extFifo = s.extFifo)
    ∧ t.key = s.key ∧ t.keyAddr = s.keyAddr ∧ t.mt32Addr = s.mt32Addr ∧ t.mt64Addr = s.mt64Addr
    ∧ t.opa = s.opa ∧ t.opb = s.opb
    ∧ t.cmdDropped = s.cmdDropped ∧ t.pushDropped = s.pushDropped
    ∧ t.schedule = s.schedule ∧ t.readLog = s.readLog ∧ t.freeCount = s.freeCount

/-- R158: two blocks that agree on the command's instance, on the KEY buffer and on what is latched
(the EXT words drawn included) make the same engine step: the same error, or results and instances
that agree again, or both stand at an EXT draw. Nothing else of the two states need agree. -/
def Obligations.CommandsAreReproducible : Prop :=
  ∀ (i : Instr) (s s' : State) (l : Latched), s.engine = .busy l → s'.engine = .busy l →
    SameInstance i.inst s.gen s'.gen → s.key = s'.key →
    (∃ e, FailsWith i s e ∧ FailsWith i s' e)
    ∨ (∃ g g' v, CompletesWith i s g v ∧ CompletesWith i s' g' v ∧ SameInstance i.inst g g')
    ∨ (∃ g g', CompletesSilently i s g ∧ CompletesSilently i s' g' ∧ SameInstance i.inst g g')
    ∨ (TakesWord i s l ∧ TakesWord i s' l)

/-- R100, R263: a command on MT32, MT64 or ADD64 never holds: one engine step completes it. -/
def Obligations.ImmediateInstancesComplete : Prop :=
  ∀ (i : Instr) (s : State) (l : Latched), s.engine = .busy l → i.inst ≠ .ext →
    ∃ t, exec i s = .next t ∧ t.engine = .idle ∧ t.waitExt = false

/-- R222, R225: a command that completes with an error has changed nothing but ERR, BUSY and
WAIT_EXT; and whether a command fails, and how, depends only on the command and the latched
operands. -/
def Obligations.ErrorsArePrecise : Prop :=
  (∀ (i : Instr) (s t : State) (l : Latched), s.engine = .busy l → exec i s = .next t →
    t.engine = .idle → t.err ≠ .ok →
    t = { s with err := t.err, engine := .idle, waitExt := false })
  ∧ (∀ (i : Instr) (s s' : State) (l l' : Latched) (e : Completion), e ≠ .ok →
    s.engine = .busy l → s'.engine = .busy l' → l.opa = l'.opa → l.opb = l'.opb →
    FailsWith i s e → FailsWith i s' e)

/-- R26: CMD_DROPPED and PUSH_DROPPED, once set, stay set through every step but a write to STATUS
with their bit, a write to CTRL with SRST, and power-on. -/
def Obligations.StickyBitsStay : Prop :=
  ∀ s t : State, step s = .next t →
    (s.cmdDropped = true → t.cmdDropped = false →
      (∃ v rest, s.schedule = .write 64 0x010 v :: rest ∧ v.getLsbD 8 = true)
      ∨ (∃ v rest, s.schedule = .write 64 0x008 v :: rest ∧ v.getLsbD 0 = true)
      ∨ (∃ rest, s.schedule = .powerOn :: rest))
    ∧ (s.pushDropped = true → t.pushDropped = false →
      (∃ v rest, s.schedule = .write 64 0x010 v :: rest ∧ v.getLsbD 9 = true)
      ∨ (∃ v rest, s.schedule = .write 64 0x008 v :: rest ∧ v.getLsbD 0 = true)
      ∨ (∃ rest, s.schedule = .powerOn :: rest))

/-- R102, R235, C9: a command that stands at an EXT draw with the FIFO empty is held for as long as
the host does nothing: any number of steps leaves the state as it is, with WAIT_EXT = 1. That the
engine is next where nothing is scheduled is the model's choice (notes/assumptions/1.md). -/
def Obligations.EmptyFifoHoldsForever : Prop :=
  ∀ (i : Instr) (s : State) (l : Latched), EngineRuns s l i → TakesWord i s l → s.extFifo = [] →
    ∀ k, RunsTo (k + 1) s { s with waitExt := true }

/-! ## Reset -/

/-- R48, R251: the value of every piece of the block's state after reset. -/
def Obligations.ResetValues : Prop :=
  State.reset.gen =
      { mt32 := mtSeedKey mt32Params [0x123, 0x234, 0x345, 0x456]
        mt64 := mtSeedKey mt64Params [0x12345, 0x23456, 0x34567, 0x45678]
        addState := 0x0123456789ABCDEF
        extNativeMax := 0xFFFFFFFFFFFFFFFF
        cacheMt32 := { half := 0, toggle := false }
        cacheMt64 := { half := 0, toggle := false }
        cacheAdd64 := { half := 0, toggle := false }
        cacheExt := { half := 0, toggle := false } }
  ∧ State.reset.gen.mt32.idx = 624 ∧ State.reset.gen.mt64.idx = 312
  ∧ State.reset.engine = .idle ∧ State.reset.err = .ok ∧ State.reset.waitExt = false
  ∧ State.reset.cmdDropped = false ∧ State.reset.pushDropped = false
  ∧ State.reset.opa = 0 ∧ State.reset.opb = 0 ∧ State.reset.res = 0
  ∧ State.reset.extFifo = [] ∧ State.reset.key = Vector.replicate 624 0
  ∧ State.reset.keyAddr = 0 ∧ State.reset.mt32Addr = 0 ∧ State.reset.mt64Addr = 0
  ∧ busRead State.reset 0x000 = 0x4C4D5F5052470001
  ∧ busRead State.reset 0x008 = 0
  ∧ busRead State.reset 0x010 = 0
  ∧ busRead State.reset 0x040 = 0x240
  ∧ busRead State.reset 0x048 = 0xFFFFFFFFFFFFFFFF
  ∧ busRead State.reset 0x058 = 0

/-- R250, R253: power-on, and a write to CTRL with SRST = 1 whatever BUSY is, put every piece of the
block's state at its reset value in one step, abandoning a running command; a write with SRST = 0
changes nothing. The environment's schedule, read log and free-value count, which are the model's,
stay (notes/assumptions/1.md). -/
def Obligations.ResetEvents : Prop :=
  ∀ (s : State) (v : U64),
    (v.getLsbD 0 = true → hostWrite s 64 0x008 v = .next { State.reset with
      schedule := s.schedule, readLog := s.readLog, freeCount := s.freeCount })
    ∧ (v.getLsbD 0 = false → hostWrite s 64 0x008 v = .next s)
    ∧ move .powerOn s = .next { State.reset with
      schedule := s.schedule, readLog := s.readLog, freeCount := s.freeCount }

/-! ## The register window -/

/-- R60, R63: a read returns its value to the host and changes nothing of the block; the model's
count of free values moves only where RES is read while BUSY = 1. -/
def Obligations.ReadsChangeNothing : Prop :=
  ∀ (s : State) (offset : Offset), offset.toNat % 8 = 0 →
    hostRead s 64 offset = .next { s with
      readLog := busRead s offset :: s.readLog
      freeCount := if offset = 0x030 ∧ s.engine ≠ .idle then s.freeCount + 1 else s.freeCount }

/-- R46, R23, R24, R27, R29, R31, R32, R33: a read of a reserved offset returns 0, and a write to one
is ignored; the registers stand at 0x000 to 0x0A0 and 0x0C0 to 0x0D8 (R21). Writes to ID, RES,
EXT_RANGE_INFO, EXT_SHIFT_MAX and EXT_LEVEL are ignored; CTRL, CMD and EXT_PUSH read 0; ID reads
its constant; EXT_LEVEL the number of words in the FIFO. -/
def Obligations.InertAccesses : Prop :=
  ∀ (s : State) (v : U64),
    (∀ offset : Offset, offset.toNat % 8 = 0 →
      ((0x0A0 < offset.toNat ∧ offset.toNat < 0x0C0) ∨ 0x0D8 < offset.toNat) →
      busRead s offset = 0 ∧ hostWrite s 64 offset v = .next s)
    ∧ (∀ offset : Offset, offset ∈ [0x000, 0x030, 0x040, 0x048, 0x058] →
      hostWrite s 64 offset v = .next s)
    ∧ (∀ offset : Offset, offset ∈ [0x008, 0x018, 0x050] → busRead s offset = 0)
    ∧ busRead s 0x000 = 0x4C4D5F5052470001
    ∧ (s.extFifo.length ≤ 16 → (busRead s 0x058).toNat = s.extFifo.length)

/-- R25, R26, R220: the fields of STATUS, every other bit 0; a write to it clears the sticky bits whose
bit it sets, and changes nothing else. -/
def Obligations.StatusRegister : Prop :=
  ∀ (s : State) (v : U64),
    (busRead s 0x010).getLsbD 0 = decide (s.engine ≠ .idle)
    ∧ (busRead s 0x010).getLsbD 1 = s.waitExt
    ∧ (busRead s 0x010).extractLsb' 4 3 =
        (match s.err with
          | .ok => 0
          | .invalidRange => 1
          | .bufferBounds => 2
          | .unsupportedOperation => 3
          | .illegalCommand => 4)
    ∧ (busRead s 0x010).getLsbD 8 = s.cmdDropped
    ∧ (busRead s 0x010).getLsbD 9 = s.pushDropped
    ∧ (∀ k, k ∈ [2, 3, 7] ∨ 10 ≤ k → (busRead s 0x010).getLsbD k = false)
    ∧ hostWrite s 64 0x010 v = .next { s with
        cmdDropped := if v.getLsbD 8 then false else s.cmdDropped
        pushDropped := if v.getLsbD 9 then false else s.pushDropped }

/-- R44: a CMD write to an idle engine latches the word and both operands and starts the command; to
a busy one it is dropped, with CMD_DROPPED set and nothing else changed; what is latched is not
host-visible. -/
def Obligations.CommandIssue : Prop :=
  ∀ (s : State) (v : U64),
    (s.engine = .idle → hostWrite s 64 0x018 v = .next { s with
      engine := .busy { cmd := v, opa := s.opa, opb := s.opb, drawn := [] } })
    ∧ (∀ l, s.engine = .busy l → hostWrite s 64 0x018 v = .next { s with cmdDropped := true })
    ∧ (∀ (l l' : Latched) (offset : Offset),
        busRead { s with engine := .busy l } offset = busRead { s with engine := .busy l' } offset)

/-- R45: while BUSY = 1 a write to a locked register (R21) changes nothing, and a read of one returns
the current value, as it would with the engine idle. -/
def Obligations.LockedRegisters : Prop :=
  ∀ (s : State) (l : Latched) (offset : Offset) (v : U64), s.engine = .busy l →
    offset ∈ [0x038, 0x068, 0x078, 0x080, 0x090, 0x098, 0x0A0, 0x0C0, 0x0C8, 0x0D0, 0x0D8] →
    hostWrite s 64 offset v = .next s
    ∧ busRead s offset = busRead { s with engine := .idle } offset

/-- R28, R29, R260: OPA and OPB take the whole word whatever BUSY is, read back the last value written,
and a write to them leaves the operands a running command has latched; RES reads the last result
while the engine is idle, and while it is busy each read takes the next free value, whatever that
is. -/
def Obligations.OperandAndResultRegisters : Prop :=
  ∀ (s : State) (v : U64),
    hostWrite s 64 0x020 v = .next { s with opa := v }
    ∧ hostWrite s 64 0x028 v = .next { s with opb := v }
    ∧ busRead s 0x020 = s.opa ∧ busRead s 0x028 = s.opb
    ∧ (s.engine = .idle → hostRead s 64 0x030 = .next { s with readLog := s.res :: s.readLog })
    ∧ (∀ l, s.engine = .busy l → hostRead s 64 0x030 = .next { s with
        readLog := Config.freeRes s.freeCount :: s.readLog
        freeCount := s.freeCount + 1 })

/-- R30: a write of 0 to EXT_NATIVE_MAX is ignored; any other value written while the engine is idle is
taken, and the FIFO and CACHE_EXT are emptied; while it is busy the write is ignored. The register
reads what it holds, and all ones after reset. -/
def Obligations.ExtNativeMaxWrite : Prop :=
  ∀ (s : State) (v : U64),
    (s.engine = .idle →
      (v = 0 → hostWrite s 64 0x038 v = .next s)
      ∧ (v ≠ 0 → hostWrite s 64 0x038 v = .next { s with
          gen := { s.gen with extNativeMax := v, cacheExt := { half := 0, toggle := false } }
          extFifo := [] }))
    ∧ (∀ l, s.engine = .busy l → hostWrite s 64 0x038 v = .next s)
    ∧ busRead s 0x038 = s.gen.extNativeMax
    ∧ State.reset.gen.extNativeMax = 0xFFFFFFFFFFFFFFFF

/-- R42, R31: shiftBits is the largest k in 1..64 with 2^k - 1 <= nativeMax, shiftMax is 2^k - 1, and
the native flags compare nativeMax with 2^32 - 1 and 2^64 - 1; the fixed instances' values are those
of the rule's table. EXT_RANGE_INFO shows shiftBits in bits 6:0, isNative32 in 8 and isNative64 in 9,
every other bit 0; EXT_SHIFT_MAX shows shiftMax; both follow EXT_NATIVE_MAX. -/
def Obligations.RangeContextValues : Prop :=
  (∀ m : U64, m ≠ 0 →
    1 ≤ (rangeContext m).shiftBits ∧ (rangeContext m).shiftBits ≤ 64
    ∧ 2 ^ (rangeContext m).shiftBits - 1 ≤ m.toNat
    ∧ (∀ k, 1 ≤ k → k ≤ 64 → 2 ^ k - 1 ≤ m.toNat → k ≤ (rangeContext m).shiftBits)
    ∧ (rangeContext m).shiftMax.toNat = 2 ^ (rangeContext m).shiftBits - 1
    ∧ ((rangeContext m).isNative32 = true ↔ m.toNat = 2 ^ 32 - 1)
    ∧ ((rangeContext m).isNative64 = true ↔ m.toNat = 2 ^ 64 - 1)
    ∧ (rangeContext m).nativeMax = m)
  ∧ (∀ src : Source,
    src.range .mt32 = { nativeMax := 0xFFFFFFFF, isNative32 := true, isNative64 := false,
                        shiftBits := 32, shiftMax := 0xFFFFFFFF }
    ∧ src.range .mt64 = { nativeMax := 0xFFFFFFFFFFFFFFFF, isNative32 := false, isNative64 := true,
                          shiftBits := 64, shiftMax := 0xFFFFFFFFFFFFFFFF }
    ∧ src.range .add64 = src.range .mt64
    ∧ src.range .ext = rangeContext src.gen.extNativeMax)
  ∧ (∀ s : State, s.gen.extNativeMax ≠ 0 →
    ((busRead s 0x040).extractLsb' 0 7).toNat = (rangeContext s.gen.extNativeMax).shiftBits
    ∧ (busRead s 0x040).getLsbD 8 = (rangeContext s.gen.extNativeMax).isNative32
    ∧ (busRead s 0x040).getLsbD 9 = (rangeContext s.gen.extNativeMax).isNative64
    ∧ (∀ k, k = 7 ∨ 10 ≤ k → (busRead s 0x040).getLsbD k = false)
    ∧ busRead s 0x048 = (rangeContext s.gen.extNativeMax).shiftMax)

/-- R32: a push to a full FIFO, or of a word above EXT_NATIVE_MAX, is dropped with PUSH_DROPPED set;
any other is appended at the tail, which ends a hold (notes/assumptions/7.md); whatever BUSY is. -/
def Obligations.ExtPushWrite : Prop :=
  ∀ (s : State) (v : U64),
    (16 ≤ s.extFifo.length → hostWrite s 64 0x050 v = .next { s with pushDropped := true })
    ∧ (s.extFifo.length < 16 → s.gen.extNativeMax < v →
        hostWrite s 64 0x050 v = .next { s with pushDropped := true })
    ∧ (s.extFifo.length < 16 → v ≤ s.gen.extNativeMax →
        hostWrite s 64 0x050 v = .next { s with extFifo := s.extFifo ++ [v], waitExt := false })
    ∧ busRead s 0x050 = 0

/-- R34: KEY_ADDR takes the low 10 bits at any time; KEY_DATA reads KEY[KEY_ADDR], or 0 past the
buffer; a write by an idle host stores there and nowhere else, and is ignored past the buffer. -/
def Obligations.KeyWindow : Prop :=
  ∀ (s : State) (v : U64),
    hostWrite s 64 0x060 v = .next { s with keyAddr := v.extractLsb' 0 10 }
    ∧ (busRead s 0x060).toNat = s.keyAddr.toNat
    ∧ (∀ h : s.keyAddr.toNat < 624, busRead s 0x068 = s.key[s.keyAddr.toNat])
    ∧ (624 ≤ s.keyAddr.toNat → busRead s 0x068 = 0)
    ∧ (s.engine = .idle →
        (624 ≤ s.keyAddr.toNat → hostWrite s 64 0x068 v = .next s)
        ∧ (s.keyAddr.toNat < 624 → ∃ key, hostWrite s 64 0x068 v = .next { s with key := key }
            ∧ ∀ k (h : k < 624), key[k] = if k = s.keyAddr.toNat then v else s.key[k]))

/-- R35, R36: the MT32 windows: the address takes 10 bits; the data window reads and writes the low
32 bits of one word, 0 and ignored past the array; the index window clamps to 624. -/
def Obligations.Mt32Windows : Prop :=
  ∀ (s : State) (v : U64),
    hostWrite s 64 0x070 v = .next { s with mt32Addr := v.extractLsb' 0 10 }
    ∧ (busRead s 0x070).toNat = s.mt32Addr.toNat
    ∧ (∀ h : s.mt32Addr.toNat < 624,
        (busRead s 0x078).toNat = (s.gen.mt32.words[s.mt32Addr.toNat]).toNat)
    ∧ (624 ≤ s.mt32Addr.toNat → busRead s 0x078 = 0)
    ∧ (s.gen.mt32.idx ≤ 624 → (busRead s 0x080).toNat = s.gen.mt32.idx)
    ∧ (s.engine = .idle →
        (624 ≤ s.mt32Addr.toNat → hostWrite s 64 0x078 v = .next s)
        ∧ (s.mt32Addr.toNat < 624 → ∃ words, hostWrite s 64 0x078 v = .next { s with
              gen := { s.gen with mt32 := { s.gen.mt32 with words := words } } }
            ∧ ∀ k (h : k < 624), words[k] =
                if k = s.mt32Addr.toNat then v.extractLsb' 0 32 else s.gen.mt32.words[k])
        ∧ hostWrite s 64 0x080 v = .next { s with
              gen := { s.gen with mt32 := { s.gen.mt32 with
                idx := if v.toNat < 624 then v.toNat else 624 } } })

/-- R37, R38: the MT64 windows: the address takes 9 bits; the data window reads and writes one whole
word, 0 and ignored past the array; the index window clamps to 312. -/
def Obligations.Mt64Windows : Prop :=
  ∀ (s : State) (v : U64),
    hostWrite s 64 0x088 v = .next { s with mt64Addr := v.extractLsb' 0 9 }
    ∧ (busRead s 0x088).toNat = s.mt64Addr.toNat
    ∧ (∀ h : s.mt64Addr.toNat < 312, busRead s 0x090 = s.gen.mt64.words[s.mt64Addr.toNat])
    ∧ (312 ≤ s.mt64Addr.toNat → busRead s 0x090 = 0)
    ∧ (s.gen.mt64.idx ≤ 312 → (busRead s 0x098).toNat = s.gen.mt64.idx)
    ∧ (s.engine = .idle →
        (312 ≤ s.mt64Addr.toNat → hostWrite s 64 0x090 v = .next s)
        ∧ (s.mt64Addr.toNat < 312 → ∃ words, hostWrite s 64 0x090 v = .next { s with
              gen := { s.gen with mt64 := { s.gen.mt64 with words := words } } }
            ∧ ∀ k (h : k < 312), words[k] =
                if k = s.mt64Addr.toNat then v else s.gen.mt64.words[k])
        ∧ hostWrite s 64 0x098 v = .next { s with
              gen := { s.gen with mt64 := { s.gen.mt64 with
                idx := if v.toNat < 312 then v.toNat else 312 } } })

/-- R39, R40: ADD_STATE reads and takes s whole; each CACHE_* register shows HALF in bits 31:0 and
TOGGLE in bit 32, every other bit 0, and a write by an idle host sets both. -/
def Obligations.AddStateAndCacheWindows : Prop :=
  ∀ (s : State) (v : U64),
    busRead s 0x0A0 = s.gen.addState
    ∧ (s.engine = .idle →
        hostWrite s 64 0x0A0 v = .next { s with gen := { s.gen with addState := v } })
    ∧ (∀ (offset : Offset) (j : Inst),
        (offset, j) ∈ [((0x0C0 : Offset), Inst.mt32), (0x0C8, .mt64), (0x0D0, .add64), (0x0D8, .ext)] →
        (busRead s offset).extractLsb' 0 32 = (s.gen.cache j).half
        ∧ (busRead s offset).getLsbD 32 = (s.gen.cache j).toggle
        ∧ (∀ k, 33 ≤ k → (busRead s offset).getLsbD k = false)
        ∧ (s.engine = .idle → ∃ g, hostWrite s 64 offset v = .next { s with gen := g }
            ∧ g.cache j = { half := v.extractLsb' 0 32, toggle := v.getLsbD 32 }
            ∧ SameOutside j s.gen g
            ∧ g.mt32 = s.gen.mt32 ∧ g.mt64 = s.gen.mt64 ∧ g.addState = s.gen.addState))

/-- R159: what an idle host reads from CACHE_ADD64 and ADD_STATE of one block, or from
EXT_NATIVE_MAX and then CACHE_EXT, and writes into another idle block makes that instance there
equal to the first. -/
def Obligations.CloneByWindows : Prop :=
  ∀ s t : State, s.engine = .idle → t.engine = .idle →
    (∃ t' t'', hostWrite t 64 0x0A0 (busRead s 0x0A0) = .next t'
      ∧ hostWrite t' 64 0x0D0 (busRead s 0x0D0) = .next t''
      ∧ SameInstance .add64 s.gen t''.gen)
    ∧ (s.gen.extNativeMax ≠ 0 → ∃ t' t'', hostWrite t 64 0x038 (busRead s 0x038) = .next t'
      ∧ hostWrite t' 64 0x0D8 (busRead s 0x0D8) = .next t''
      ∧ SameInstance .ext s.gen t''.gen)

/-! ## Native draw, widening and narrowing -/

/-- R110 on MT32, MT64 and ADD64: NEXT completes with the native draw, and only the drawing
generator moves. MT: after a reload if the index is at the end, the tempered word at the index,
index + 1. ADD64: the whitened new state. -/
def Obligations.NextResult : Prop :=
  ∀ (s : State) (l : Latched), s.engine = .busy l →
    CompletesWith (.next .add64) s
        { s.gen with addState := 0x9E3779B97F4A7C15 + s.gen.addState }
        (whiten (0x9E3779B97F4A7C15 + s.gen.addState))
    ∧ (∀ k (h : k < 624), s.gen.mt32.idx = k → CompletesWith (.next .mt32) s
        { s.gen with mt32 := { words := s.gen.mt32.words, idx := k + 1 } }
        ((temper mt32Params s.gen.mt32.words[k]).setWidth 64))
    ∧ (624 ≤ s.gen.mt32.idx → CompletesWith (.next .mt32) s
        { s.gen with mt32 := { words := (reloadInPlace mt32Params s.gen.mt32).words, idx := 1 } }
        ((temper mt32Params (reloadInPlace mt32Params s.gen.mt32).words[0]).setWidth 64))
    ∧ (∀ k (h : k < 312), s.gen.mt64.idx = k → CompletesWith (.next .mt64) s
        { s.gen with mt64 := { words := s.gen.mt64.words, idx := k + 1 } }
        (temper mt64Params s.gen.mt64.words[k]))
    ∧ (312 ≤ s.gen.mt64.idx → CompletesWith (.next .mt64) s
        { s.gen with mt64 := { words := (reloadInPlace mt64Params s.gen.mt64).words, idx := 1 } }
        (temper mt64Params (reloadInPlace mt64Params s.gen.mt64).words[0]))

/-- R110, R102 on EXT: NEXT pops the head of the FIFO in one step, or holds on an empty one, and
completes with the popped word, whatever the maximum, in the next; the instances do not change. -/
def Obligations.NextOnExt : Prop :=
  ∀ (s : State) (l : Latched), s.engine = .busy l →
    (l.drawn = [] → TakesWord (.next .ext) s l)
    ∧ (∀ v rest, l.drawn = v :: rest → CompletesWith (.next .ext) s s.gen v)

/-- R103, R112: NEXT64 on MT32 gives two draws, the first one high; on MT64 and ADD64 the native
draw; CacheState is not touched (the instances differ from before in the generator alone). -/
def Obligations.Next64Result : Prop :=
  ∀ (s : State) (l : Latched), s.engine = .busy l →
    CompletesWith (.next64 .mt32) s
        { s.gen with mt32 := ((s.gen.mt32.draw mt32Params).2.draw mt32Params).2 }
        ((s.gen.mt32.draw mt32Params).1 ++ ((s.gen.mt32.draw mt32Params).2.draw mt32Params).1)
    ∧ CompletesWith (.next64 .mt64) s
        { s.gen with mt64 := (s.gen.mt64.draw mt64Params).2 } (s.gen.mt64.draw mt64Params).1
    ∧ CompletesWith (.next64 .add64) s
        { s.gen with addState := 0x9E3779B97F4A7C15 + s.gen.addState }
        (whiten (0x9E3779B97F4A7C15 + s.gen.addState))

/-- R103, R105, R112 on EXT, for the three kinds of native maximum. `accepted` are the popped words at
most shiftMax. The command stands at a draw while the words do not yet make 64 bits, and completes
on the word that does, with that assembly and nothing else changed. -/
def Obligations.Next64OnExt : Prop :=
  ∀ (s : State) (l : Latched), s.engine = .busy l → s.gen.extNativeMax ≠ 0 →
    let rc := rangeContext s.gen.extNativeMax
    let accepted := l.drawn.filter (fun v => decide (v ≤ rc.shiftMax))
    let chunks := (64 + rc.shiftBits - 1) / rc.shiftBits
    (s.gen.extNativeMax = 0xFFFFFFFFFFFFFFFF →
      (l.drawn = [] → TakesWord (.next64 .ext) s l)
      ∧ ∀ v, l.drawn = [v] → CompletesWith (.next64 .ext) s s.gen v)
    ∧ (s.gen.extNativeMax = 0xFFFFFFFF →
      (l.drawn.length < 2 → TakesWord (.next64 .ext) s l)
      ∧ ∀ hi lo, l.drawn = [hi, lo] →
          CompletesWith (.next64 .ext) s s.gen (hi.extractLsb' 0 32 ++ lo.extractLsb' 0 32))
    ∧ (s.gen.extNativeMax ≠ 0xFFFFFFFFFFFFFFFF → s.gen.extNativeMax ≠ 0xFFFFFFFF →
      (accepted.length < chunks → TakesWord (.next64 .ext) s l)
      ∧ (accepted.length = chunks → ∃ v, CompletesWith (.next64 .ext) s s.gen v
          ∧ v.toNat = (accepted.foldl (fun a c => a * 2 ^ rc.shiftBits + c.toNat) 0) % 2 ^ 64))

/-- R104, R111 on MT32: the low word of the native draw, CacheState untouched. On MT64 and ADD64: the
cached half, with TOGGLE cleared, HALF kept and no draw, if TOGGLE = 1; else the low half of one
Next64, its high half cached with TOGGLE set. -/
def Obligations.Next32Result : Prop :=
  ∀ (s : State) (l : Latched), s.engine = .busy l →
    CompletesWith (.next32 .mt32) s { s.gen with mt32 := (s.gen.mt32.draw mt32Params).2 }
        ((s.gen.mt32.draw mt32Params).1.setWidth 64)
    ∧ (s.gen.cacheMt64.toggle = true → CompletesWith (.next32 .mt64) s
        { s.gen with cacheMt64 := { half := s.gen.cacheMt64.half, toggle := false } }
        (s.gen.cacheMt64.half.setWidth 64))
    ∧ (s.gen.cacheMt64.toggle = false → CompletesWith (.next32 .mt64) s
        { s.gen with
          mt64 := (s.gen.mt64.draw mt64Params).2
          cacheMt64 := { half := (s.gen.mt64.draw mt64Params).1.extractLsb' 32 32, toggle := true } }
        ((s.gen.mt64.draw mt64Params).1 &&& 0xFFFFFFFF))
    ∧ (s.gen.cacheAdd64.toggle = true → CompletesWith (.next32 .add64) s
        { s.gen with cacheAdd64 := { half := s.gen.cacheAdd64.half, toggle := false } }
        (s.gen.cacheAdd64.half.setWidth 64))
    ∧ (s.gen.cacheAdd64.toggle = false → CompletesWith (.next32 .add64) s
        { s.gen with
          addState := 0x9E3779B97F4A7C15 + s.gen.addState
          cacheAdd64 :=
            { half := (whiten (0x9E3779B97F4A7C15 + s.gen.addState)).extractLsb' 32 32
              toggle := true } }
        (whiten (0x9E3779B97F4A7C15 + s.gen.addState) &&& 0xFFFFFFFF))

/-- R104, R111 on EXT: with nativeMax = 2^32 - 1 one draw, no cache; else the cached half if
TOGGLE = 1; else what NEXT64 would assemble, low half returned and high half cached, and it stands
at a draw exactly where NEXT64 does. -/
def Obligations.Next32OnExt : Prop :=
  ∀ (s : State) (l : Latched), s.engine = .busy l →
    (s.gen.extNativeMax = 0xFFFFFFFF →
      (l.drawn = [] → TakesWord (.next32 .ext) s l)
      ∧ ∀ v rest, l.drawn = v :: rest → CompletesWith (.next32 .ext) s s.gen (v &&& 0xFFFFFFFF))
    ∧ (s.gen.extNativeMax ≠ 0xFFFFFFFF → s.gen.cacheExt.toggle = true →
        CompletesWith (.next32 .ext) s
          { s.gen with cacheExt := { half := s.gen.cacheExt.half, toggle := false } }
          (s.gen.cacheExt.half.setWidth 64))
    ∧ (s.gen.extNativeMax ≠ 0xFFFFFFFF → s.gen.cacheExt.toggle = false →
        (TakesWord (.next64 .ext) s l ∧ TakesWord (.next32 .ext) s l)
        ∨ (∃ v, CompletesWith (.next64 .ext) s s.gen v
            ∧ CompletesWith (.next32 .ext) s
                { s.gen with cacheExt := { half := v.extractLsb' 32 32, toggle := true } }
                (v &&& 0xFFFFFFFF)))

/-- R103, R105: `ws` are exactly the words that NEXT64 on EXT pops under native maximum `m`, and `v`
is the number it makes of them: the one word; the low halves of two, the first high; or the words
at most shiftMax shifted together modulo 2^64, as many as make 64 bits, the last word being the one
that completes them. -/
def AssemblesTo (m : U64) (ws : List U64) (v : Nat) : Prop :=
  if m = 0xFFFFFFFFFFFFFFFF then ∃ w, ws = [w] ∧ v = w.toNat
  else if m = 0xFFFFFFFF then
    ∃ hi lo, ws = [hi, lo] ∧ v = hi.toNat % 2 ^ 32 * 2 ^ 32 + lo.toNat % 2 ^ 32
  else
    let rc := rangeContext m
    let accepted := ws.filter (fun w => decide (w ≤ rc.shiftMax))
    accepted.length = (64 + rc.shiftBits - 1) / rc.shiftBits
      ∧ (∃ init last, ws = init ++ [last] ∧ last ≤ rc.shiftMax)
      ∧ v = (accepted.foldl (fun a c => a * 2 ^ rc.shiftBits + c.toNat) 0) % 2 ^ 64

/-- R32, R100, R103, R105, R266: NEXT64 on EXT, for every native maximum, completes with the assembly
of the words it needs in RES, nothing else changed. Where they stand in the FIFO and the host does
nothing, it takes one step per draw plus one. Where the FIFO is empty and the host pushes each word
when the engine has taken the one before, it takes those steps and the pushes, however many words a
maximum needs. That the engine is next where nothing is scheduled is the model's choice
(notes/assumptions/1.md). -/
def Obligations.ExtAssemblyRuns : Prop :=
  ∀ (s : State) (l : Latched) (ws : List U64) (v : Nat), s.engine = .busy l →
    decode l.cmd = .ok (.next64 .ext) → l.drawn = [] → s.gen.extNativeMax ≠ 0 →
    AssemblesTo s.gen.extNativeMax ws v →
    (s.schedule = [] → s.extFifo = ws →
      RunsTo (ws.length + 1) s { s with
        extFifo := [], res := BitVec.ofNat 64 v, err := .ok, engine := .idle, waitExt := false })
    ∧ (∀ rest, s.extFifo = [] → (∀ w ∈ ws, w ≤ s.gen.extNativeMax) →
      s.schedule = ws.flatMap (fun w => [.write 64 0x050 w, .engine]) ++ .engine :: rest →
      RunsTo (2 * ws.length + 1) s { s with
        res := BitVec.ofNat 64 v, err := .ok, engine := .idle, waitExt := false, schedule := rest })

/-! ## Ranged integers -/

/-- R106, R113, R114: GETU32 and GETU32R with a legal range. `r` is the Next32 word the command draws
(R104, pinned by the NEXT32 statements). With w = max - min, plus 1 if inclusive, the result is
min + floor(r * w / 2^32), for the full width too. On the immediate instances the draw always
exists; where EXT still lacks a word the command stands at a draw. -/
def Obligations.UnsignedRanged32 : Prop :=
  ∀ (i : Inst) (incl : Bool) (s : State) (l : Latched), s.engine = .busy l →
    let a := l.opa.toNat % 2 ^ 32
    let b := l.opb.toNat % 2 ^ 32
    (incl = true ∨ a ≠ 0 →
      (∀ r src, next32 i (s.source l) = some (r, src) →
        ∃ v, CompletesWith (.getu32 i incl) s src.gen v
          ∧ v.toNat = r.toNat * (a + incl.toNat) / 2 ^ 32)
      ∧ (next32 i (s.source l) = none → TakesWord (.getu32 i incl) s l))
    ∧ (a < b ∨ (incl = true ∧ a = b) →
      (∀ r src, next32 i (s.source l) = some (r, src) →
        ∃ v, CompletesWith (.getu32r i incl) s src.gen v
          ∧ v.toNat = a + r.toNat * (b - a + incl.toNat) / 2 ^ 32)
      ∧ (next32 i (s.source l) = none → TakesWord (.getu32r i incl) s l))
    ∧ (i ≠ .ext → ∃ r src, next32 i (s.source l) = some (r, src))

/-- R106, R115, R116: GETI32 and GETI32R with a legal range: the operands are two's complement, and
the result, sign-extended, is min + floor(r * w / 2^32) exactly. -/
def Obligations.SignedRanged32 : Prop :=
  ∀ (i : Inst) (incl : Bool) (s : State) (l : Latched), s.engine = .busy l →
    let a := (l.opa.extractLsb' 0 32).toInt
    let b := (l.opb.extractLsb' 0 32).toInt
    (0 < a ∨ (incl = true ∧ a = 0) →
      (∀ r src, next32 i (s.source l) = some (r, src) →
        ∃ v, CompletesWith (.geti32 i incl) s src.gen v
          ∧ v.toInt = (r.toNat : Int) * (a + incl.toNat) / 2 ^ 32)
      ∧ (next32 i (s.source l) = none → TakesWord (.geti32 i incl) s l))
    ∧ (a < b ∨ (incl = true ∧ a = b) →
      (∀ r src, next32 i (s.source l) = some (r, src) →
        ∃ v, CompletesWith (.geti32r i incl) s src.gen v
          ∧ v.toInt = a + (r.toNat : Int) * (b - a + incl.toNat) / 2 ^ 32)
      ∧ (next32 i (s.source l) = none → TakesWord (.geti32r i incl) s l))
    ∧ (i ≠ .ext → ∃ r src, next32 i (s.source l) = some (r, src))

/-- The value MapU64 maps a draw to (R107), on numbers: for a width operand m above 2^32 - 1, the
three cross products of the halves, or the raw draw for the inclusive full width. -/
def mapped64 (r m : Nat) (incl : Bool) : Nat :=
  if incl = true ∧ m = 2 ^ 64 - 1 then r
  else
    let w := m + incl.toNat
    (r % 2 ^ 32) * (w / 2 ^ 32) / 2 ^ 32 + (r / 2 ^ 32) * (w % 2 ^ 32) / 2 ^ 32
      + (r / 2 ^ 32) * (w / 2 ^ 32)

/-- How a 64-bit ranged command `c` with minimum `lo` and width operand `m` goes on (R107): by one
Next32 if m fits in 32 bits, else by one Next64. -/
def Maps64 (c : Instr) (s : State) (l : Latched) (lo : Int) (m : Nat) (incl : Bool) : Prop :=
  (m < 2 ^ 32 →
    (∀ r src, next32 c.inst (s.source l) = some (r, src) →
      ∃ v, CompletesWith c s src.gen v
        ∧ (v.toNat : Int) = (lo + r.toNat * (m + incl.toNat) / 2 ^ 32) % 2 ^ 64)
    ∧ (next32 c.inst (s.source l) = none → TakesWord c s l))
  ∧ (2 ^ 32 ≤ m →
    (∀ r src, next64 c.inst (s.source l) = some (r, src) →
      ∃ v, CompletesWith c s src.gen v
        ∧ (v.toNat : Int) = (lo + mapped64 r.toNat m incl) % 2 ^ 64)
    ∧ (next64 c.inst (s.source l) = none → TakesWord c s l))

/-- R107, R117, R118: GETU64 and GETU64R with a legal range. -/
def Obligations.UnsignedRanged64 : Prop :=
  ∀ (i : Inst) (incl : Bool) (s : State) (l : Latched), s.engine = .busy l →
    let a := l.opa.toNat
    let b := l.opb.toNat
    (incl = true ∨ a ≠ 0 → Maps64 (.getu64 i incl) s l 0 a incl)
    ∧ (a < b ∨ (incl = true ∧ a = b) → Maps64 (.getu64r i incl) s l a (b - a) incl)
    ∧ (i ≠ .ext → (∃ r src, next32 i (s.source l) = some (r, src))
        ∧ ∃ r src, next64 i (s.source l) = some (r, src))

/-- R107, R119, R120: GETI64 and GETI64R with a legal range: the operands are two's complement and
the width is their difference. -/
def Obligations.SignedRanged64 : Prop :=
  ∀ (i : Inst) (incl : Bool) (s : State) (l : Latched), s.engine = .busy l →
    let a := l.opa.toInt
    let b := l.opb.toInt
    (0 < a ∨ (incl = true ∧ a = 0) → Maps64 (.geti64 i incl) s l 0 a.toNat incl)
    ∧ (a < b ∨ (incl = true ∧ a = b) → Maps64 (.geti64r i incl) s l a (b - a).toNat incl)
    ∧ (i ≠ .ext → (∃ r src, next32 i (s.source l) = some (r, src))
        ∧ ∃ r src, next64 i (s.source l) = some (r, src))

/-- R113 to R120, R222, C7: the eight ranged commands raise InvalidRange exactly on a maximum below
the minimum, or a width of zero with the bound exclusive, on every instance. -/
def Obligations.InvalidRangeRaised : Prop :=
  ∀ (i : Inst) (incl : Bool) (s : State) (l : Latched), s.engine = .busy l →
    let ua := l.opa.toNat % 2 ^ 32
    let ub := l.opb.toNat % 2 ^ 32
    let sa := (l.opa.extractLsb' 0 32).toInt
    let sb := (l.opb.extractLsb' 0 32).toInt
    (FailsWith (.getu32 i incl) s .invalidRange ↔ incl = false ∧ ua = 0)
    ∧ (FailsWith (.getu32r i incl) s .invalidRange ↔ ub < ua ∨ (incl = false ∧ ub = ua))
    ∧ (FailsWith (.geti32 i incl) s .invalidRange ↔ sa < 0 ∨ (incl = false ∧ sa = 0))
    ∧ (FailsWith (.geti32r i incl) s .invalidRange ↔ sb < sa ∨ (incl = false ∧ sb = sa))
    ∧ (FailsWith (.getu64 i incl) s .invalidRange ↔ incl = false ∧ l.opa.toNat = 0)
    ∧ (FailsWith (.getu64r i incl) s .invalidRange ↔
        l.opb.toNat < l.opa.toNat ∨ (incl = false ∧ l.opb.toNat = l.opa.toNat))
    ∧ (FailsWith (.geti64 i incl) s .invalidRange ↔
        l.opa.toInt < 0 ∨ (incl = false ∧ l.opa.toInt = 0))
    ∧ (FailsWith (.geti64r i incl) s .invalidRange ↔
        l.opb.toInt < l.opa.toInt ∨ (incl = false ∧ l.opb.toInt = l.opa.toInt))

/-- R106, R107, V6: whatever the draws, a ranged command that completes without an error has put a
value in RES that lies in [min, max], below max if the bound is exclusive. -/
def Obligations.RangedResultsInBounds : Prop :=
  ∀ (i : Inst) (incl : Bool) (s : State) (l : Latched) (g : Generators) (v : U64),
    s.engine = .busy l →
    (CompletesWith (.getu32 i incl) s g v →
      v.toNat < l.opa.toNat % 2 ^ 32 + incl.toNat)
    ∧ (CompletesWith (.getu32r i incl) s g v →
      l.opa.toNat % 2 ^ 32 ≤ v.toNat ∧ v.toNat < l.opb.toNat % 2 ^ 32 + incl.toNat)
    ∧ (CompletesWith (.geti32 i incl) s g v →
      0 ≤ v.toInt ∧ v.toInt < (l.opa.extractLsb' 0 32).toInt + incl.toNat)
    ∧ (CompletesWith (.geti32r i incl) s g v →
      (l.opa.extractLsb' 0 32).toInt ≤ v.toInt
        ∧ v.toInt < (l.opb.extractLsb' 0 32).toInt + incl.toNat)
    ∧ (CompletesWith (.getu64 i incl) s g v → v.toNat < l.opa.toNat + incl.toNat)
    ∧ (CompletesWith (.getu64r i incl) s g v →
      l.opa.toNat ≤ v.toNat ∧ v.toNat < l.opb.toNat + incl.toNat)
    ∧ (CompletesWith (.geti64 i incl) s g v →
      0 ≤ v.toInt ∧ v.toInt < l.opa.toInt + incl.toNat)
    ∧ (CompletesWith (.geti64r i incl) s g v →
      l.opa.toInt ≤ v.toInt ∧ v.toInt < l.opb.toInt + incl.toNat)

/-- R107 case (a): the three-product sum is at most the exact floor(r * w / 2^64), and at most 2
below it. -/
def Obligations.CrossSumNearFloor : Prop :=
  ∀ r w : U64,
    (crossSum r w).toNat ≤ r.toNat * w.toNat / 2 ^ 64
    ∧ r.toNat * w.toNat / 2 ^ 64 ≤ (crossSum r w).toNat + 2

/-! ## Seeding, discard and NOP -/

/-- R150: NOP, on every INST, completes with ERR = OK and changes nothing else. -/
def Obligations.NopResult : Prop :=
  ∀ (i : Inst) (s : State) (l : Latched), s.engine = .busy l →
    CompletesSilently (.nop i) s s.gen

/-- R151, R152: SEED_DEFAULT restores the instance's default state and zeroes its CacheState; on EXT
only the latter; KEY, the FIFO, RES and every other instance stay. -/
def Obligations.SeedDefaultResult : Prop :=
  ∀ (s : State) (l : Latched), s.engine = .busy l →
    CompletesSilently (.seedDefault .mt32) s { s.gen with
        mt32 := seedKeyInPlace mt32Params [0x123, 0x234, 0x345, 0x456]
        cacheMt32 := { half := 0, toggle := false } }
    ∧ CompletesSilently (.seedDefault .mt64) s { s.gen with
        mt64 := seedKeyInPlace mt64Params [0x12345, 0x23456, 0x34567, 0x45678]
        cacheMt64 := { half := 0, toggle := false } }
    ∧ CompletesSilently (.seedDefault .add64) s { s.gen with
        addState := 0x0123456789ABCDEF
        cacheAdd64 := { half := 0, toggle := false } }
    ∧ CompletesSilently (.seedDefault .ext) s { s.gen with
        cacheExt := { half := 0, toggle := false } }

/-- R151, R153: SEED_SCALAR seeds MT32 from the low 32 bits of the operand, MT64 and ADD64 from all
of it, and zeroes the instance's CacheState; EXT raises UnsupportedOperation. -/
def Obligations.SeedScalarResult : Prop :=
  ∀ (s : State) (l : Latched), s.engine = .busy l →
    CompletesSilently (.seedScalar .mt32) s { s.gen with
        mt32 := seedScalarInPlace mt32Params (l.opa.extractLsb' 0 32)
        cacheMt32 := { half := 0, toggle := false } }
    ∧ CompletesSilently (.seedScalar .mt64) s { s.gen with
        mt64 := seedScalarInPlace mt64Params l.opa
        cacheMt64 := { half := 0, toggle := false } }
    ∧ CompletesSilently (.seedScalar .add64) s { s.gen with
        addState := l.opa
        cacheAdd64 := { half := 0, toggle := false } }
    ∧ FailsWith (.seedScalar .ext) s .unsupportedOperation

/-- R151, R154, R155, R221: SEED_KEY on EXT raises UnsupportedOperation whatever L is; on the others
L > 624 raises BufferBounds, L = 0 is SEED_DEFAULT, and L in 1..624 seeds from KEY[0..L-1] (the low
halves for MT32, KEY[0] alone for ADD64) and zeroes the instance's CacheState. -/
def Obligations.SeedKeyResult : Prop :=
  ∀ (s : State) (l : Latched), s.engine = .busy l →
    FailsWith (.seedKey .ext) s .unsupportedOperation
    ∧ (624 < l.opa.toNat → ∀ i, i ≠ .ext → FailsWith (.seedKey i) s .bufferBounds)
    ∧ (l.opa = 0 → ∀ i, i ≠ .ext → exec (.seedKey i) s = exec (.seedDefault i) s)
    ∧ (1 ≤ l.opa.toNat → l.opa.toNat ≤ 624 →
        CompletesSilently (.seedKey .mt32) s { s.gen with
          mt32 := seedKeyInPlace mt32Params
            ((s.key.toList.take l.opa.toNat).map fun k => k.extractLsb' 0 32)
          cacheMt32 := { half := 0, toggle := false } }
        ∧ CompletesSilently (.seedKey .mt64) s { s.gen with
          mt64 := seedKeyInPlace mt64Params (s.key.toList.take l.opa.toNat)
          cacheMt64 := { half := 0, toggle := false } }
        ∧ CompletesSilently (.seedKey .add64) s { s.gen with
          addState := s.key[0]
          cacheAdd64 := { half := 0, toggle := false } })

/-- R156, R204: DISCARD on ADD64 adds n times the increment in closed form; on EXT it pops n words,
one at a time, and holds where there is none; CacheState and RES stay. -/
def Obligations.DiscardResult : Prop :=
  ∀ (s : State) (l : Latched), s.engine = .busy l →
    CompletesSilently (.discard .add64) s
        { s.gen with addState := s.gen.addState + l.opa * 0x9E3779B97F4A7C15 }
    ∧ (l.drawn.length < l.opa.toNat → TakesWord (.discard .ext) s l)
    ∧ (l.opa.toNat ≤ l.drawn.length → CompletesSilently (.discard .ext) s s.gen)

/-- R156, R188: DISCARD on MT32 and MT64 leaves the read index the closed form of R188 gives, and the
array reloaded as many times as it says; CacheState and RES stay. -/
def Obligations.MtDiscardClosedForm : Prop :=
  ∀ (s : State) (l : Latched), s.engine = .busy l →
    (s.gen.mt32.idx ≤ 624 →
      let n := l.opa.toNat
      let a := 624 - s.gen.mt32.idx
      let reloads := (n - a + 623) / 624
      ∃ mt, CompletesSilently (.discard .mt32) s { s.gen with mt32 := mt }
        ∧ mt.words = ((Mt.reload mt32Params)^[reloads] s.gen.mt32).words
        ∧ (n ≤ a → mt.idx = s.gen.mt32.idx + n)
        ∧ (a < n → mt.idx = n - a - (reloads - 1) * 624))
    ∧ (s.gen.mt64.idx ≤ 312 →
      let n := l.opa.toNat
      let a := 312 - s.gen.mt64.idx
      let reloads := (n - a + 311) / 312
      ∃ mt, CompletesSilently (.discard .mt64) s { s.gen with mt64 := mt }
        ∧ mt.words = ((Mt.reload mt64Params)^[reloads] s.gen.mt64).words
        ∧ (n ≤ a → mt.idx = s.gen.mt64.idx + n)
        ∧ (a < n → mt.idx = n - a - (reloads - 1) * 312))

/-- The block after `n` NEXT commands on instance `i`, each accepted by the engine and executed in
one step. -/
def afterNexts (i : Inst) : Nat → State → Option State
  | 0, s => some s
  | n + 1, s =>
    match exec (.next i) { s with engine := .busy { cmd := encode (.next i), opa := 0, opb := 0,
                                                    drawn := [] } } with
    | .next t => afterNexts i n t
    | .fault _ => none
    | .refused _ => none

/-- R157: after DISCARD with operand n the instances equal those after n NEXT commands from the same
start. EXT, which has no AlgorithmState and draws from the FIFO, is in DiscardResult and NextOnExt. -/
def Obligations.DiscardLaw : Prop :=
  ∀ (i : Inst) (s : State) (l : Latched), s.engine = .busy l → i ≠ .ext →
    ∃ t t', exec (.discard i) s = .next t ∧ afterNexts i l.opa.toNat s = some t'
      ∧ t.gen = t'.gen ∧ t.res = s.res

/-- R182, R183: scalar seeding: word 0 is the scalar, word k is F * (word (k-1) ^ (word (k-1) >> S))
+ k, and the read index is N. -/
def Obligations.ScalarRecurrence : Prop :=
  (∀ x : U32, ((mtSeedScalar mt32Params x : Mt 32 624).words[0] = x
    ∧ (∀ k (h : k + 1 < 624), (mtSeedScalar mt32Params x : Mt 32 624).words[k + 1] =
        1812433253 * ((mtSeedScalar mt32Params x : Mt 32 624).words[k]
          ^^^ ((mtSeedScalar mt32Params x : Mt 32 624).words[k] >>> 30)) + BitVec.ofNat 32 (k + 1))
    ∧ (mtSeedScalar mt32Params x : Mt 32 624).idx = 624))
  ∧ (∀ x : U64, ((mtSeedScalar mt64Params x : Mt 64 312).words[0] = x
    ∧ (∀ k (h : k + 1 < 312), (mtSeedScalar mt64Params x : Mt 64 312).words[k + 1] =
        6364136223846793005 * ((mtSeedScalar mt64Params x : Mt 64 312).words[k]
          ^^^ ((mtSeedScalar mt64Params x : Mt 64 312).words[k] >>> 62)) + BitVec.ofNat 64 (k + 1))
    ∧ (mtSeedScalar mt64Params x : Mt 64 312).idx = 312))

/-- R184, R185: key seeding, run as the model runs it, equals the rule's in-place pseudocode for every
key of at least one word. -/
def Obligations.KeySeedMeetsPseudocode : Prop :=
  (∀ key : List U32, key ≠ [] →
    (mtSeedKey mt32Params key : Mt 32 624) = seedKeyInPlace mt32Params key)
  ∧ (∀ key : List U64, key ≠ [] →
    (mtSeedKey mt64Params key : Mt 64 312) = seedKeyInPlace mt64Params key)

/-- R185, R189: after key seeding the first word is exactly 2^(W-1), so that no seed command of a key
leaves the degenerate state. -/
def Obligations.KeySeedForcesTopBit : Prop :=
  (∀ key : List U32, (mtSeedKey mt32Params key : Mt 32 624).words[0] = 0x80000000
    ∧ (mtSeedKey mt32Params key : Mt 32 624).idx = 624)
  ∧ (∀ key : List U64, (mtSeedKey mt64Params key : Mt 64 312).words[0] = 0x8000000000000000
    ∧ (mtSeedKey mt64Params key : Mt 64 312).idx = 312)

/-! ## The generators and the test hooks -/

/-- R173, R174: the reload, run as the model runs it, equals the rule's ascending in-place pseudocode,
from every array. -/
def Obligations.ReloadMeetsPseudocode : Prop :=
  (∀ g : Mt 32 624, g.reload mt32Params = reloadInPlace mt32Params g)
  ∧ (∀ g : Mt 64 312, g.reload mt64Params = reloadInPlace mt64Params g)

/-- R175, R264: the reload is lazy: n draws or discard steps that do not pass the end leave every word
of the array, and the index n further, up to N itself. -/
def Obligations.DrawsKeepArrayUntilExhausted : Prop :=
  (∀ (g : Mt 32 624) (n : Nat), g.idx + n ≤ 624 →
    ((fun g : Mt 32 624 => (g.draw mt32Params).2)^[n] g) = { g with idx := g.idx + n })
  ∧ (∀ (g : Mt 64 312) (n : Nat), g.idx + n ≤ 312 →
    ((fun g : Mt 64 312 => (g.draw mt64Params).2)^[n] g) = { g with idx := g.idx + n })

/-- R189: from a degenerate array (word 0 without upper bits, every other word 0) every reload yields
all zeros, and every draw after that of word 0 returns 0 for ever. A draw at index 0 is of word 0
itself, whose lower bits may be set. -/
def Obligations.DegenerateArrayDrawsZero : Prop :=
  (∀ g : Mt 32 624, g.words[0] &&& 0x80000000 = 0 → (∀ k (h : k < 624), k ≠ 0 → g.words[k] = 0) →
    (g.reload mt32Params).words = Vector.replicate 624 0
    ∧ (∀ n, 1 ≤ g.idx ∨ 1 ≤ n →
        (((fun g : Mt 32 624 => (g.draw mt32Params).2)^[n] g).draw mt32Params).1 = 0)
    ∧ (g.idx = 0 → (g.draw mt32Params).1 = temper mt32Params g.words[0]))
  ∧ (∀ g : Mt 64 312, g.words[0] &&& 0xFFFFFFFF80000000 = 0 →
    (∀ k (h : k < 312), k ≠ 0 → g.words[k] = 0) →
    (g.reload mt64Params).words = Vector.replicate 312 0
    ∧ (∀ n, 1 ≤ g.idx ∨ 1 ≤ n →
        (((fun g : Mt 64 312 => (g.draw mt64Params).2)^[n] g).draw mt64Params).1 = 0)
    ∧ (g.idx = 0 → (g.draw mt64Params).1 = temper mt64Params g.words[0]))

/-- R178: Temper32 and Temper64 are bijections. -/
def Obligations.TemperingIsBijective : Prop :=
  Function.Bijective (temper mt32Params) ∧ Function.Bijective (temper mt64Params)

/-- R176, R177, R190, R202, R206: TEMPER runs the four tempering steps on the operand's low 32 bits for
MT32, on all of it for MT64; WHITEN on ADD64 runs the whitening on the operand; neither touches an
instance; on the other instances they raise UnsupportedOperation. -/
def Obligations.TestHookResults : Prop :=
  ∀ (s : State) (l : Latched), s.engine = .busy l →
    (∀ y1 y2 y3 y4 : U32,
      y1 = l.opa.extractLsb' 0 32 ^^^ ((l.opa.extractLsb' 0 32 >>> 11) &&& 0xFFFFFFFF) →
      y2 = y1 ^^^ ((y1 <<< 7) &&& 0x9D2C5680) → y3 = y2 ^^^ ((y2 <<< 15) &&& 0xEFC60000) →
      y4 = y3 ^^^ (y3 >>> 18) → CompletesWith (.temper .mt32) s s.gen (y4.setWidth 64))
    ∧ (∀ x1 x2 x3 x4 : U64,
      x1 = l.opa ^^^ ((l.opa >>> 29) &&& 0x5555555555555555) →
      x2 = x1 ^^^ ((x1 <<< 17) &&& 0x71D67FFFEDA60000) →
      x3 = x2 ^^^ ((x2 <<< 37) &&& 0xFFF7EEE000000000) →
      x4 = x3 ^^^ (x3 >>> 43) → CompletesWith (.temper .mt64) s s.gen x4)
    ∧ FailsWith (.temper .add64) s .unsupportedOperation
    ∧ FailsWith (.temper .ext) s .unsupportedOperation
    ∧ (∀ z1 z2 : U64,
      z1 = (l.opa ^^^ (l.opa >>> 30)) * 0xBF58476D1CE4E5B9 →
      z2 = (z1 ^^^ (z1 >>> 27)) * 0x94D049BB133111EB →
      CompletesWith (.whiten .add64) s s.gen (z2 ^^^ (z2 >>> 31)))
    ∧ FailsWith (.whiten .mt32) s .unsupportedOperation
    ∧ FailsWith (.whiten .mt64) s .unsupportedOperation
    ∧ FailsWith (.whiten .ext) s .unsupportedOperation

/-- R204, R207: AddDiscard(n) is n advances; Whiten is a bijection, and the state sequence of ADD64
returns to its start first after 2^64 advances: over one period every u64 is output exactly once. -/
def Obligations.AdditiveGeneratorPeriod : Prop :=
  (∀ n s : U64, addDiscard n s = (addAdvance^[n.toNat]) s)
  ∧ Function.Bijective whiten
  ∧ (∀ (s : U64) (n : Nat), (addAdvance^[n]) s = s ↔ 2 ^ 64 ∣ n)
  ∧ (∀ s v : U64, ∃! n : Fin (2 ^ 64), whiten (addAdvance^[n.val + 1] s) = v)
end

