-- ==== Sys2Proof/Laws/State.lean ====
section
/-! SUPPORT. One lemma per field per update of State, each true by unfolding the update. -/

namespace Sys2Proof.Machine

@[simp] theorem State.complete_gen (s : State) (r : Option U64) (g : Generators) :
    (s.complete r g).gen = g := rfl
@[simp] theorem State.complete_extFifo (s : State) (r : Option U64) (g : Generators) :
    (s.complete r g).extFifo = s.extFifo := rfl
@[simp] theorem State.complete_key (s : State) (r : Option U64) (g : Generators) :
    (s.complete r g).key = s.key := rfl
@[simp] theorem State.complete_keyAddr (s : State) (r : Option U64) (g : Generators) :
    (s.complete r g).keyAddr = s.keyAddr := rfl
@[simp] theorem State.complete_mt32Addr (s : State) (r : Option U64) (g : Generators) :
    (s.complete r g).mt32Addr = s.mt32Addr := rfl
@[simp] theorem State.complete_mt64Addr (s : State) (r : Option U64) (g : Generators) :
    (s.complete r g).mt64Addr = s.mt64Addr := rfl
@[simp] theorem State.complete_opa (s : State) (r : Option U64) (g : Generators) :
    (s.complete r g).opa = s.opa := rfl
@[simp] theorem State.complete_opb (s : State) (r : Option U64) (g : Generators) :
    (s.complete r g).opb = s.opb := rfl
@[simp] theorem State.complete_res (s : State) (r : Option U64) (g : Generators) :
    (s.complete r g).res = r.getD s.res := rfl
@[simp] theorem State.complete_err (s : State) (r : Option U64) (g : Generators) :
    (s.complete r g).err = .ok := rfl
@[simp] theorem State.complete_waitExt (s : State) (r : Option U64) (g : Generators) :
    (s.complete r g).waitExt = false := rfl
@[simp] theorem State.complete_cmdDropped (s : State) (r : Option U64) (g : Generators) :
    (s.complete r g).cmdDropped = s.cmdDropped := rfl
@[simp] theorem State.complete_pushDropped (s : State) (r : Option U64) (g : Generators) :
    (s.complete r g).pushDropped = s.pushDropped := rfl
@[simp] theorem State.complete_engine (s : State) (r : Option U64) (g : Generators) :
    (s.complete r g).engine = .idle := rfl
@[simp] theorem State.complete_schedule (s : State) (r : Option U64) (g : Generators) :
    (s.complete r g).schedule = s.schedule := rfl
@[simp] theorem State.complete_readLog (s : State) (r : Option U64) (g : Generators) :
    (s.complete r g).readLog = s.readLog := rfl
@[simp] theorem State.complete_freeCount (s : State) (r : Option U64) (g : Generators) :
    (s.complete r g).freeCount = s.freeCount := rfl

@[simp] theorem State.raise_gen (s : State) (e : Completion) :
    (s.raise e).gen = s.gen := rfl
@[simp] theorem State.raise_extFifo (s : State) (e : Completion) :
    (s.raise e).extFifo = s.extFifo := rfl
@[simp] theorem State.raise_key (s : State) (e : Completion) :
    (s.raise e).key = s.key := rfl
@[simp] theorem State.raise_keyAddr (s : State) (e : Completion) :
    (s.raise e).keyAddr = s.keyAddr := rfl
@[simp] theorem State.raise_mt32Addr (s : State) (e : Completion) :
    (s.raise e).mt32Addr = s.mt32Addr := rfl
@[simp] theorem State.raise_mt64Addr (s : State) (e : Completion) :
    (s.raise e).mt64Addr = s.mt64Addr := rfl
@[simp] theorem State.raise_opa (s : State) (e : Completion) :
    (s.raise e).opa = s.opa := rfl
@[simp] theorem State.raise_opb (s : State) (e : Completion) :
    (s.raise e).opb = s.opb := rfl
@[simp] theorem State.raise_res (s : State) (e : Completion) :
    (s.raise e).res = s.res := rfl
@[simp] theorem State.raise_err (s : State) (e : Completion) :
    (s.raise e).err = e := rfl
@[simp] theorem State.raise_waitExt (s : State) (e : Completion) :
    (s.raise e).waitExt = false := rfl
@[simp] theorem State.raise_cmdDropped (s : State) (e : Completion) :
    (s.raise e).cmdDropped = s.cmdDropped := rfl
@[simp] theorem State.raise_pushDropped (s : State) (e : Completion) :
    (s.raise e).pushDropped = s.pushDropped := rfl
@[simp] theorem State.raise_engine (s : State) (e : Completion) :
    (s.raise e).engine = .idle := rfl
@[simp] theorem State.raise_schedule (s : State) (e : Completion) :
    (s.raise e).schedule = s.schedule := rfl
@[simp] theorem State.raise_readLog (s : State) (e : Completion) :
    (s.raise e).readLog = s.readLog := rfl
@[simp] theorem State.raise_freeCount (s : State) (e : Completion) :
    (s.raise e).freeCount = s.freeCount := rfl

@[simp] theorem State.writeStatus_gen (s : State) (v : U64) :
    (s.writeStatus v).gen = s.gen := rfl
@[simp] theorem State.writeStatus_extFifo (s : State) (v : U64) :
    (s.writeStatus v).extFifo = s.extFifo := rfl
@[simp] theorem State.writeStatus_key (s : State) (v : U64) :
    (s.writeStatus v).key = s.key := rfl
@[simp] theorem State.writeStatus_keyAddr (s : State) (v : U64) :
    (s.writeStatus v).keyAddr = s.keyAddr := rfl
@[simp] theorem State.writeStatus_mt32Addr (s : State) (v : U64) :
    (s.writeStatus v).mt32Addr = s.mt32Addr := rfl
@[simp] theorem State.writeStatus_mt64Addr (s : State) (v : U64) :
    (s.writeStatus v).mt64Addr = s.mt64Addr := rfl
@[simp] theorem State.writeStatus_opa (s : State) (v : U64) :
    (s.writeStatus v).opa = s.opa := rfl
@[simp] theorem State.writeStatus_opb (s : State) (v : U64) :
    (s.writeStatus v).opb = s.opb := rfl
@[simp] theorem State.writeStatus_res (s : State) (v : U64) :
    (s.writeStatus v).res = s.res := rfl
@[simp] theorem State.writeStatus_err (s : State) (v : U64) :
    (s.writeStatus v).err = s.err := rfl
@[simp] theorem State.writeStatus_waitExt (s : State) (v : U64) :
    (s.writeStatus v).waitExt = s.waitExt := rfl
@[simp] theorem State.writeStatus_cmdDropped (s : State) (v : U64) :
    (s.writeStatus v).cmdDropped = (s.cmdDropped && !v.getLsbD 8) := rfl
@[simp] theorem State.writeStatus_pushDropped (s : State) (v : U64) :
    (s.writeStatus v).pushDropped = (s.pushDropped && !v.getLsbD 9) := rfl
@[simp] theorem State.writeStatus_engine (s : State) (v : U64) :
    (s.writeStatus v).engine = s.engine := rfl
@[simp] theorem State.writeStatus_schedule (s : State) (v : U64) :
    (s.writeStatus v).schedule = s.schedule := rfl
@[simp] theorem State.writeStatus_readLog (s : State) (v : U64) :
    (s.writeStatus v).readLog = s.readLog := rfl
@[simp] theorem State.writeStatus_freeCount (s : State) (v : U64) :
    (s.writeStatus v).freeCount = s.freeCount := rfl

@[simp] theorem State.resetBlock_gen (s : State) :
    (s.resetBlock).gen = State.reset.gen := rfl
@[simp] theorem State.resetBlock_extFifo (s : State) :
    (s.resetBlock).extFifo = State.reset.extFifo := rfl
@[simp] theorem State.resetBlock_key (s : State) :
    (s.resetBlock).key = State.reset.key := rfl
@[simp] theorem State.resetBlock_keyAddr (s : State) :
    (s.resetBlock).keyAddr = State.reset.keyAddr := rfl
@[simp] theorem State.resetBlock_mt32Addr (s : State) :
    (s.resetBlock).mt32Addr = State.reset.mt32Addr := rfl
@[simp] theorem State.resetBlock_mt64Addr (s : State) :
    (s.resetBlock).mt64Addr = State.reset.mt64Addr := rfl
@[simp] theorem State.resetBlock_opa (s : State) :
    (s.resetBlock).opa = State.reset.opa := rfl
@[simp] theorem State.resetBlock_opb (s : State) :
    (s.resetBlock).opb = State.reset.opb := rfl
@[simp] theorem State.resetBlock_res (s : State) :
    (s.resetBlock).res = State.reset.res := rfl
@[simp] theorem State.resetBlock_err (s : State) :
    (s.resetBlock).err = State.reset.err := rfl
@[simp] theorem State.resetBlock_waitExt (s : State) :
    (s.resetBlock).waitExt = State.reset.waitExt := rfl
@[simp] theorem State.resetBlock_cmdDropped (s : State) :
    (s.resetBlock).cmdDropped = State.reset.cmdDropped := rfl
@[simp] theorem State.resetBlock_pushDropped (s : State) :
    (s.resetBlock).pushDropped = State.reset.pushDropped := rfl
@[simp] theorem State.resetBlock_engine (s : State) :
    (s.resetBlock).engine = State.reset.engine := rfl
@[simp] theorem State.resetBlock_schedule (s : State) :
    (s.resetBlock).schedule = s.schedule := by simp only [State.resetBlock]
@[simp] theorem State.resetBlock_readLog (s : State) :
    (s.resetBlock).readLog = s.readLog := by simp only [State.resetBlock]
@[simp] theorem State.resetBlock_freeCount (s : State) :
    (s.resetBlock).freeCount = s.freeCount := by simp only [State.resetBlock]

@[simp] theorem State.withCommand_gen (s : State) (c : U64) :
    (s.withCommand c).gen = s.gen := rfl
@[simp] theorem State.withCommand_extFifo (s : State) (c : U64) :
    (s.withCommand c).extFifo = s.extFifo := rfl
@[simp] theorem State.withCommand_key (s : State) (c : U64) :
    (s.withCommand c).key = s.key := rfl
@[simp] theorem State.withCommand_keyAddr (s : State) (c : U64) :
    (s.withCommand c).keyAddr = s.keyAddr := rfl
@[simp] theorem State.withCommand_mt32Addr (s : State) (c : U64) :
    (s.withCommand c).mt32Addr = s.mt32Addr := rfl
@[simp] theorem State.withCommand_mt64Addr (s : State) (c : U64) :
    (s.withCommand c).mt64Addr = s.mt64Addr := rfl
@[simp] theorem State.withCommand_opa (s : State) (c : U64) :
    (s.withCommand c).opa = s.opa := rfl
@[simp] theorem State.withCommand_opb (s : State) (c : U64) :
    (s.withCommand c).opb = s.opb := rfl
@[simp] theorem State.withCommand_res (s : State) (c : U64) :
    (s.withCommand c).res = s.res := rfl
@[simp] theorem State.withCommand_err (s : State) (c : U64) :
    (s.withCommand c).err = s.err := rfl
@[simp] theorem State.withCommand_waitExt (s : State) (c : U64) :
    (s.withCommand c).waitExt = s.waitExt := rfl
@[simp] theorem State.withCommand_cmdDropped (s : State) (c : U64) :
    (s.withCommand c).cmdDropped = s.cmdDropped := rfl
@[simp] theorem State.withCommand_pushDropped (s : State) (c : U64) :
    (s.withCommand c).pushDropped = s.pushDropped := rfl
@[simp] theorem State.withCommand_engine (s : State) (c : U64) :
    (s.withCommand c).engine = .busy { cmd := c, opa := s.opa, opb := s.opb, drawn := [] } := rfl
@[simp] theorem State.withCommand_schedule (s : State) (c : U64) :
    (s.withCommand c).schedule = .engine :: s.schedule := rfl
@[simp] theorem State.withCommand_readLog (s : State) (c : U64) :
    (s.withCommand c).readLog = s.readLog := rfl
@[simp] theorem State.withCommand_freeCount (s : State) (c : U64) :
    (s.withCommand c).freeCount = s.freeCount := rfl

@[simp] theorem Generators.setCache_mt32 (g : Generators) (i : Inst) (c : Cache) :
    (g.setCache i c).mt32 = g.mt32 := by cases i <;> rfl
@[simp] theorem Generators.setCache_mt64 (g : Generators) (i : Inst) (c : Cache) :
    (g.setCache i c).mt64 = g.mt64 := by cases i <;> rfl
@[simp] theorem Generators.setCache_addState (g : Generators) (i : Inst) (c : Cache) :
    (g.setCache i c).addState = g.addState := by cases i <;> rfl
@[simp] theorem Generators.setCache_extNativeMax (g : Generators) (i : Inst) (c : Cache) :
    (g.setCache i c).extNativeMax = g.extNativeMax := by cases i <;> rfl

@[simp] theorem Generators.setCache_cache_same (g : Generators) (i : Inst) (c : Cache) :
    (g.setCache i c).cache i = c := by cases i <;> rfl

theorem Generators.setCache_cache_other (g : Generators) {i j : Inst} (h : j ≠ i) (c : Cache) :
    (g.setCache i c).cache j = g.cache j := by cases i <;> cases j <;> first | rfl | simp at h

@[simp] theorem Generators.setCache_nativeMax (g : Generators) (i j : Inst) (c : Cache) :
    (g.setCache i c).nativeMax j = g.nativeMax j := by cases i <;> cases j <;> rfl

@[simp] theorem State.source_gen (s : State) (l : Latched) : (s.source l).gen = s.gen := rfl
@[simp] theorem State.source_words (s : State) (l : Latched) : (s.source l).words = l.drawn := rfl

end Sys2Proof.Machine
end

