-- ==== Sys2Proof/Laws/Ops.lean ====
section
/-! SUPPORT. What each shared operation can do, said once: how a command's step ends, what a draw
changes and what it depends on. Proofs cite these instead of unfolding the operations. -/

namespace Sys2Proof.Machine

/-! ### How a command's step ends -/

theorem runCommand_busy {s : State} {l : Latched} (h : s.engine = .busy l)
    (body : Latched → Source → Progress) :
    runCommand body s = .next (s.settle l (body l (s.source l))) := by
  simp [runCommand, h]

theorem runCommand_idle {s : State} (h : s.engine = .idle) (body : Latched → Source → Progress) :
    runCommand body s = .next s := by
  simp [runCommand, h]

/-- The pseudocode of every command, as one function. -/
def progressOf (i : Instr) (key : Vector U64 624) (l : Latched) (src : Source) : Progress :=
  match i with
  | .nop _ => .done none src.gen
  | .next i => drawn (nativeDraw i src) id
  | .next32 i => drawn (next32 i src) zext64
  | .next64 i => drawn (next64 i src) id
  | .getu32 i incl =>
    ranged (badRange false (l.a32 == 0) incl) (mapU32 i l.a32 incl src) zext64
  | .getu32r i incl =>
    ranged (badRange (decide (l.b32 < l.a32)) (l.b32 == l.a32) incl)
      (mapU32 i (l.b32 - l.a32) incl src) (fun v => zext64 (l.a32 + v))
  | .geti32 i incl =>
    ranged (badRange (l.a32.slt 0) (l.a32 == 0) incl) (mapU32 i l.a32 incl src) sext64
  | .geti32r i incl =>
    ranged (badRange (l.b32.slt l.a32) (l.b32 == l.a32) incl)
      (mapU32 i (l.b32 - l.a32) incl src) (fun v => sext64 (l.a32 + v))
  | .getu64 i incl => ranged (badRange false (l.opa == 0) incl) (mapU64 i l.opa incl src) id
  | .getu64r i incl =>
    ranged (badRange (decide (l.opb < l.opa)) (l.opb == l.opa) incl)
      (mapU64 i (l.opb - l.opa) incl src) (fun v => l.opa + v)
  | .geti64 i incl =>
    ranged (badRange (l.opa.slt 0) (l.opa == 0) incl) (mapU64 i l.opa incl src) id
  | .geti64r i incl =>
    ranged (badRange (l.opb.slt l.opa) (l.opb == l.opa) incl)
      (mapU64 i (l.opb - l.opa) incl src) (fun v => l.opa + v)
  | .seedDefault i => seeded i (defaultSeed i src.gen)
  | .seedScalar i =>
    if i = .ext then .raise .unsupportedOperation else seeded i (scalarSeed i l src.gen)
  | .seedKey i =>
    if i = .ext then .raise .unsupportedOperation
    else if Config.keyDepth < l.opa.toNat then .raise .bufferBounds
    else if l.opa = 0 then seeded i (defaultSeed i src.gen)
    else seeded i (keySeed i (key.toList.take l.opa.toNat) src.gen)
  | .discard i => discard i l.opa src
  | .temper i =>
    match i with
    | .mt32 => .done (some (zext64 (temper mt32Params l.a32))) src.gen
    | .mt64 => .done (some (temper mt64Params l.opa)) src.gen
    | .add64 => .raise .unsupportedOperation
    | .ext => .raise .unsupportedOperation
  | .whiten i =>
    match i with
    | .add64 => .done (some (whiten l.opa)) src.gen
    | .mt32 => .raise .unsupportedOperation
    | .mt64 => .raise .unsupportedOperation
    | .ext => .raise .unsupportedOperation

/-- On a busy engine every command's step is its pseudocode, settled. -/
theorem exec_busy {s : State} {l : Latched} (h : s.engine = .busy l) (i : Instr) :
    exec i s = .next (s.settle l (progressOf i s.key l (s.source l))) := by
  cases i <;> simp only [exec, execNop, execNext, execNext32, execNext64, execGetu32, execGetu32r, execGeti32,
    execGeti32r, execGetu64, execGetu64r, execGeti64, execGeti64r, execSeedDefault, execSeedScalar,
    execSeedKey, execDiscard, execTemper, execWhiten,
    runCommand_busy h, progressOf, State.source]
  all_goals rfl

theorem exec_idle {s : State} (h : s.engine = .idle) (i : Instr) : exec i s = .next s := by
  cases i <;> simp only [exec, execNop, execNext, execNext32, execNext64, execGetu32, execGetu32r, execGeti32,
    execGeti32r, execGetu64, execGetu64r, execGeti64, execGeti64r, execSeedDefault, execSeedScalar,
    execSeedKey, execDiscard, execTemper, execWhiten,
    runCommand_idle h]

theorem settle_done (s : State) (l : Latched) (r : Option U64) (g : Generators) :
    s.settle l (.done r g) = s.complete r g := rfl

theorem settle_raise (s : State) (l : Latched) (e : Completion) :
    s.settle l (.raise e) = s.raise e := rfl

theorem settle_needWord (s : State) (l : Latched) : s.settle l .needWord = s.extDraw l := rfl

theorem extDraw_nil {s : State} (h : s.extFifo = []) (l : Latched) :
    s.extDraw l = { s with waitExt := true } := by simp [State.extDraw, h]

theorem extDraw_cons {s : State} {v : U64} {rest : List U64} (h : s.extFifo = v :: rest)
    (l : Latched) :
    s.extDraw l = { s with waitExt := false, extFifo := rest,
                           engine := .busy { l with drawn := l.drawn ++ [v] } } := by
  simp [State.extDraw, h]

/-- A draw leaves a busy engine busy with the same command. -/
theorem extDraw_engine {s : State} {l : Latched} (h : s.engine = .busy l) :
    ∃ l', (s.extDraw l).engine = .busy l' ∧ l'.cmd = l.cmd ∧ l'.opa = l.opa ∧ l'.opb = l.opb := by
  cases hf : s.extFifo with
  | nil => exact ⟨l, by simp [extDraw_nil hf, h]⟩
  | cons v rest => exact ⟨{ l with drawn := l.drawn ++ [v] }, by simp [extDraw_cons hf]⟩

/-! ### What a draw changes -/

/-- A draw of instance `i` from `src` that leaves `src'`: the other instances are as before, the
index of a legal generator stays legal, and only EXT uses up words. -/
structure DrawFrame (i : Inst) (src src' : Source) : Prop where
  outside : SameOutside i src.gen src'.gen
  idx32 : src.gen.mt32.idx ≤ 624 → src'.gen.mt32.idx ≤ 624
  idx64 : src.gen.mt64.idx ≤ 312 → src'.gen.mt64.idx ≤ 312
  words : i ≠ .ext → src'.words = src.words

theorem SameOutside.refl (i : Inst) (g : Generators) : SameOutside i g g :=
  ⟨fun _ => rfl, fun _ => rfl, fun _ => rfl, rfl, fun _ _ => rfl⟩

theorem SameOutside.trans {i : Inst} {a b c : Generators} (h : SameOutside i a b)
    (k : SameOutside i b c) : SameOutside i a c :=
  ⟨fun n => (k.mt32 n).trans (h.mt32 n), fun n => (k.mt64 n).trans (h.mt64 n),
    fun n => (k.add64 n).trans (h.add64 n), k.nativeMax.trans h.nativeMax,
    fun j n => (k.caches j n).trans (h.caches j n)⟩

theorem SameOutside.setCache (i : Inst) (g : Generators) (c : Cache) :
    SameOutside i g (g.setCache i c) :=
  ⟨fun _ => by simp, fun _ => by simp, fun _ => by simp, by simp,
    fun _ n => Generators.setCache_cache_other g n c⟩

theorem DrawFrame.refl (i : Inst) (src : Source) : DrawFrame i src src :=
  ⟨.refl .., id, id, fun _ => rfl⟩

theorem DrawFrame.trans {i : Inst} {a b c : Source} (h : DrawFrame i a b) (k : DrawFrame i b c) :
    DrawFrame i a c :=
  ⟨h.outside.trans k.outside, k.idx32 ∘ h.idx32, k.idx64 ∘ h.idx64,
    fun n => (k.words n).trans (h.words n)⟩

theorem DrawFrame.setCache (i : Inst) (src : Source) (c : Cache) :
    DrawFrame i src { src with gen := src.gen.setCache i c } :=
  ⟨.setCache .., by simp, by simp, fun _ => rfl⟩

theorem SameOutside.of_mt32 (g : Generators) (mt : Mt 32 624) :
    SameOutside .mt32 g { g with mt32 := mt } :=
  ⟨fun n => absurd rfl n, fun _ => rfl, fun _ => rfl, rfl, fun j _ => by cases j <;> rfl⟩

theorem SameOutside.of_mt64 (g : Generators) (mt : Mt 64 312) :
    SameOutside .mt64 g { g with mt64 := mt } :=
  ⟨fun _ => rfl, fun n => absurd rfl n, fun _ => rfl, rfl, fun j _ => by cases j <;> rfl⟩

theorem SameOutside.of_add64 (g : Generators) (st : U64) :
    SameOutside .add64 g { g with addState := st } :=
  ⟨fun _ => rfl, fun _ => rfl, fun n => absurd rfl n, rfl, fun j _ => by cases j <;> rfl⟩

variable {w n : Nat}

theorem Mt.ready_idx (p : MtParams w) (g : Mt w n) : (g.ready p).idx = if n ≤ g.idx then 0 else g.idx := by
  unfold Mt.ready; split <;> rfl

theorem Mt.draw_idx (p : MtParams w) (g : Mt w n) :
    (g.draw p).2.idx = (if n ≤ g.idx then 0 else g.idx) + 1 := by
  simp [Mt.draw, Mt.ready_idx]

theorem Mt.skip_eq_draw (p : MtParams w) (g : Mt w n) : g.skip p = (g.draw p).2 := rfl

theorem Mt.draw_idx_le (p : MtParams w) (g : Mt w n) (hn : 0 < n) : (g.draw p).2.idx ≤ n := by
  rw [Mt.draw_idx]; split <;> omega

theorem Mt.discard_idx_le (p : MtParams w) (count : Nat) (g : Mt w n) (hn : 0 < n)
    (h : g.idx ≤ n) : (g.discard p count).idx ≤ n := by
  induction count generalizing g with
  | zero => exact h
  | succ c ih => exact ih _ (Mt.draw_idx_le p g hn)

theorem nativeDraw_mt32 (src : Source) :
    nativeDraw .mt32 src = some (zext64 (src.gen.mt32.draw mt32Params).1,
      { src with gen := { src.gen with mt32 := (src.gen.mt32.draw mt32Params).2 } }) := rfl

theorem nativeDraw_mt64 (src : Source) :
    nativeDraw .mt64 src = some ((src.gen.mt64.draw mt64Params).1,
      { src with gen := { src.gen with mt64 := (src.gen.mt64.draw mt64Params).2 } }) := rfl

theorem nativeDraw_add64 (src : Source) :
    nativeDraw .add64 src = some (whiten (addAdvance src.gen.addState),
      { src with gen := { src.gen with addState := addAdvance src.gen.addState } }) := rfl

theorem nativeDraw_ext_nil {src : Source} (h : src.words = []) : nativeDraw .ext src = none := by
  simp [nativeDraw, h]

theorem nativeDraw_ext_cons {src : Source} {v : U64} {rest : List U64} (h : src.words = v :: rest) :
    nativeDraw .ext src = some (v, { src with words := rest }) := by
  simp [nativeDraw, h]

theorem nativeDraw_frame {i : Inst} {src src' : Source} {v : U64}
    (h : nativeDraw i src = some (v, src')) : DrawFrame i src src' := by
  cases i with
  | mt32 =>
    rw [nativeDraw_mt32] at h
    obtain ⟨-, rfl⟩ := Prod.mk.inj (Option.some.inj h)
    exact ⟨.of_mt32 .., fun _ => Mt.draw_idx_le _ _ (by decide), id, fun _ => rfl⟩
  | mt64 =>
    rw [nativeDraw_mt64] at h
    obtain ⟨-, rfl⟩ := Prod.mk.inj (Option.some.inj h)
    exact ⟨.of_mt64 .., id, fun _ => Mt.draw_idx_le _ _ (by decide), fun _ => rfl⟩
  | add64 =>
    rw [nativeDraw_add64] at h
    obtain ⟨-, rfl⟩ := Prod.mk.inj (Option.some.inj h)
    exact ⟨.of_add64 .., id, id, fun _ => rfl⟩
  | ext =>
    cases hw : src.words with
    | nil => simp [nativeDraw_ext_nil hw] at h
    | cons a rest =>
      rw [nativeDraw_ext_cons hw] at h
      obtain ⟨-, rfl⟩ := Prod.mk.inj (Option.some.inj h)
      exact ⟨.refl .., id, id, fun n => absurd rfl n⟩

/-- Only EXT can lack a word. -/
theorem nativeDraw_isSome {i : Inst} (h : i ≠ .ext) (src : Source) :
    ∃ v src', nativeDraw i src = some (v, src') := by
  cases i with
  | mt32 => exact ⟨_, _, rfl⟩
  | mt64 => exact ⟨_, _, rfl⟩
  | add64 => exact ⟨_, _, rfl⟩
  | ext => exact absurd rfl h

theorem chunk_frame (src : Source) (rest : List U64) :
    DrawFrame .ext src { src with words := rest } :=
  ⟨.refl .., id, id, fun n => absurd rfl n⟩

/-- Every instance but EXT is native 32-bit or native 64-bit (R42). -/
theorem range_native {i : Inst} (h : i ≠ .ext) (src : Source) :
    (src.range i).isNative32 = true ∨ (src.range i).isNative64 = true := by
  cases i with
  | mt32 => exact .inl rfl
  | mt64 => exact .inr rfl
  | add64 => exact .inr rfl
  | ext => exact absurd rfl h

/-- What a successful Next64 is, by the three cases of R103. -/
theorem next64_cases {i : Inst} {src src' : Source} {v : U64} (h : next64 i src = some (v, src')) :
    ((src.range i).isNative64 = true ∧ nativeDraw i src = some (v, src'))
    ∨ ((src.range i).isNative64 = false ∧ (src.range i).isNative32 = true ∧
        ∃ hi mid lo, nativeDraw i src = some (hi, mid) ∧ nativeDraw i mid = some (lo, src') ∧
          v = pair (lo32 hi) (lo32 lo))
    ∨ (i = .ext ∧ (src.range i).isNative64 = false ∧ (src.range i).isNative32 = false ∧
        ∃ rest, chunk64 (src.range i) 0 0 src.words = some (v, rest) ∧
          src' = { src with words := rest }) := by
  unfold next64 at h
  cases h64 : (src.range i).isNative64 with
  | true => simp only [h64, if_true] at h; exact .inl ⟨rfl, h⟩
  | false =>
    cases h32 : (src.range i).isNative32 with
    | true =>
      simp only [h64, h32, if_true, if_false, Bool.false_eq_true] at h
      refine .inr (.inl ⟨rfl, rfl, ?_⟩)
      split at h
      · simp at h
      · rename_i hi mid hd
        split at h
        · simp at h
        · rename_i lo last hl
          simp only [Option.some.injEq, Prod.mk.injEq] at h
          obtain ⟨rfl, rfl⟩ := h
          exact ⟨hi, mid, lo, hd, hl, rfl⟩
    | false =>
      simp only [h64, h32, if_false, Bool.false_eq_true] at h
      have hi : i = .ext := by
        by_contra hne
        rcases range_native hne src with h' | h' <;> simp_all
      refine .inr (.inr ⟨hi, rfl, rfl, ?_⟩)
      split at h
      · simp at h
      · rename_i x rest hc
        simp only [Option.some.injEq, Prod.mk.injEq] at h
        obtain ⟨rfl, rfl⟩ := h
        exact ⟨rest, hc, rfl⟩

theorem next64_frame {i : Inst} {src src' : Source} {v : U64} (h : next64 i src = some (v, src')) :
    DrawFrame i src src' := by
  rcases next64_cases h with ⟨-, h⟩ | ⟨-, -, hi, mid, lo, h1, h2, -⟩ | ⟨rfl, -, -, rest, -, rfl⟩
  · exact nativeDraw_frame h
  · exact (nativeDraw_frame h1).trans (nativeDraw_frame h2)
  · exact chunk_frame ..

/-- What a successful Next32 is, by the cases of R104. -/
theorem next32_cases {i : Inst} {src src' : Source} {r : U32} (h : next32 i src = some (r, src')) :
    ((src.range i).isNative32 = true ∧ ∃ v, nativeDraw i src = some (v, src') ∧ r = lo32 v)
    ∨ ((src.range i).isNative32 = false ∧ (src.gen.cache i).toggle = true ∧
        r = (src.gen.cache i).half ∧
        src' = { src with gen := src.gen.setCache i { src.gen.cache i with toggle := false } })
    ∨ ((src.range i).isNative32 = false ∧ (src.gen.cache i).toggle = false ∧
        ∃ v mid, next64 i src = some (v, mid) ∧ r = lo32 v ∧
          src' = { mid with gen := mid.gen.setCache i { half := hi32 v, toggle := true } }) := by
  unfold next32 at h
  cases h32 : (src.range i).isNative32 with
  | true =>
    simp only [h32, if_true] at h
    refine .inl ⟨rfl, ?_⟩
    split at h
    · simp at h
    · rename_i v mid hd
      simp only [Option.some.injEq, Prod.mk.injEq] at h
      obtain ⟨rfl, rfl⟩ := h
      exact ⟨v, hd, rfl⟩
  | false =>
    cases ht : (src.gen.cache i).toggle with
    | true =>
      simp only [h32, ht, if_true, if_false, Bool.false_eq_true, Option.some.injEq,
        Prod.mk.injEq] at h
      obtain ⟨rfl, rfl⟩ := h
      exact .inr (.inl ⟨rfl, rfl, rfl, rfl⟩)
    | false =>
      simp only [h32, ht, if_false, Bool.false_eq_true] at h
      refine .inr (.inr ⟨rfl, rfl, ?_⟩)
      split at h
      · simp at h
      · rename_i v mid hd
        simp only [Option.some.injEq, Prod.mk.injEq] at h
        obtain ⟨rfl, rfl⟩ := h
        exact ⟨v, mid, hd, rfl, rfl⟩

theorem next32_frame {i : Inst} {src src' : Source} {r : U32} (h : next32 i src = some (r, src')) :
    DrawFrame i src src' := by
  rcases next32_cases h with ⟨-, v, hd, -⟩ | ⟨-, -, -, rfl⟩ | ⟨-, -, v, mid, hd, -, rfl⟩
  · exact nativeDraw_frame hd
  · exact .setCache ..
  · exact (next64_frame hd).trans (.setCache ..)

theorem next64_isSome {i : Inst} (h : i ≠ .ext) (src : Source) :
    ∃ v src', next64 i src = some (v, src') := by
  obtain ⟨a, mid, ha⟩ := nativeDraw_isSome h src
  obtain ⟨b, last, hb⟩ := nativeDraw_isSome h mid
  rcases range_native h src with h32 | h64
  · cases h64 : (src.range i).isNative64 with
    | true => exact ⟨a, mid, by simp [next64, h64, ha]⟩
    | false => exact ⟨pair (lo32 a) (lo32 b), last, by simp [next64, h64, h32, ha, hb]⟩
  · exact ⟨a, mid, by simp [next64, h64, ha]⟩

theorem next32_isSome {i : Inst} (h : i ≠ .ext) (src : Source) :
    ∃ r src', next32 i src = some (r, src') := by
  obtain ⟨a, mid, ha⟩ := nativeDraw_isSome h src
  obtain ⟨b, last, hb⟩ := next64_isSome h src
  cases h32 : (src.range i).isNative32 <;> cases ht : (src.gen.cache i).toggle <;>
    simp [next32, h32, ht, ha, hb]

/-- A MapU32 is one Next32 (R106): it succeeds where that does, with a value of it. -/
theorem mapU32_eq (i : Inst) (m : U32) (incl : Bool) (src : Source) :
    mapU32 i m incl src = (next32 i src).map fun (r, src) =>
      (if incl && m == 0xFFFFFFFF then r else mulShift32 r (zext64 m + inclAddend incl), src) := by
  unfold mapU32
  split <;> cases next32 i src <;> simp

/-- A MapU64 is one Next32 where the bound fits in 32 bits, else one Next64 (R107). -/
theorem mapU64_eq (i : Inst) (m : U64) (incl : Bool) (src : Source) :
    mapU64 i m incl src =
      if m ≤ 0xFFFFFFFF then (mapU32 i (lo32 m) incl src).map fun (v, src) => (zext64 v, src)
      else (next64 i src).map fun (r, src) =>
        (if incl && m == 0xFFFFFFFFFFFFFFFF then r else crossSum r (m + inclAddend incl), src) := by
  unfold mapU64
  split
  · cases mapU32 i (lo32 m) incl src <;> rfl
  · split <;> cases next64 i src <;> simp

theorem mapU32_frame {i : Inst} {m : U32} {incl : Bool} {src src' : Source} {v : U32}
    (h : mapU32 i m incl src = some (v, src')) : DrawFrame i src src' := by
  rw [mapU32_eq, Option.map_eq_some_iff] at h
  obtain ⟨⟨r, src1⟩, hd, he⟩ := h
  cases he
  exact next32_frame hd

theorem mapU64_frame {i : Inst} {m : U64} {incl : Bool} {src src' : Source} {v : U64}
    (h : mapU64 i m incl src = some (v, src')) : DrawFrame i src src' := by
  rw [mapU64_eq] at h
  split at h
  · obtain ⟨⟨r, src1⟩, hd, he⟩ := Option.map_eq_some_iff.mp h
    cases he
    exact mapU32_frame hd
  · obtain ⟨⟨r, src1⟩, hd, he⟩ := Option.map_eq_some_iff.mp h
    cases he
    exact next64_frame hd

theorem mapU32_isSome {i : Inst} (h : i ≠ .ext) (m : U32) (incl : Bool) (src : Source) :
    ∃ v src', mapU32 i m incl src = some (v, src') := by
  obtain ⟨r, src', hr⟩ := next32_isSome h src
  exact ⟨_, src', by rw [mapU32_eq, hr]; rfl⟩

theorem mapU64_isSome {i : Inst} (h : i ≠ .ext) (m : U64) (incl : Bool) (src : Source) :
    ∃ v src', mapU64 i m incl src = some (v, src') := by
  rw [mapU64_eq]
  split
  · obtain ⟨r, src', hr⟩ := mapU32_isSome h (lo32 m) incl src
    exact ⟨_, src', by rw [hr]; rfl⟩
  · obtain ⟨r, src', hr⟩ := next64_isSome h src
    exact ⟨_, src', by rw [hr]; rfl⟩

/-- `extDiscard n` drops n words where there are as many (R156). -/
theorem extDiscard_eq (n : Nat) (src : Source) :
    extDiscard n src =
      if n ≤ src.words.length then some { src with words := src.words.drop n } else none := by
  induction n generalizing src with
  | zero => simp [extDiscard]
  | succ n ih =>
    obtain ⟨g, ws⟩ := src
    cases ws <;> simp [extDiscard, nativeDraw, ih]

/-! ### What a command's pseudocode can come to -/

theorem seeded_eq (i : Inst) (g : Generators) :
    seeded i g = .done none (g.setCache i Cache.zero) := rfl

theorem drawn_cases {α : Type} (draw : Option (α × Source)) (out : α → U64) :
    (draw = none ∧ drawn draw out = .needWord)
    ∨ ∃ v src, draw = some (v, src) ∧ drawn draw out = .done (some (out v)) src.gen := by
  cases draw with
  | none => exact .inl ⟨rfl, rfl⟩
  | some p => exact .inr ⟨p.1, p.2, rfl, rfl⟩

theorem ranged_cases {α : Type} (bad : Bool) (draw : Option (α × Source)) (out : α → U64) :
    (bad = true ∧ ranged bad draw out = .raise .invalidRange)
    ∨ (bad = false ∧ ranged bad draw out = drawn draw out) := by
  cases bad with
  | true => exact .inl ⟨rfl, rfl⟩
  | false => exact .inr ⟨rfl, rfl⟩

end Sys2Proof.Machine
end

