-- ==== Sys2Proof/Laws/Exec.lean ====
section
/-! SUPPORT. What the pseudocode of any command can come to, and what a step can do to a state:
said once over all commands, for the whole-machine claims. -/

namespace Sys2Proof.Machine

/-- The end of a command's pseudocode leaves the other instances as they were and legal indexes
legal. -/
structure EndFrame (i : Inst) (g g' : Generators) : Prop where
  outside : SameOutside i g g'
  idx32 : g.mt32.idx ≤ 624 → g'.mt32.idx ≤ 624
  idx64 : g.mt64.idx ≤ 312 → g'.mt64.idx ≤ 312

theorem EndFrame.refl (i : Inst) (g : Generators) : EndFrame i g g := ⟨.refl .., id, id⟩

theorem EndFrame.setCache {i : Inst} {g g' : Generators} (h : EndFrame i g g') (c : Cache) :
    EndFrame i g (g'.setCache i c) :=
  ⟨h.outside.trans (.setCache ..), fun k => by simpa using h.idx32 k,
    fun k => by simpa using h.idx64 k⟩

theorem EndFrame.of_mt32 (g : Generators) (mt : Mt 32 624) (h : g.mt32.idx ≤ 624 → mt.idx ≤ 624) :
    EndFrame .mt32 g { g with mt32 := mt } := ⟨.of_mt32 .., h, id⟩

theorem EndFrame.of_mt64 (g : Generators) (mt : Mt 64 312) (h : g.mt64.idx ≤ 312 → mt.idx ≤ 312) :
    EndFrame .mt64 g { g with mt64 := mt } := ⟨.of_mt64 .., id, h⟩

theorem EndFrame.of_add64 (g : Generators) (st : U64) :
    EndFrame .add64 g { g with addState := st } := ⟨.of_add64 .., id, id⟩

theorem DrawFrame.toEnd {i : Inst} {a b : Source} (h : DrawFrame i a b) :
    EndFrame i a.gen b.gen := ⟨h.outside, h.idx32, h.idx64⟩

/-- What a command's pseudocode came to is framed: an end leaves the other instances alone, an
error is one of R220's, and only a command on EXT needs a word. -/
def Framed (i : Inst) (g : Generators) : Progress → Prop
  | .done _ g' => EndFrame i g g'
  | .raise e => e ≠ .ok
  | .needWord => i = .ext

theorem drawn_framed {α : Type} {i : Inst} {src : Source} {draw : Option (α × Source)}
    {out : α → U64} (hs : ∀ v src', draw = some (v, src') → DrawFrame i src src')
    (hn : i ≠ .ext → ∃ v src', draw = some (v, src')) : Framed i src.gen (drawn draw out) := by
  rcases drawn_cases draw out with ⟨hd, hp⟩ | ⟨v, src', hd, hp⟩ <;> rw [hp]
  · by_contra hne
    obtain ⟨v, src', h⟩ := hn hne
    simp [hd] at h
  · exact (hs v src' hd).toEnd

theorem ranged_framed {α : Type} {i : Inst} {src : Source} {bad : Bool}
    {draw : Option (α × Source)} {out : α → U64}
    (hs : ∀ v src', draw = some (v, src') → DrawFrame i src src')
    (hn : i ≠ .ext → ∃ v src', draw = some (v, src')) : Framed i src.gen (ranged bad draw out) := by
  rcases ranged_cases bad draw out with ⟨-, hp⟩ | ⟨-, hp⟩ <;> rw [hp]
  · simp [Framed]
  · exact drawn_framed hs hn

theorem mapU32_framed {i : Inst} {src : Source} {bad : Bool} {m : U32} {incl : Bool}
    {out : U32 → U64} : Framed i src.gen (ranged bad (mapU32 i m incl src) out) :=
  ranged_framed (fun _ _ h => mapU32_frame h) (fun h => mapU32_isSome h ..)

theorem mapU64_framed {i : Inst} {src : Source} {bad : Bool} {m : U64} {incl : Bool}
    {out : U64 → U64} : Framed i src.gen (ranged bad (mapU64 i m incl src) out) :=
  ranged_framed (fun _ _ h => mapU64_frame h) (fun h => mapU64_isSome h ..)

theorem seeded_framed {i : Inst} {g g' : Generators} (h : EndFrame i g g') :
    Framed i g (seeded i g') := h.setCache _

theorem defaultSeed_frame (i : Inst) (g : Generators) : EndFrame i g (defaultSeed i g) := by
  cases i with
  | mt32 => exact .of_mt32 _ _ fun _ => Nat.le_refl 624
  | mt64 => exact .of_mt64 _ _ fun _ => Nat.le_refl 312
  | add64 => exact .of_add64 ..
  | ext => exact .refl ..

theorem scalarSeed_frame (i : Inst) (l : Latched) (g : Generators) :
    EndFrame i g (scalarSeed i l g) := by
  cases i with
  | mt32 => exact .of_mt32 _ _ fun _ => Nat.le_refl 624
  | mt64 => exact .of_mt64 _ _ fun _ => Nat.le_refl 312
  | add64 => exact .of_add64 ..
  | ext => exact .refl ..

theorem keySeed_frame (i : Inst) (key : List U64) (g : Generators) :
    EndFrame i g (keySeed i key g) := by
  cases i with
  | mt32 => exact .of_mt32 _ _ fun _ => Nat.le_refl 624
  | mt64 => exact .of_mt64 _ _ fun _ => Nat.le_refl 312
  | add64 => exact .of_add64 ..
  | ext => exact .refl ..

theorem discard_framed (i : Inst) (n : U64) (src : Source) :
    Framed i src.gen (discard i n src) := by
  cases i with
  | mt32 => exact EndFrame.of_mt32 _ _ (Mt.discard_idx_le _ _ _ (by decide))
  | mt64 => exact EndFrame.of_mt64 _ _ (Mt.discard_idx_le _ _ _ (by decide))
  | add64 => exact EndFrame.of_add64 ..
  | ext =>
    simp only [discard, extDiscard_eq]
    by_cases h : n.toNat ≤ src.words.length
    · simp only [h, if_true]; exact EndFrame.refl ..
    · simp only [h, if_false]; rfl

/-- Every command's pseudocode is framed. -/
theorem progressOf_framed (i : Instr) (key : Vector U64 624) (l : Latched) (src : Source) :
    Framed i.inst src.gen (progressOf i key l src) := by
  cases i with
  | nop i => exact EndFrame.refl ..
  | next i => exact drawn_framed (fun _ _ h => nativeDraw_frame h) (fun h => nativeDraw_isSome h _)
  | next32 i => exact drawn_framed (fun _ _ h => next32_frame h) (fun h => next32_isSome h _)
  | next64 i => exact drawn_framed (fun _ _ h => next64_frame h) (fun h => next64_isSome h _)
  | getu32 i incl => exact mapU32_framed
  | getu32r i incl => exact mapU32_framed
  | geti32 i incl => exact mapU32_framed
  | geti32r i incl => exact mapU32_framed
  | getu64 i incl => exact mapU64_framed
  | getu64r i incl => exact mapU64_framed
  | geti64 i incl => exact mapU64_framed
  | geti64r i incl => exact mapU64_framed
  | seedDefault i => exact seeded_framed (defaultSeed_frame ..)
  | seedScalar i =>
    simp only [progressOf]
    split
    · simp [Framed]
    · exact seeded_framed (scalarSeed_frame ..)
  | seedKey i =>
    simp only [progressOf]
    split
    · simp [Framed]
    split
    · simp [Framed]
    split
    · exact seeded_framed (defaultSeed_frame ..)
    · exact seeded_framed (keySeed_frame ..)
  | discard i => exact discard_framed ..
  | temper i => cases i <;> first | exact EndFrame.refl .. | simp [progressOf, Framed]
  | whiten i => cases i <;> first | exact EndFrame.refl .. | simp [progressOf, Framed]

/-- The three ways one engine step of a command on a busy engine can go. -/
theorem exec_cases {s : State} {l : Latched} (h : s.engine = .busy l) (i : Instr) :
    (∃ r g, progressOf i s.key l (s.source l) = .done r g ∧ exec i s = .next (s.complete r g)
        ∧ EndFrame i.inst s.gen g)
    ∨ (∃ e, progressOf i s.key l (s.source l) = .raise e ∧ exec i s = .next (s.raise e)
        ∧ e ≠ .ok)
    ∨ (progressOf i s.key l (s.source l) = .needWord ∧ exec i s = .next (s.extDraw l)
        ∧ i.inst = .ext) := by
  have hx := exec_busy h i
  have hf := progressOf_framed i s.key l (s.source l)
  cases hp : progressOf i s.key l (s.source l) with
  | done r g => rw [hp] at hx hf; exact .inl ⟨r, g, rfl, hx, hf⟩
  | raise e => rw [hp] at hx hf; exact .inr (.inl ⟨e, rfl, hx, hf⟩)
  | needWord => rw [hp] at hx hf; exact .inr (.inr ⟨rfl, hx, hf⟩)

/-- Every command answers a next state. -/
theorem exec_next (i : Instr) (s : State) : ∃ t, exec i s = .next t := by
  cases h : s.engine with
  | idle => exact ⟨s, exec_idle h i⟩
  | busy l =>
    rcases exec_cases h i with ⟨_, _, _, hx, _⟩ | ⟨_, _, hx, _⟩ | ⟨_, hx, _⟩ <;> exact ⟨_, hx⟩

/-- What a step does, by the move it makes. -/
theorem step_nil {s : State} (h : s.schedule = []) : step s = engineStep s := by
  simp [step, stepScheduled, h]

theorem step_cons {s : State} {e : Event} {rest : List Event} (h : s.schedule = e :: rest) :
    step s = move e { s with schedule := rest } := by
  simp [step, stepScheduled, h]

/-- An engine step changes nothing of an idle engine, completes an illegal word, or executes. -/
theorem engineStep_cases (s : State) :
    (s.engine = .idle ∧ engineStep s = .next s)
    ∨ (∃ l e, s.engine = .busy l ∧ decode l.cmd = .error e
        ∧ engineStep s = .next (s.raise .illegalCommand))
    ∨ (∃ l i, s.engine = .busy l ∧ decode l.cmd = .ok i ∧ engineStep s = exec i s) := by
  cases h : s.engine with
  | idle => exact .inl ⟨rfl, by simp [engineStep, h]⟩
  | busy l =>
    cases hd : decode l.cmd with
    | error e => exact .inr (.inl ⟨l, e, rfl, hd, by simp [engineStep, h, hd]⟩)
    | ok i => exact .inr (.inr ⟨l, i, rfl, hd, by simp [engineStep, h, hd]⟩)

end Sys2Proof.Machine
end

