-- ==== Sys2Proof/Laws/PerInstr.lean ====
section
/-! SUPPORT. Per-instruction families: a Statement about the instruction as syntax, and one lemma per
constructor. -/

namespace Sys2Proof.Laws.EncodedFields

open Sys2Proof

/-- The encoded word has well-formed fields (R81, R86 to R88): the OP of the instruction's row (R85),
its INST (R82) and INCL (R83) and no RSV bit; it matches the row under the row's mask (R89). -/
def Statement (i : Instr) : Prop :=
  commandFields (encode i) = { op := opcode i, inst := instBits i.inst, incl := i.incl, rsv := 0 }
    ∧ (commandFields (encode i)).wellFormed = true
    ∧ encode i &&& rowMask i = rowMatch i

theorem nop (inst : Inst) : Statement (.nop inst) := by
  cases inst <;> simp only [Statement] <;> decide

theorem next (inst : Inst) : Statement (.next inst) := by
  cases inst <;> simp only [Statement] <;> decide

theorem next32 (inst : Inst) : Statement (.next32 inst) := by
  cases inst <;> simp only [Statement] <;> decide

theorem next64 (inst : Inst) : Statement (.next64 inst) := by
  cases inst <;> simp only [Statement] <;> decide

theorem getu32 (inst : Inst) (incl : Bool) : Statement (.getu32 inst incl) := by
  cases inst <;> cases incl <;> simp only [Statement] <;> decide

theorem getu32r (inst : Inst) (incl : Bool) : Statement (.getu32r inst incl) := by
  cases inst <;> cases incl <;> simp only [Statement] <;> decide

theorem geti32 (inst : Inst) (incl : Bool) : Statement (.geti32 inst incl) := by
  cases inst <;> cases incl <;> simp only [Statement] <;> decide

theorem geti32r (inst : Inst) (incl : Bool) : Statement (.geti32r inst incl) := by
  cases inst <;> cases incl <;> simp only [Statement] <;> decide

theorem getu64 (inst : Inst) (incl : Bool) : Statement (.getu64 inst incl) := by
  cases inst <;> cases incl <;> simp only [Statement] <;> decide

theorem getu64r (inst : Inst) (incl : Bool) : Statement (.getu64r inst incl) := by
  cases inst <;> cases incl <;> simp only [Statement] <;> decide

theorem geti64 (inst : Inst) (incl : Bool) : Statement (.geti64 inst incl) := by
  cases inst <;> cases incl <;> simp only [Statement] <;> decide

theorem geti64r (inst : Inst) (incl : Bool) : Statement (.geti64r inst incl) := by
  cases inst <;> cases incl <;> simp only [Statement] <;> decide

theorem seedDefault (inst : Inst) : Statement (.seedDefault inst) := by
  cases inst <;> simp only [Statement] <;> decide

theorem seedScalar (inst : Inst) : Statement (.seedScalar inst) := by
  cases inst <;> simp only [Statement] <;> decide

theorem seedKey (inst : Inst) : Statement (.seedKey inst) := by
  cases inst <;> simp only [Statement] <;> decide

theorem discard (inst : Inst) : Statement (.discard inst) := by
  cases inst <;> simp only [Statement] <;> decide

theorem temper (inst : Inst) : Statement (.temper inst) := by
  cases inst <;> simp only [Statement] <;> decide

theorem whiten (inst : Inst) : Statement (.whiten inst) := by
  cases inst <;> simp only [Statement] <;> decide

end Sys2Proof.Laws.EncodedFields
end

