-- ==== Sys2Proof/Laws/Range.lean ====
section
/-! SUPPORT. How an engine step's end reads as one of the statements' terms (Safety.lean), and the
numbers behind the multiply-shift mapping (R106, R107) and RangeContext (R42). -/

namespace Sys2Proof.Machine

/-- A command whose pseudocode ends with a result completes with it. -/
theorem completes_of_done {i : Instr} {s : State} {l : Latched} {v : U64} {g : Generators}
    (h : s.engine = .busy l)
    (hp : progressOf i s.key l (s.source l) = .done (some v) g) : CompletesWith i s g v := by
  unfold CompletesWith; rw [exec_busy h, hp]; rfl

/-- A command whose pseudocode ends without a result completes silently. -/
theorem silent_of_done {i : Instr} {s : State} {l : Latched} {g : Generators}
    (h : s.engine = .busy l)
    (hp : progressOf i s.key l (s.source l) = .done none g) : CompletesSilently i s g := by
  unfold CompletesSilently; rw [exec_busy h, hp]; rfl

/-- A command whose pseudocode raises fails with that error. -/
theorem fails_of_raise {i : Instr} {s : State} {l : Latched} {e : Completion}
    (h : s.engine = .busy l)
    (hp : progressOf i s.key l (s.source l) = .raise e) : FailsWith i s e := by
  unfold FailsWith; rw [exec_busy h, hp]; rfl

/-- A command whose pseudocode lacks a word stands at an EXT draw. -/
theorem takes_of_need {i : Instr} {s : State} {l : Latched} (h : s.engine = .busy l)
    (hp : progressOf i s.key l (s.source l) = .needWord) : TakesWord i s l := by
  constructor
  · intro hf; rw [exec_busy h, hp, settle_needWord, extDraw_nil hf]
  · intro v rest hf; rw [exec_busy h, hp, settle_needWord, extDraw_cons hf]

/-- A command fails only where its pseudocode raises. -/
theorem raise_of_fails {i : Instr} {s : State} {l : Latched} {e : Completion}
    (h : s.engine = .busy l) (he : e ≠ .ok) (hf : FailsWith i s e) :
    progressOf i s.key l (s.source l) = .raise e := by
  unfold FailsWith at hf
  rcases exec_cases h i with ⟨r, g, hp, hx', _⟩ | ⟨e', hp, hx', _⟩ | ⟨hp, hx', hi'⟩ <;> rw [hx'] at hf <;> injection hf with hf
  · have := congrArg State.err hf; simp at this; exact absurd this.symm he
  · have := congrArg State.err hf; simp at this; rw [hp, this]
  · obtain ⟨l', h', _⟩ := extDraw_engine h; have := congrArg State.engine hf; simp [h'] at this

/-- A command completes with a value only where its pseudocode ends with it. -/
theorem done_of_completes {i : Instr} {s : State} {l : Latched} {v : U64} {g : Generators}
    (h : s.engine = .busy l) (hf : CompletesWith i s g v) :
    ∃ r, progressOf i s.key l (s.source l) = .done r g ∧ r.getD s.res = v := by
  unfold CompletesWith at hf
  rcases exec_cases h i with ⟨r, g, hp, hx', _⟩ | ⟨e', hp, hx', he⟩ | ⟨hp, hx', hi'⟩ <;> rw [hx'] at hf <;> injection hf with hf
  · have h1 := congrArg State.gen hf; have h2 := congrArg State.res hf; simp at h1 h2; exact ⟨r, h1 ▸ hp, h2⟩
  · have := congrArg State.err hf; simp at this; exact absurd this he
  · obtain ⟨l', h', _⟩ := extDraw_engine h; have := congrArg State.engine hf; simp [h'] at this

theorem zext64_toNat (v : U32) : (zext64 v).toNat = v.toNat := by
  have := v.isLt; simp [zext64]; omega

theorem mulShift32_toNat (r m : U32) (incl : Bool) :
    (mulShift32 r (zext64 m + inclAddend incl)).toNat = r.toNat * (m.toNat + incl.toNat) / 2^32 % 2^32 := by
  have h1 := r.isLt; have h2 := m.isLt
  have hw : (zext64 m + inclAddend incl).toNat = m.toNat + incl.toNat := by
    cases incl <;> simp [zext64, inclAddend] <;> omega
  have hlt : r.toNat * (m.toNat + incl.toNat) < 2^64 := by
    have : m.toNat + incl.toNat ≤ 2^32 := by cases incl <;> simp <;> omega
    calc r.toNat * (m.toNat + incl.toNat) ≤ r.toNat * 2^32 := Nat.mul_le_mul_left _ this
      _ < 2^32 * 2^32 := by omega
      _ = 2^64 := by norm_num
  simp only [mulShift32, lo32, BitVec.extractLsb'_toNat, BitVec.toNat_ushiftRight, BitVec.toNat_mul, hw]
  rw [zext64_toNat, Nat.mod_eq_of_lt hlt, Nat.shiftRight_eq_div_pow]; simp [Nat.shiftRight_eq_div_pow]

theorem mapped32_lt (r m : Nat) (hr : r < 2^32) (hm : 0 < m) : r * m / 2^32 < m := by
  rw [Nat.div_lt_iff_lt_mul (by norm_num)]
  rw [Nat.mul_comm m]; exact Nat.mul_lt_mul_of_pos_right hr hm

/-- The value MapU32 maps a draw to (R106), on numbers, for the full width too. -/
theorem map32_val (r m : U32) (incl : Bool) (h : incl = true ∨ m ≠ 0) :
    (if incl && m == 0xFFFFFFFF then r else mulShift32 r (zext64 m + inclAddend incl)).toNat =
      r.toNat * (m.toNat + incl.toNat) / 2^32 := by
  have h1 := r.isLt; have h2 := m.isLt
  split
  · rename_i hc; simp at hc; obtain ⟨rfl, rfl⟩ := hc; simp
  · rw [mulShift32_toNat]
    apply Nat.mod_eq_of_lt
    have hp : 0 < m.toNat + incl.toNat := by
      rcases h with rfl | h
      · simp
      · have : m.toNat ≠ 0 := fun e => h (BitVec.eq_of_toNat_eq (by simpa using e)); omega
    have := mapped32_lt r.toNat _ h1 hp
    have : m.toNat + incl.toNat ≤ 2^32 := by cases incl <;> simp <;> omega
    omega

theorem a32_toNat (l : Latched) : l.a32.toNat = l.opa.toNat % 2^32 := by simp [Latched.a32, lo32]

theorem b32_toNat (l : Latched) : l.b32.toNat = l.opb.toNat % 2^32 := by simp [Latched.b32, lo32]

/-- The three-product sum of R107 on numbers: nothing overflows. -/
theorem crossSum_toNat (r w : U64) : (crossSum r w).toNat =
    (r.toNat % 2 ^ 32) * (w.toNat / 2 ^ 32) / 2 ^ 32 + (r.toNat / 2 ^ 32) * (w.toNat % 2 ^ 32) / 2 ^ 32
      + (r.toNat / 2 ^ 32) * (w.toNat / 2 ^ 32) := by
  have hr := r.isLt; have hw := w.isLt
  have l1 : (zext64 (lo32 r)).toNat = r.toNat % 2^32 := by simp [zext64, lo32]; omega
  have l2 : (zext64 (lo32 w)).toNat = w.toNat % 2^32 := by simp [zext64, lo32]; omega
  have l3 : (zext64 (hi32 r)).toNat = r.toNat / 2^32 := by simp [zext64, hi32, Nat.shiftRight_eq_div_pow]; omega
  have l4 : (zext64 (hi32 w)).toNat = w.toNat / 2^32 := by simp [zext64, hi32, Nat.shiftRight_eq_div_pow]; omega
  simp only [crossSum, BitVec.toNat_add, BitVec.toNat_mul, BitVec.toNat_ushiftRight, l1, l2, l3, l4, Nat.shiftRight_eq_div_pow]
  set a := r.toNat % 2^32
  set b := r.toNat / 2^32
  set c := w.toNat % 2^32
  set d := w.toNat / 2^32
  have ha : a < 2^32 := Nat.mod_lt _ (by norm_num)
  have hc : c < 2^32 := Nat.mod_lt _ (by norm_num)
  have hb : b < 2^32 := by omega
  have hd : d < 2^32 := by omega
  have m1 : a * d ≤ (2^32-1) * (2^32-1) := Nat.mul_le_mul (by omega) (by omega)
  have m2 : b * c ≤ (2^32-1) * (2^32-1) := Nat.mul_le_mul (by omega) (by omega)
  have m3 : b * d ≤ (2^32-1) * (2^32-1) := Nat.mul_le_mul (by omega) (by omega)
  norm_num at m1 m2 m3
  generalize a * d = x at *; generalize b * c = y at *; generalize b * d = z at *
  omega

theorem largestShift_le (m k : Nat) : largestShift m k ≤ k := by
  induction k with
  | zero => simp [largestShift]
  | succ k ih => simp only [largestShift]; split <;> omega

theorem largestShift_spec (m k : Nat) : 2 ^ largestShift m k - 1 ≤ m := by
  induction k with
  | zero => simp [largestShift]
  | succ k ih => simp only [largestShift]; split; assumption; exact ih

theorem largestShift_max (m k j : Nat) (hj : j ≤ k) (h1 : 1 ≤ j) (h : 2 ^ j - 1 ≤ m) : j ≤ largestShift m k := by
  induction k with
  | zero => omega
  | succ k ih =>
    simp only [largestShift]; split
    · exact hj
    · rename_i hn
      by_cases e : j = k + 1
      · subst e; exact absurd h hn
      · exact ih (by omega)

end Sys2Proof.Machine
end

