-- ==== Sys2Proof/Laws/Twist.lean ====
section
/-! SUPPORT. The words of a twisted-feedback-shift array after each operation on it, and how the
one-pass forms of Machine/Twist.lean walk the array that the rules' in-place loops update. -/

namespace Sys2Proof.Machine

variable {w n : Nat}

theorem Mt.word_eq_getD (g : Mt w n) (k : Nat) : g.word k = g.words.toList.getD k 0 := by
  unfold Mt.word
  split
  · rename_i h; simp [List.getD_eq_getElem?_getD, h]
  · rename_i h; simp [List.getD_eq_getElem?_getD, h]

theorem Mt.word_lt (g : Mt w n) {k : Nat} (h : k < n) : g.word k = g.words[k] := by
  simp [Mt.word, h]

theorem Mt.ext_words {g g' : Mt w n} (hi : g.idx = g'.idx) (h : ∀ k, k < n → g.word k = g'.word k) :
    g = g' := by
  obtain ⟨ws, i⟩ := g
  obtain ⟨ws', i'⟩ := g'
  obtain rfl : i = i' := hi
  have : ws = ws' := Vector.ext fun k hk => by simpa [Mt.word, hk] using h k hk
  rw [this]

theorem Mt.setWord_idx (g : Mt w n) (k : Nat) (v : BitVec w) : (g.setWord k v).idx = g.idx := by
  unfold Mt.setWord; split <;> rfl

theorem Mt.setWord_word (g : Mt w n) {k : Nat} (h : k < n) (v : BitVec w) (j : Nat) :
    (g.setWord k v).word j = if j = k then v else g.word j := by
  by_cases hj : j < n
  · simp only [Mt.setWord, h, Mt.word, hj, dif_pos, Vector.getElem_set]
    by_cases e : j = k
    · simp [e]
    · simp [e, Ne.symm e]
  · simp [Mt.word, hj]
    intro e; omega

theorem wordsOf_toList (l : List (BitVec w)) (h : l.length = n) : (wordsOf l h).toList = l := by
  simp [wordsOf, Vector.toList]

/-- The reload's queue as one list: every new word is dequeued from its front and joins its back. -/
theorem reloadFrom_get (p : MtParams w) (first : BitVec w) (l ahead made : List (BitVec w))
    (hq : ahead ++ made.reverse ≠ []) (j : Nat) (hj : j < l.length) :
    (reloadFrom p first l ahead made).getD j 0 =
      twist p (l.getD j 0) (if j + 1 < l.length then l.getD (j + 1) 0 else first)
        ((ahead ++ made.reverse ++ reloadFrom p first l ahead made).getD j 0) := by
  induction l generalizing ahead made j with
  | nil => simp at hj
  | cons x rest ih =>
    have hhead : rest.headD first = if 1 < (x :: rest).length then (x :: rest).getD 1 0 else first := by
      cases rest <;> simp
    cases ahead with
    | cons a ahead =>
      cases j with
      | zero => simp only [reloadFrom, hhead]; simp
      | succ j =>
        have := ih ahead (twist p x (rest.headD first) a :: made) (by simp) j (by simpa using hj)
        simp only [reloadFrom, List.getD_cons_succ, this]
        simp
    | nil =>
      obtain ⟨a, q, hm⟩ : ∃ a q, made.reverse = a :: q := List.exists_cons_of_ne_nil (by simpa using hq)
      cases j with
      | zero => simp only [reloadFrom, hhead, hm]; simp
      | succ j =>
        have := ih q [twist p x (rest.headD first) a] (by simp) j (by simpa using hj)
        simp only [reloadFrom, List.getD_cons_succ, hm, List.tail_cons, List.headD_cons, this]
        simp

/-- Word j of the reloaded array (R173, R174): the current word, the next one (for the last word the
new word 0), and the word M ahead, old or, past the end, new. -/
theorem Mt.reload_word (p : MtParams w) (g : Mt w n) (hn : 1 < n) (hm : p.offset < n) (j : Nat) (hj : j < n) :
    (g.reload p).word j = twist p (g.word j)
      (if j + 1 < n then g.word (j + 1) else (g.reload p).word 0)
      (if j + p.offset < n then g.word (j + p.offset) else (g.reload p).word (j + p.offset - n)) := by
  have hlen : g.words.toList.length = n := by simp
  have hr : ∀ k, (g.reload p).word k = (reloadList p g.words.toList).getD k 0 := by
    intro k; rw [Mt.word_eq_getD]; unfold Mt.reload; rw [wordsOf_toList]
  have key : ∀ j, j < n → (reloadList p g.words.toList).getD j 0 =
      twist p (g.word j) (if j + 1 < n then g.word (j + 1) else
        twist p (g.word 0) (g.word 1) (g.word p.offset))
        ((g.words.toList.drop p.offset ++ reloadList p g.words.toList).getD j 0) := by
    intro j hj
    have hq : g.words.toList.drop p.offset ++ ([] : List (BitVec w)).reverse ≠ [] := by
      intro h; have := congrArg List.length h; simp at this; omega
    have := reloadFrom_get p (twist p (g.words.toList.getD 0 0) (g.words.toList.getD 1 0) (g.words.toList.getD p.offset 0))
      g.words.toList (g.words.toList.drop p.offset) [] hq j (by omega)
    rw [hlen] at this
    simp only [Mt.word_eq_getD]
    simpa [reloadList] using this
  have hz : (reloadList p g.words.toList).getD 0 0 = twist p (g.word 0) (g.word 1) (g.word p.offset) := by
    rw [key 0 (by omega)]
    simp only [Nat.zero_add, hn, if_true]
    congr 1
    rw [Mt.word_eq_getD]
    simp [List.getD_eq_getElem?_getD, hm]
  rw [hr, key j hj, hr, hz]
  congr 1
  split
  · rename_i h
    rw [Mt.word_eq_getD]
    simp only [List.getD_eq_getElem?_getD]
    rw [List.getElem?_append_left (by simp; omega), List.getElem?_drop, Nat.add_comm]
  · rename_i h
    rw [hr]
    simp only [List.getD_eq_getElem?_getD]
    rw [List.getElem?_append_right (by simp; omega)]
    congr 2
    simp; omega

theorem Mt.reload_idx (p : MtParams w) (g : Mt w n) : (g.reload p).idx = 0 := rfl

theorem loop_inv {α : Type} (body : Nat → α → α) (P : Nat → α → Prop) (e : Nat)
    (hs : ∀ k a, k < e → P k a → P (k + 1) (body k a)) :
    ∀ count k a, k + count ≤ e → P k a → P (k + count) (loopUp body count k a) := by
  intro count
  induction count with
  | zero => intro k a _ h; exact h
  | succ c ih =>
    intro k a hk h
    have := ih (k + 1) (body k a) (by omega) (hs k a (by omega) h)
    rw [loopUp]; convert this using 1; omega

theorem seedWords_get (p : MtParams w) (count k : Nat) (x : BitVec w) (j : Nat) (hj : j + 1 < count) :
    (seedWords p count k x).getD (j + 1) 0 =
      p.mul * ((seedWords p count k x).getD j 0 ^^^ ((seedWords p count k x).getD j 0 >>> p.shift))
        + BitVec.ofNat w (k + j + 1) := by
  induction count generalizing k x j with
  | zero => omega
  | succ c ih =>
    cases j with
    | zero =>
      cases c with
      | zero => omega
      | succ c => simp [seedWords]
    | succ j =>
      have := ih (k + 1) (p.mul * (x ^^^ (x >>> p.shift)) + BitVec.ofNat w (k + 1)) j (by omega)
      rw [show k + (j + 1) + 1 = k + 1 + j + 1 by omega]
      simpa [seedWords] using this

theorem mtSeedScalar_word (p : MtParams w) (x : BitVec w) (k : Nat) :
    (mtSeedScalar p x : Mt w n).word k = (seedWords p n 0 x).getD k 0 := by
  rw [Mt.word_eq_getD]; unfold mtSeedScalar; rw [wordsOf_toList]

theorem seedScalarInPlace_eq (p : MtParams w) (x : BitVec w) (hn : 0 < n) :
    (seedScalarInPlace p x : Mt w n) = mtSeedScalar p x := by
  refine Mt.ext_words (g := seedScalarInPlace p x) (g' := mtSeedScalar p x) rfl ?_
  have := loop_inv (fun (k : Nat) (g : Mt w n) => g.setWord k (p.mul * (g.word (k - 1) ^^^ (g.word (k - 1) >>> p.shift)) + BitVec.ofNat w k))
    (fun k (a : Mt w n) => 1 ≤ k ∧ ∀ j, j < k → a.word j = (mtSeedScalar p x : Mt w n).word j) n
    (fun k a hk h => by
      refine ⟨by omega, fun j hj => ?_⟩
      rw [Mt.setWord_word _ hk]
      by_cases e : j = k
      · subst e
        rw [if_pos rfl, h.2 (j-1) (by omega)]
        simp only [mtSeedScalar_word]
        obtain ⟨i, rfl⟩ : ∃ i, j = i + 1 := ⟨j-1, by omega⟩
        rw [seedWords_get _ _ _ _ _ hk]; simp
      · rw [if_neg e, h.2 j (by omega)]) (n-1) 1 ((blankMt w n).setWord 0 x) (by omega)
    ⟨by omega, fun j hj => by
      obtain rfl : j = 0 := by omega
      rw [Mt.setWord_word _ hn, if_pos rfl, mtSeedScalar_word]
      cases n with
      | zero => omega
      | succ m => simp [seedWords]⟩
  intro k hk
  exact this.2 k (by omega)

/-- The cursor and the in-place loop hold the same array at the same index. -/
structure Matches (c : Cursor w) (mt : Mt w n) (i : Nat) : Prop where
  idx : c.i = i
  pos : 0 < i
  lt : i < n
  cut : c.before.length = i
  len : c.words.length = n
  words : ∀ j, j < n → mt.word j = c.words.getD j 0

theorem Matches.step {c : Cursor w} {mt : Mt w n} {i : Nat} (h : Matches c mt i) (hn : 1 < n) (p : MtParams w) (mult addend : BitVec w) (j : Nat) :
    let q := mt.word (i - 1)
    let v := (mt.word i ^^^ ((q ^^^ (q >>> p.shift)) * mult)) + addend
    let st := KeyLoop.wrapI { mt := mt.setWord i v, i := i + 1, j := j }
    Matches (c.mix p mult addend) st.mt st.i ∧ st.j = j := by
  obtain ⟨ci, before, after⟩ := c
  obtain ⟨h1, h2, h3, h4, h5, h6⟩ := h
  simp only [Cursor.words, List.length_append, List.length_reverse] at h1 h4 h5 h6
  subst h1
  obtain ⟨q, bs, rfl⟩ : ∃ q bs, before = q :: bs := List.exists_cons_of_ne_nil (by intro e; simp [e] at h4; omega)
  obtain ⟨x, as, rfl⟩ : ∃ x as, after = x :: as := List.exists_cons_of_ne_nil (by intro e; simp [e] at h5; simp at h4; omega)
  simp only [List.length_cons] at h4 h5
  have hq : mt.word (ci - 1) = q := by
    rw [h6 _ (by omega)]
    simp only [List.getD_eq_getElem?_getD]
    rw [List.getElem?_append_left (by simp; omega), List.getElem?_reverse (by simp; omega)]
    simp [show bs.length - (ci - 1) = 0 by omega]
  have hx : mt.word ci = x := by
    rw [h6 _ h3]
    simp only [List.getD_eq_getElem?_getD]
    rw [List.getElem?_append_right (by simp; omega)]
    simp [show ci - (bs.length + 1) = 0 by omega]
  intro q' v st
  have hv : v = (x ^^^ ((q ^^^ (q >>> p.shift)) * mult)) + addend := by simp only [v, q', hq, hx]
  clear_value v
  subst hv
  set v := (x ^^^ ((q ^^^ (q >>> p.shift)) * mult)) + addend
  have hw : ∀ j, j < n → (mt.setWord ci v).word j = ((v :: q :: bs).reverse ++ as).getD j 0 := by
    intro j hj
    rw [Mt.setWord_word _ h3]
    have e1 : (v :: q :: bs).reverse ++ as = (q :: bs).reverse ++ v :: as := by simp
    rw [e1]
    by_cases e : j = ci
    · subst e; rw [if_pos rfl]
      simp only [List.getD_eq_getElem?_getD]
      rw [List.getElem?_append_right (by simp; omega)]
      simp [show j - (bs.length + 1) = 0 by omega]
    · rw [if_neg e, h6 j hj]
      simp only [List.getD_eq_getElem?_getD]
      by_cases hl : j < ci
      · rw [List.getElem?_append_left (by simp; omega), List.getElem?_append_left (by simp; omega)]
      · rw [List.getElem?_append_right (by simp; omega), List.getElem?_append_right (by simp; omega)]
        obtain ⟨t, ht⟩ : ∃ t, j - (q :: bs).reverse.length = t + 1 := ⟨j - ci - 1, by simp; omega⟩
        simp only [ht, List.getElem?_cons_succ]
  by_cases hend : n ≤ ci + 1
  · have hst : st = { mt := (mt.setWord ci v).setWord 0 ((mt.setWord ci v).word (n - 1)), i := 1, j := j } := by
      simp only [st, KeyLoop.wrapI, hend, if_true]; rfl
    obtain rfl : as = [] := by
      apply List.eq_nil_of_length_eq_zero; omega
    have hmix : Cursor.mix p mult addend ⟨ci, q :: bs, [x]⟩ = { i := 1, before := [v], after := (v :: q :: bs).reverse.tail } := rfl
    rw [hst, hmix]
    obtain ⟨y, ys, hy⟩ : ∃ y ys, (v :: q :: bs).reverse = y :: ys := List.exists_cons_of_ne_nil (by simp)
    have hyl : ys.length + 1 = n := by have := congrArg List.length hy; simp at this; simp at h5; omega
    refine ⟨⟨rfl, Nat.one_pos, hn, rfl, ?_, ?_⟩, rfl⟩
    · simp only [Cursor.words, hy]; simp; omega
    · intro k hk
      rw [Mt.setWord_word _ (by omega)]
      have hlast : (mt.setWord ci v).word (n-1) = v := by
        rw [hw _ (by omega)]
        simp only [List.getD_eq_getElem?_getD, List.append_nil]
        rw [List.getElem?_reverse (by simp; omega)]
        simp at h5
        simp [show bs.length + 1 - (n-1) = 0 by omega]
      by_cases e : k = 0
      · subst e; simp [hlast, Cursor.words]
      · rw [if_neg e, hw k hk]
        obtain ⟨t, rfl⟩ : ∃ t, k = t + 1 := ⟨k-1, by omega⟩
        simp [Cursor.words, hy]
  · have hst : st = { mt := mt.setWord ci v, i := ci + 1, j := j } := by
      simp only [st, KeyLoop.wrapI, hend, if_false]; rfl
    obtain ⟨y, ys, rfl⟩ : ∃ y ys, as = y :: ys := List.exists_cons_of_ne_nil (by intro e; simp [e] at h5; omega)
    have hmix : Cursor.mix p mult addend ⟨ci, q :: bs, x :: y :: ys⟩ = { i := ci + 1, before := v :: q :: bs, after := y :: ys } := rfl
    rw [hst, hmix]
    refine ⟨⟨rfl, by simp, by simp; omega, by simp; omega, ?_, ?_⟩, rfl⟩
    · simp [Cursor.words] at *; omega
    · intro k hk; exact hw k hk

end Sys2Proof.Machine
end

