-- ==== Sys2Proof/Tests/Slice0.lean ====
section
/-! SUPPORT. The model's own tests: the checks of WellFormed.lean on ill-formed words, command words
written out bit by bit, one step per command with the result of the spec's test vectors (V<n> of
95_test_vectors.md), and for every statement with hypotheses a witness that meets them. -/

namespace Sys2Proof.Tests

open Sys2Proof Sys2Proof.Machine

/-! ### WellFormed: one ill-formed word for each check -/

theorem test_wellFormed_accepts :
    (commandFields 0x0000000000000704).wellFormed = true := by decide

theorem test_wellFormed_refuses_reservedBit :
    (commandFields 0x0000000000000801).rsvClear = false
      ∧ (commandFields 0x0000000000000801).wellFormed = false := by decide

theorem test_wellFormed_refuses_topBit :
    (commandFields 0x8000000000000001).wellFormed = false := by decide

theorem test_wellFormed_refuses_reservedOpcodes :
    ∀ op ∈ [0x0C, 0x0F, 0x13, 0x17, 0x19, 0x1F, 0x22, 0xFF],
      (commandFields (BitVec.ofNat 64 op)).opListed = false
        ∧ (commandFields (BitVec.ofNat 64 op)).wellFormed = false := by decide

theorem test_wellFormed_refuses_inclNotRanged :
    (commandFields 0x0000000000000403).inclAllowed = false
      ∧ (commandFields 0x0000000000000403).wellFormed = false
      ∧ (commandFields 0x0000000000000410).wellFormed = false := by decide

/-- WellFormed's list of reserved opcodes (R86) and the decoder's opcode map (R85) agree. -/
theorem test_opListed_iff_decodeOp : ∀ op : Fin 256,
    (commandFields (BitVec.ofNat 64 op.val)).opListed
      = (match decodeOp op.val .mt32 false with | .ok _ => true | .error _ => false) := by
  decide +kernel

/-! ### Decoding: words written out from R81 (OP 7:0, INST 9:8, INCL 10) and R85 -/

theorem test_decode_nop : decode 0b00_00000000 = .ok (.nop .mt32) := by decide
theorem test_decode_next : decode 0b01_00000001 = .ok (.next .mt64) := by decide
theorem test_decode_next32 : decode 0b10_00000010 = .ok (.next32 .add64) := by decide
theorem test_decode_next64 : decode 0b11_00000011 = .ok (.next64 .ext) := by decide
theorem test_decode_getu32 : decode 0b0_00_00000100 = .ok (.getu32 .mt32 false) := by decide
theorem test_decode_getu32r : decode 0b1_01_00000101 = .ok (.getu32r .mt64 true) := by decide
theorem test_decode_geti32 : decode 0b1_10_00000110 = .ok (.geti32 .add64 true) := by decide
theorem test_decode_geti32r : decode 0b0_11_00000111 = .ok (.geti32r .ext false) := by decide
theorem test_decode_getu64 : decode 0b1_00_00001000 = .ok (.getu64 .mt32 true) := by decide
theorem test_decode_getu64r : decode 0b0_01_00001001 = .ok (.getu64r .mt64 false) := by decide
theorem test_decode_geti64 : decode 0b0_10_00001010 = .ok (.geti64 .add64 false) := by decide
theorem test_decode_geti64r : decode 0b1_11_00001011 = .ok (.geti64r .ext true) := by decide
theorem test_decode_seedDefault : decode 0b00_00010000 = .ok (.seedDefault .mt32) := by decide
theorem test_decode_seedScalar : decode 0b01_00010001 = .ok (.seedScalar .mt64) := by decide
theorem test_decode_seedKey : decode 0b10_00010010 = .ok (.seedKey .add64) := by decide
theorem test_decode_discard : decode 0b11_00011000 = .ok (.discard .ext) := by decide
theorem test_decode_temper : decode 0b00_00100000 = .ok (.temper .mt32) := by decide
theorem test_decode_whiten : decode 0b10_00100001 = .ok (.whiten .add64) := by decide

/-- The checks in the order of R221: RSV, then OP, then INCL. -/
theorem test_decode_rejects :
    decode 0x80C = .error .reservedBits ∧ decode 0x40C = .error .reservedOpcode
      ∧ decode 0x401 = .error .inclNotRanged := by decide

theorem test_decodeTableWord : decodeTableWord 64 0x704 = some (.getu32 .ext true)
    ∧ decodeTableWord 64 0x70F = none := by decide

/-! ### One step per command -/

/-- A block whose arrays are all 0 and whose other state is that of reset (R48). -/
def blank : State :=
  { gen :=
      { mt32 := blankMt 32 624
        mt64 := blankMt 64 312
        addState := 0x0123456789ABCDEF
        extNativeMax := 0xFFFFFFFFFFFFFFFF
        cacheMt32 := Cache.zero
        cacheMt64 := Cache.zero
        cacheAdd64 := Cache.zero
        cacheExt := Cache.zero }
    extFifo := []
    key := Vector.replicate 624 0
    keyAddr := 0
    mt32Addr := 0
    mt64Addr := 0
    opa := 0
    opb := 0
    res := 0
    err := .ok
    waitExt := false
    cmdDropped := false
    pushDropped := false
    engine := .idle
    schedule := []
    readLog := []
    freeCount := 0 }

/-- The latched word and operands of a busy engine. -/
def latched (cmd opa opb : U64) (drawn : List U64 := []) : Latched :=
  { cmd := cmd, opa := opa, opb := opb, drawn := drawn }

/-- `s` with the engine busy. -/
def busyWith (s : State) (l : Latched) : State := { s with engine := .busy l }

/-- The state after one step; the state itself where the step is refused. -/
def oneStep (s : State) : State :=
  match step s with
  | .next t => t
  | .refused _ => s

/-- One step of the command word `w` on `s`. -/
def after (s : State) (w : Nat) (opa opb : U64) : State :=
  oneStep ({ s with opa := opa, opb := opb }.withFetchWord 64 w)

/-- One engine step of an EXT command that has drawn `words`, on a blank block. -/
def afterDrawn (cmd opa opb : U64) (words : List U64) : State :=
  oneStep (busyWith blank (latched cmd opa opb words))

/-- V21: draw 1 of MT64 after reset. -/
theorem test_next_mt64_reset : (after .reset 0x101 0 0).res = 0x64D79B552A559D7F := by
  decide +kernel

/-- V20: draw 1 of MT32 after reset, and the index. -/
theorem test_next_mt32_reset : (after .reset 0x001 0 0).res = 0x3FA23623
    ∧ (after .reset 0x001 0 0).gen.mt32.idx = 1 := by decide +kernel

/-- V1: draw 1 of ADD64. -/
theorem test_next_add64 : (after blank 0x201 0 0).res = 0x157A3807A48FAA9D
    ∧ (after blank 0x201 0 0).gen.addState = 0x9F5ABF2108F64A04 := by decide +kernel

/-- V30: the low half first, the high half cached. -/
theorem test_next32_add64 : (after blank 0x202 0 0).res = 0xA48FAA9D
    ∧ busRead (after blank 0x202 0 0) 0x0D0 = 0x1157A3807 := by decide +kernel

/-- V30: the second NEXT32 is served from the cache. -/
theorem test_next32_cached : (after (after blank 0x202 0 0) 0x202 0 0).res = 0x157A3807
    ∧ busRead (after (after blank 0x202 0 0) 0x202 0 0) 0x0D0 = 0x157A3807 := by decide +kernel

/-- V20: NEXT64 of MT32 after reset. -/
theorem test_next64_mt32 : (after .reset 0x003 0 0).res = 0x3FA2362338FA935F
    ∧ (after .reset 0x003 0 0).gen.mt32.idx = 2 := by decide +kernel

/-- V31: nm = 2^40; the word 2^40 is rejected, two chunks make the result. -/
theorem test_next64_ext : (oneStep (busyWith
      { blank with gen := { blank.gen with extNativeMax := 0x10000000000 } }
      (latched 0x303 0 0 [0x10000000000, 0x12345, 0xABCDEF]))).res = 0x0123450000ABCDEF := by
  decide +kernel

/-- V30, and V32 with its cache. -/
theorem test_getu32 : (after blank 0x204 6 0).res = 3
    ∧ (afterDrawn 0x304 5 0 [0xFFFFFFFFFFFFFFFF]).res = 4
    ∧ busRead (afterDrawn 0x304 5 0 [0xFFFFFFFFFFFFFFFF]) 0x0D8 = 0x1FFFFFFFF := by decide +kernel

/-- V60: InvalidRange, nothing drawn. -/
theorem test_getu32_invalid : busRead (after blank 0x204 0 0) 0x010 = 0x10
    ∧ (after blank 0x204 0 0).gen.addState = 0x0123456789ABCDEF
    ∧ busRead (after blank 0x204 0 0) 0x0D0 = 0 := by decide +kernel

/-- V30, V34. -/
theorem test_getu32r : (after blank 0x605 100 200).res = 164
    ∧ (afterDrawn 0x305 10 20 [0xFFFFFFFF]).res = 19 := by decide +kernel

/-- V60: max below min is InvalidRange even when inclusive (C7). -/
theorem test_getu32r_invalid : busRead (after blank 0x605 20 10) 0x010 = 0x10 := by decide +kernel

/-- V30; V60: -1 is below 0. -/
theorem test_geti32 : (after blank 0x206 1000 0).res = 642
    ∧ busRead (after blank 0x606 0xFFFFFFFF 0) 0x010 = 0x10 := by decide +kernel

/-- V46, V47. -/
theorem test_geti32r : (afterDrawn 0x707 0x80000000 0x7FFFFFFF [0xFFFFFFFF]).res = 0x7FFFFFFF
    ∧ (afterDrawn 0x307 0xFFFFFFFFFFFFFFFD 3 [0x80000000]).res = 0 := by decide +kernel

/-- V36 (the sum is one below the exact floor), V40. -/
theorem test_getu64 :
    (afterDrawn 0x708 0xFFFFFFFFFFFFFFFE 0 [0xFFFFFFFFFFFFFFFF]).res = 0xFFFFFFFFFFFFFFFD
    ∧ (afterDrawn 0x308 0x100000000 0 [0xFFFFFFFF00000000]).res = 0xFFFFFFFF := by decide +kernel

/-- V30, V44. -/
theorem test_getu64r : (after blank 0x209 1000000000000 1010000000000).res = 1000838961618
    ∧ (afterDrawn 0x709 5 5 [77]).res = 5 := by decide +kernel

/-- V48, V49. -/
theorem test_geti64 : (afterDrawn 0x30A 10 0 [0xFFFFFFFF]).res = 9
    ∧ (afterDrawn 0x70A 0x7FFFFFFFFFFFFFFF 0 [0xFFFFFFFFFFFFFFFF]).res = 0x7FFFFFFFFFFFFFFF := by
  decide +kernel

/-- V45, V30. -/
theorem test_geti64r :
    (afterDrawn 0x70B 0x8000000000000000 0x7FFFFFFFFFFFFFFF [0x8000000000000000]).res = 0
    ∧ (after blank 0x20B 0xFFFFFFFFFFFFFFFB 5).res = 1 := by decide +kernel

/-- R150: no result, no error. -/
theorem test_nop : (after { blank with res := 7, err := .invalidRange } 0x300 0 0).res = 7
    ∧ busRead (after { blank with res := 7, err := .invalidRange } 0x300 0 0) 0x010 = 0 := by
  decide +kernel

/-- V20: words of MT32 after its default seeding. -/
theorem test_seedDefault : (after blank 0x010 0 0).gen.mt32.word 1 = 0x6CF23357
    ∧ (after blank 0x010 0 0).gen.mt32.word 623 = 0x049ED813 := by decide +kernel

/-- V22: words of MT32 after scalar seed 5489; V60: EXT has no seed. -/
theorem test_seedScalar : (after blank 0x011 5489 0).gen.mt32.word 1 = 0x4D98EE96
    ∧ (after blank 0x011 5489 0).gen.mt32.word 623 = 0x04C46D8C
    ∧ busRead (after blank 0x311 5489 0) 0x010 = 0x30 := by decide +kernel

/-- V50: KEY[0] seeds ADD64; V60: L = 625 is BufferBounds. -/
theorem test_seedKey :
    (after { blank with key := blank.key.set 0 0xAAAA } 0x212 1 0).gen.addState = 0xAAAA
    ∧ busRead (after blank 0x212 625 0) 0x010 = 0x20 := by decide +kernel

/-- V50: 2^63 and M64 steps in closed form. -/
theorem test_discard_add64 :
    (after blank 0x218 0x8000000000000000 0).gen.addState = 0x8123456789ABCDEF
    ∧ (after blank 0x218 0xFFFFFFFFFFFFFFFF 0).gen.addState = 0x62EBCBAE0A6151DA := by
  decide +kernel

/-- V21: 313 steps of MT64 from the end of its array take two reloads. -/
theorem test_discard_mt64 : (after .reset 0x118 313 0).gen.mt64.idx = 1 := by decide +kernel

/-- V23; bits 63:32 of the operand are ignored on MT32. -/
theorem test_temper : (after blank 0x020 0x1FFFFFFFF 0).res = 0x6FE01BF8
    ∧ (after blank 0x120 1 0).res = 0x0040002000020801 := by decide +kernel

/-- V51. -/
theorem test_whiten : (after blank 0x221 1 0).res = 0x5692161D100B05E5
    ∧ busRead (after blank 0x021 1 0) 0x010 = 0x30 := by decide +kernel

/-- R102: on an empty FIFO the engine holds; else it pops the head. -/
theorem test_extDraw : busRead (afterDrawn 0x301 0 0 []) 0x010 = 0x03
    ∧ (oneStep (busyWith { blank with extFifo := [5, 6] } (latched 0x301 0 0))).engine
        = .busy (latched 0x301 0 0 [5])
    ∧ (oneStep (busyWith { blank with extFifo := [5, 6] } (latched 0x301 0 0))).extFifo = [6] := by
  decide +kernel

/-- P6: held with BUSY and WAIT_EXT; a push lifts the hold (R25, R102). -/
theorem test_push_lifts_hold :
    busRead (busWrite (afterDrawn 0x302 0 0 []) 0x050 0xDEADBEEFCAFEF00D) 0x010 = 0x01
    ∧ busRead (busWrite (afterDrawn 0x302 0 0 []) 0x050 0xDEADBEEFCAFEF00D) 0x058 = 1 := by
  decide +kernel

/-- V60: RSV, OP and INCL. -/
theorem test_illegal : busRead (after blank 0x1001 0 0) 0x010 = 0x40
    ∧ busRead (after blank 0x013 0 0) 0x010 = 0x40
    ∧ busRead (after blank 0x418 0 0) 0x010 = 0x40 := by decide +kernel

/-! ### Witnesses: for every statement with hypotheses, a state and operands that meet them -/

/-- The engine of `busyWith` is busy: the hypothesis most statements about a command have. -/
theorem busyWith_engine (s : State) (l : Latched) : (busyWith s l).engine = .busy l := rfl

/-- A command that completes on a blank block, whatever it is. -/
theorem blank_exec_next (i : Instr) (l : Latched) : ∃ t, exec i (busyWith blank l) = .next t :=
  exec_next i _

/-- The blank block with another EXT maximum and EXT FIFO. -/
def blankExt (nativeMax : U64) (fifo : List U64) : State :=
  { blank with gen := { blank.gen with extNativeMax := nativeMax }, extFifo := fifo }

/-- A blank block meets the invariant, with an EXT command holding words it has drawn. -/
theorem busyExt_inv :
    ({ busyWith (blankExt 5 []) (latched 0x303 0 0 [4, 5]) with waitExt := true }).Inv where
  idx32 := by decide
  idx64 := by decide
  nativeMax := by show (5 : U64) ≠ 0; decide
  fifoDepth := Nat.zero_le _
  fifoWords := fun _ h => absurd h List.not_mem_nil
  drawnWords := by
    rintro l ⟨⟩
    show ∀ v ∈ [(4 : U64), 5], v ≤ 5
    intro v hv
    simp only [List.mem_cons, List.not_mem_nil, or_false] at hv
    rcases hv with rfl | rfl <;> decide
  drawnExt := by rintro l ⟨⟩ _; exact ⟨.next64 .ext, by decide, rfl⟩
  held := fun _ => ⟨rfl, _, .next64 .ext, rfl, by decide, rfl⟩

theorem witness_StepKeepsInvariant : ∃ s t : State, s.Inv ∧ step s = .next t ∧ s.waitExt = true :=
  ⟨_, _, busyExt_inv, rfl, rfl⟩

theorem witness_DecodeIffRowMatches :
    decode 0x604 = .ok (.getu32 .add64 true) ∧ Instr.ranged (.getu32 .add64 true) = true
      ∧ illegalWord 0x80C := by
  refine ⟨by decide, rfl, .inl ?_⟩; decide

/-- One illegal word of each kind: a RSV bit, each end of each range of reserved opcodes, INCL. -/
theorem witness_IllegalWordCompletes : ∀ c ∈ [(0x800 : U64), 0x8000000000000000, 0x0C, 0x0F, 0x13,
      0x17, 0x19, 0x1F, 0x22, 0xFF, 0x403, 0x410],
    (busyWith blank (latched c 0 0)).schedule = []
      ∧ (busyWith blank (latched c 0 0)).engine = .busy (latched c 0 0)
      ∧ (busyWith { blank with schedule := [.engine] } (latched c 0 0)).schedule = .engine :: []
      ∧ illegalWord c := by
  intro c hc
  refine ⟨rfl, rfl, rfl, ?_⟩
  simp only [List.mem_cons, List.not_mem_nil, or_false] at hc
  rcases hc with rfl | rfl | rfl | rfl | rfl | rfl | rfl | rfl | rfl | rfl | rfl | rfl <;>
    (unfold illegalWord; decide)

theorem witness_StepRunsDecodedInstruction :
    (busyWith blank (latched 0x201 0 0)).schedule = []
      ∧ (busyWith blank (latched 0x201 0 0)).engine = .busy (latched 0x201 0 0)
      ∧ decode 0x201 = .ok (.next .add64)
      ∧ (blank.withFetchWord 64 0x201).schedule = .engine :: []
      ∧ blank.engine = .idle ∧ blank.schedule = []
      ∧ ({ blank with schedule := [.engine] } : State).engine = .idle
      ∧ ({ blank with schedule := [.engine] } : State).schedule = .engine :: []
      ∧ ({ blank with schedule := [.read 64 0x010] } : State).schedule = [.read 64 0x010]
      ∧ ({ blank with schedule := [.powerOn] } : State).schedule = [.powerOn] := by
  refine ⟨rfl, rfl, by decide, rfl, rfl, rfl, rfl, rfl, rfl, rfl⟩

theorem witness_OnlyUnsupportedAccessStops :
    ((32 : Nat) ≠ 64) ∧ (0xFFC : Offset).toNat % 8 ≠ 0 ∧ (0x001 : Offset).toNat % 8 ≠ 0 := by decide

theorem witness_CommandsKeepOtherState :
    ∃ t, exec (.next .add64) (busyWith blank (latched 0x201 0 0)) = .next t
      ∧ t.gen.addState ≠ blank.gen.addState ∧ Instr.inst (.next .add64) ≠ .ext :=
  ⟨_, rfl, by decide +kernel, by decide⟩

/-- Two blocks that differ in another instance, in a register and in the sticky bits. -/
theorem witness_CommandsAreReproducible :
    ∃ s s' : State, s.engine = .busy (latched 0x201 0 0) ∧ s'.engine = .busy (latched 0x201 0 0)
      ∧ SameInstance .add64 s.gen s'.gen ∧ s.key = s'.key
      ∧ s.gen.extNativeMax ≠ s'.gen.extNativeMax ∧ s.res ≠ s'.res :=
  ⟨busyWith blank (latched 0x201 0 0),
    busyWith { blankExt 5 [1] with res := 9, cmdDropped := true } (latched 0x201 0 0),
    rfl, rfl, ⟨nofun, nofun, fun _ => rfl, rfl, rfl⟩, rfl, by decide, by decide⟩

theorem witness_ImmediateInstancesComplete :
    (busyWith blank (latched 0x101 0 0)).engine = .busy (latched 0x101 0 0)
      ∧ Instr.inst (.next .mt64) ≠ .ext := ⟨rfl, by decide⟩

/-- TEMPER on ADD64 fails; so it does on a block that differs in everything but the operands. -/
theorem witness_ErrorsArePrecise :
    (∃ t, exec (.temper .add64) (busyWith blank (latched 0x220 1 2)) = .next t
      ∧ t.engine = .idle ∧ t.err ≠ .ok)
    ∧ FailsWith (.temper .add64) (busyWith blank (latched 0x220 1 2)) .unsupportedOperation
    ∧ (busyWith (blankExt 5 [1]) (latched 0x220 1 2 [3])).engine = .busy (latched 0x220 1 2 [3]) :=
  ⟨⟨_, rfl, rfl, by decide⟩, rfl, rfl⟩

/-- Each sticky bit, set, is cleared by each of the three events. -/
theorem witness_StickyBitsStay :
    ∀ e ∈ [Event.write 64 0x010 0x300, .write 64 0x008 1, .powerOn],
      ∃ t, step { blank with cmdDropped := true, pushDropped := true, schedule := [e] } = .next t
        ∧ t.cmdDropped = false ∧ t.pushDropped = false := by
  intro e he
  simp only [List.mem_cons, List.not_mem_nil, or_false] at he
  rcases he with rfl | rfl | rfl <;> exact ⟨_, rfl, rfl, rfl⟩

theorem takesWord_next (fifo : List U64) :
    TakesWord (.next .ext) (busyWith (blankExt 5 fifo) (latched 0x301 0 0)) (latched 0x301 0 0) := by
  constructor
  · intro h; change fifo = [] at h; subst h; rfl
  · intro v rest h; change fifo = _ at h; subst h; rfl

theorem witness_EmptyFifoHoldsForever :
    EngineRuns (busyWith (blankExt 5 []) (latched 0x301 0 0)) (latched 0x301 0 0) (.next .ext)
      ∧ TakesWord (.next .ext) (busyWith (blankExt 5 []) (latched 0x301 0 0)) (latched 0x301 0 0)
      ∧ (busyWith (blankExt 5 []) (latched 0x301 0 0)).extFifo = [] :=
  ⟨⟨rfl, rfl, by decide⟩, takesWord_next [], rfl⟩

theorem witness_ResetEvents : (1 : U64).getLsbD 0 = true ∧ (0xFFFFFFFFFFFFFFFE : U64).getLsbD 0 = false
    := by decide

/-- A RES read while busy, and the first and last offset. -/
theorem witness_ReadsChangeNothing : (0x030 : Offset).toNat % 8 = 0 ∧ (0x000 : Offset).toNat % 8 = 0
    ∧ (0xFF8 : Offset).toNat % 8 = 0
    ∧ (busyWith blank (latched 0 0 0)).engine ≠ .idle :=
  ⟨by decide, by decide, by decide, by rw [busyWith_engine]; simp⟩

/-- The ends of both reserved ranges; a full FIFO. -/
theorem witness_InertAccesses :
    (∀ offset ∈ [(0x0A8 : Offset), 0x0B8, 0x0E0, 0xFF8], offset.toNat % 8 = 0
      ∧ ((0x0A0 < offset.toNat ∧ offset.toNat < 0x0C0) ∨ 0x0D8 < offset.toNat))
    ∧ (blankExt 5 (List.replicate 16 1)).extFifo.length ≤ 16 := by
  refine ⟨fun offset h => ?_, by decide⟩
  simp only [List.mem_cons, List.not_mem_nil, or_false] at h
  rcases h with rfl | rfl | rfl | rfl <;> decide

/-- Every error code. -/
theorem witness_StatusRegister : ∀ e ∈ [Completion.ok, .invalidRange, .bufferBounds,
      .unsupportedOperation, .illegalCommand],
    (busRead { blank with err := e } 0x010).extractLsb' 4 3 = e.code := by decide +kernel

theorem witness_CommandIssue : blank.engine = .idle
    ∧ (busyWith blank (latched 0x301 0 0)).engine = .busy (latched 0x301 0 0) := ⟨rfl, rfl⟩

theorem witness_LockedRegisters :
    (busyWith blank (latched 0x301 0 0)).engine = .busy (latched 0x301 0 0)
      ∧ (0x038 : Offset) ∈ [(0x038 : Offset), 0x068, 0x078, 0x080, 0x090, 0x098, 0x0A0, 0x0C0, 0x0C8,
          0x0D0, 0x0D8] := ⟨rfl, by decide⟩

theorem witness_OperandAndResultRegisters : blank.engine = .idle
    ∧ (busyWith blank (latched 0x301 0 0)).engine = .busy (latched 0x301 0 0) := ⟨rfl, rfl⟩

theorem witness_ExtNativeMaxWrite : blank.engine = .idle ∧ (0 : U64) = 0 ∧ (1 : U64) ≠ 0
    ∧ (busyWith blank (latched 0x301 0 0)).engine = .busy (latched 0x301 0 0) :=
  ⟨rfl, rfl, by decide, rfl⟩

/-- The smallest and the largest maximum. -/
theorem witness_RangeContextValues : (1 : U64) ≠ 0 ∧ (0xFFFFFFFFFFFFFFFF : U64) ≠ 0
    ∧ (1 ≤ 1 ∧ 1 ≤ 64 ∧ 2 ^ 1 - 1 ≤ (1 : U64).toNat)
    ∧ (1 ≤ 64 ∧ 64 ≤ 64 ∧ 2 ^ 64 - 1 ≤ (0xFFFFFFFFFFFFFFFF : U64).toNat)
    ∧ (blankExt 1 []).gen.extNativeMax ≠ 0 := by
  refine ⟨by decide, by decide, by decide, by decide, by decide⟩

/-- A full FIFO; one word short of full, with a word at the maximum and one above it. -/
theorem witness_ExtPushWrite :
    16 ≤ (blankExt 5 (List.replicate 16 1)).extFifo.length
    ∧ (blankExt 5 (List.replicate 15 1)).extFifo.length < 16
    ∧ (blankExt 5 []).gen.extNativeMax < 6 ∧ 5 ≤ (blankExt 5 []).gen.extNativeMax := by
  refine ⟨by decide, by decide, by decide, by decide⟩

theorem witness_KeyWindow : ({ blank with keyAddr := 623 } : State).keyAddr.toNat < 624
    ∧ 624 ≤ ({ blank with keyAddr := 624 } : State).keyAddr.toNat ∧ blank.engine = .idle :=
  ⟨by decide, by decide, rfl⟩

theorem witness_Mt32Windows : ({ blank with mt32Addr := 623 } : State).mt32Addr.toNat < 624
    ∧ 624 ≤ ({ blank with mt32Addr := 624 } : State).mt32Addr.toNat
    ∧ blank.gen.mt32.idx ≤ 624 ∧ blank.engine = .idle :=
  ⟨by decide, by decide, by decide, rfl⟩

theorem witness_Mt64Windows : ({ blank with mt64Addr := 311 } : State).mt64Addr.toNat < 312
    ∧ 312 ≤ ({ blank with mt64Addr := 312 } : State).mt64Addr.toNat
    ∧ blank.gen.mt64.idx ≤ 312 ∧ blank.engine = .idle :=
  ⟨by decide, by decide, by decide, rfl⟩

theorem witness_AddStateAndCacheWindows : blank.engine = .idle
    ∧ ((0x0D8 : Offset), Inst.ext) ∈ [((0x0C0 : Offset), Inst.mt32), (0x0C8, .mt64), (0x0D0, .add64),
        (0x0D8, .ext)] := ⟨rfl, by decide⟩

theorem witness_CloneByWindows : blank.engine = .idle ∧ (blankExt 5 [1]).engine = .idle
    ∧ blank.gen.extNativeMax ≠ 0 := ⟨rfl, rfl, by decide⟩

/-- The blank block with other indexes. -/
def blankIdx (i j : Nat) : State :=
  { blank with gen := { blank.gen with
      mt32 := { blank.gen.mt32 with idx := i }, mt64 := { blank.gen.mt64 with idx := j } } }

/-- An index at the last word, and one past the end. -/
theorem witness_NextResult :
    (busyWith blank (latched 0x001 0 0)).engine = .busy (latched 0x001 0 0)
    ∧ (blankIdx 623 311).gen.mt32.idx = 623 ∧ (blankIdx 623 311).gen.mt64.idx = 311
    ∧ 624 ≤ (blankIdx 624 312).gen.mt32.idx ∧ 312 ≤ (blankIdx 624 312).gen.mt64.idx :=
  ⟨rfl, rfl, rfl, by decide, by decide⟩

theorem witness_NextOnExt :
    (busyWith blank (latched 0x301 0 0)).engine = .busy (latched 0x301 0 0)
    ∧ (latched 0x301 0 0).drawn = [] ∧ (latched 0x301 0 0 [7, 8]).drawn = 7 :: [8] :=
  ⟨rfl, rfl, rfl⟩

theorem witness_Next64Result :
    (busyWith blank (latched 0x003 0 0)).engine = .busy (latched 0x003 0 0) := rfl

/-- The three kinds of maximum, each before its last word and with it; the words of V31. -/
theorem witness_Next64OnExt :
    blank.gen.extNativeMax = 0xFFFFFFFFFFFFFFFF ∧ (latched 0x303 0 0 [7]).drawn = [7]
    ∧ (blankExt 0xFFFFFFFF []).gen.extNativeMax = 0xFFFFFFFF
    ∧ (latched 0x303 0 0 [7]).drawn.length < 2 ∧ (latched 0x303 0 0 [7, 8]).drawn = [7, 8]
    ∧ (blankExt 0x7FFFFFFE []).gen.extNativeMax ≠ 0
    ∧ ([0x3FFFFFFF, 0x40000000, 1].filter
        (fun v : U64 => decide (v ≤ (rangeContext 0x7FFFFFFE).shiftMax))).length
      < (64 + (rangeContext 0x7FFFFFFE).shiftBits - 1) / (rangeContext 0x7FFFFFFE).shiftBits
    ∧ ([0x3FFFFFFF, 0x40000000, 1, 0x2AAAAAAA].filter
        (fun v : U64 => decide (v ≤ (rangeContext 0x7FFFFFFE).shiftMax))).length
      = (64 + (rangeContext 0x7FFFFFFE).shiftBits - 1) / (rangeContext 0x7FFFFFFE).shiftBits := by
  refine ⟨rfl, rfl, rfl, by decide, rfl, by decide, by decide, by decide⟩

/-- The blank block with TOGGLE set in three caches. -/
def blankToggled : State :=
  { blank with gen := { blank.gen with
      cacheMt64 := { half := 5, toggle := true }
      cacheAdd64 := { half := 6, toggle := true }
      cacheExt := { half := 7, toggle := true } } }

theorem witness_Next32Result :
    (busyWith blankToggled (latched 0x102 0 0)).engine = .busy (latched 0x102 0 0)
    ∧ blankToggled.gen.cacheMt64.toggle = true ∧ blank.gen.cacheMt64.toggle = false
    ∧ blankToggled.gen.cacheAdd64.toggle = true ∧ blank.gen.cacheAdd64.toggle = false :=
  ⟨rfl, rfl, rfl, rfl, rfl⟩

theorem witness_Next32OnExt :
    (busyWith blankToggled (latched 0x302 0 0)).engine = .busy (latched 0x302 0 0)
    ∧ (blankExt 0xFFFFFFFF []).gen.extNativeMax = 0xFFFFFFFF
    ∧ blank.gen.extNativeMax ≠ 0xFFFFFFFF
    ∧ blankToggled.gen.cacheExt.toggle = true ∧ blank.gen.cacheExt.toggle = false :=
  ⟨rfl, rfl, by decide, rfl, rfl⟩

/-- One word and two words for the native maxima; for 2^31 - 2 two rejected words among three accepted
(V31); for the maximum 1 its 64 words, more than the FIFO holds. -/
theorem witness_AssemblesTo :
    AssemblesTo 0xFFFFFFFFFFFFFFFF [7] 7
    ∧ AssemblesTo 0xFFFFFFFF [1, 0xFFFFFFFF] 0x1FFFFFFFF
    ∧ AssemblesTo 0x7FFFFFFE [0x7FFFFFFE, 0x3FFFFFFF, 0x40000000, 1, 0x2AAAAAAA] 0xF00000006AAAAAAA
    ∧ AssemblesTo 1 (List.replicate 63 1 ++ [1]) 0xFFFFFFFFFFFFFFFF := by
  refine ⟨⟨7, rfl, rfl⟩, ?_, ?_, ?_⟩
  · exact ⟨1, 0xFFFFFFFF, rfl, by decide⟩
  · exact ⟨by decide, ⟨[0x7FFFFFFE, 0x3FFFFFFF, 0x40000000, 1], 0x2AAAAAAA, rfl, by decide⟩, by decide⟩
  · exact ⟨by decide, ⟨List.replicate 63 1, 1, rfl, by decide⟩, by decide +kernel⟩

/-- A block with the words in its FIFO, and one whose host pushes the 64 words of the maximum 1. -/
theorem witness_ExtAssemblyRuns :
    decode (latched 0x303 0 0).cmd = .ok (.next64 .ext) ∧ (latched 0x303 0 0).drawn = []
    ∧ (0x7FFFFFFE : U64) ≠ 0 ∧ (1 : U64) ≠ 0
    ∧ (busyWith (blankExt 0x7FFFFFFE [0x7FFFFFFE, 0x3FFFFFFF, 0x40000000, 1, 0x2AAAAAAA])
        (latched 0x303 0 0)).schedule = []
    ∧ (∀ w ∈ List.replicate 63 (1 : U64) ++ [1], w ≤ 1)
    ∧ ∃ s : State, s.engine = .busy (latched 0x303 0 0) ∧ s.gen.extNativeMax = 1 ∧ s.extFifo = []
        ∧ s.schedule = (List.replicate 63 1 ++ [1]).flatMap
            (fun w => [Event.write 64 0x050 w, .engine]) ++ .engine :: [] := by
  refine ⟨by decide, rfl, by decide, by decide, rfl, by simp, ?_⟩
  exact ⟨{ busyWith (blankExt 1 []) (latched 0x303 0 0) with
    schedule := (List.replicate 63 1 ++ [1]).flatMap
      (fun w => [Event.write 64 0x050 w, .engine]) ++ .engine :: [] }, rfl, rfl, rfl, rfl⟩

/-- Legal ranges of width 1 and of full width; a draw that exists and, on EXT, one that lacks a word. -/
theorem witness_UnsignedRanged32 :
    (true = true ∨ (0 : U64).toNat % 2 ^ 32 ≠ 0)
    ∧ ((6 : U64).toNat % 2 ^ 32 < (7 : U64).toNat % 2 ^ 32)
    ∧ (true = true ∧ (7 : U64).toNat % 2 ^ 32 = (7 : U64).toNat % 2 ^ 32)
    ∧ (∃ r src, next32 .ext ((busyWith blank (latched 0x304 1 0 [9])).source
        (latched 0x304 1 0 [9])) = some (r, src))
    ∧ next32 .ext ((busyWith blank (latched 0x304 1 0)).source (latched 0x304 1 0)) = none
    ∧ Inst.add64 ≠ .ext := by
  refine ⟨.inl rfl, by decide, by decide, ⟨_, _, rfl⟩, rfl, by decide⟩

theorem witness_SignedRanged32 :
    (0 < ((1 : U64).extractLsb' 0 32).toInt) ∧ (((0 : U64).extractLsb' 0 32).toInt = 0)
    ∧ (((0x80000000 : U64).extractLsb' 0 32).toInt < ((0x7FFFFFFF : U64).extractLsb' 0 32).toInt) := by
  decide

/-- A width operand at each side of 2^32, and the full width; draws as above. -/
theorem witness_UnsignedRanged64 :
    ((0xFFFFFFFF : U64).toNat ≠ 0 ∧ (0xFFFFFFFF : U64).toNat < 2 ^ 32)
    ∧ 2 ^ 32 ≤ (0x100000000 : U64).toNat
    ∧ ((0 : U64).toNat < (0xFFFFFFFFFFFFFFFF : U64).toNat)
    ∧ (∃ r src, next64 .ext ((busyWith blank (latched 0x308 1 0 [9])).source
        (latched 0x308 1 0 [9])) = some (r, src))
    ∧ next64 .ext ((busyWith blank (latched 0x308 1 0)).source (latched 0x308 1 0)) = none := by
  refine ⟨by decide, by decide, by decide, ⟨_, _, rfl⟩, rfl⟩

theorem witness_SignedRanged64 :
    (0 < (1 : U64).toInt) ∧ ((0 : U64).toInt = 0)
    ∧ ((0x8000000000000000 : U64).toInt < (0x7FFFFFFFFFFFFFFF : U64).toInt) := by decide

/-- Each of the eight commands failing with InvalidRange, on EXT too, where nothing is drawn. -/
theorem witness_InvalidRangeRaised :
    FailsWith (.getu32 .ext false) (busyWith blank (latched 0x304 0 0)) .invalidRange
    ∧ FailsWith (.getu32r .ext true) (busyWith blank (latched 0x705 20 10)) .invalidRange
    ∧ FailsWith (.geti32 .ext true) (busyWith blank (latched 0x706 0xFFFFFFFF 0)) .invalidRange
    ∧ FailsWith (.geti32r .ext false) (busyWith blank (latched 0x307 7 7)) .invalidRange
    ∧ FailsWith (.getu64 .ext false) (busyWith blank (latched 0x308 0 0)) .invalidRange
    ∧ FailsWith (.getu64r .ext true) (busyWith blank (latched 0x709 20 10)) .invalidRange
    ∧ FailsWith (.geti64 .ext true) (busyWith blank (latched 0x70A 0xFFFFFFFFFFFFFFFF 0)) .invalidRange
    ∧ FailsWith (.geti64r .ext false) (busyWith blank (latched 0x30B 7 7)) .invalidRange :=
  ⟨rfl, rfl, rfl, rfl, rfl, rfl, rfl, rfl⟩

/-- Each of the eight commands completing with a value, from drawn EXT words. -/
theorem witness_RangedResultsInBounds :
    (∃ g v, CompletesWith (.getu32 .ext false) (busyWith blank (latched 0x304 5 0 [9])) g v)
    ∧ (∃ g v, CompletesWith (.getu32r .ext true) (busyWith blank (latched 0x705 7 7 [9])) g v)
    ∧ (∃ g v, CompletesWith (.geti32 .ext false) (busyWith blank (latched 0x306 5 0 [9])) g v)
    ∧ (∃ g v, CompletesWith (.geti32r .ext true) (busyWith blank (latched 0x707 7 7 [9])) g v)
    ∧ (∃ g v, CompletesWith (.getu64 .ext false) (busyWith blank (latched 0x308 5 0 [9])) g v)
    ∧ (∃ g v, CompletesWith (.getu64r .ext true) (busyWith blank (latched 0x709 7 7 [9])) g v)
    ∧ (∃ g v, CompletesWith (.geti64 .ext false) (busyWith blank (latched 0x30A 5 0 [9])) g v)
    ∧ (∃ g v, CompletesWith (.geti64r .ext true) (busyWith blank (latched 0x70B 7 7 [9])) g v) :=
  ⟨⟨_, _, rfl⟩, ⟨_, _, rfl⟩, ⟨_, _, rfl⟩, ⟨_, _, rfl⟩, ⟨_, _, rfl⟩, ⟨_, _, rfl⟩, ⟨_, _, rfl⟩,
    ⟨_, _, rfl⟩⟩

theorem witness_NopResult :
    (busyWith blank (latched 0x300 0 0)).engine = .busy (latched 0x300 0 0) := rfl

theorem witness_SeedDefaultResult :
    (busyWith blank (latched 0x010 0 0)).engine = .busy (latched 0x010 0 0) := rfl

theorem witness_SeedScalarResult :
    (busyWith blank (latched 0x011 5489 0)).engine = .busy (latched 0x011 5489 0) := rfl

/-- L = 0, 1, 624 and 625. -/
theorem witness_SeedKeyResult :
    (busyWith blank (latched 0x012 1 0)).engine = .busy (latched 0x012 1 0)
    ∧ 624 < (latched 0x012 625 0).opa.toNat ∧ (latched 0x012 0 0).opa = 0
    ∧ 1 ≤ (latched 0x012 1 0).opa.toNat ∧ (latched 0x012 624 0).opa.toNat ≤ 624 := by
  refine ⟨rfl, by decide, by decide, by decide, by decide⟩

theorem witness_DiscardResult :
    (busyWith blank (latched 0x318 3 0)).engine = .busy (latched 0x318 3 0)
    ∧ (latched 0x318 3 0 [1, 2]).drawn.length < (latched 0x318 3 0).opa.toNat
    ∧ (latched 0x318 3 0).opa.toNat ≤ (latched 0x318 3 0 [1, 2, 3]).drawn.length := by
  refine ⟨rfl, by decide, by decide⟩

/-- The last count without a reload and the first one with. -/
theorem witness_MtDiscardClosedForm :
    (busyWith (blankIdx 600 300) (latched 0x018 24 0)).engine = .busy (latched 0x018 24 0)
    ∧ (blankIdx 600 300).gen.mt32.idx ≤ 624 ∧ (blankIdx 600 300).gen.mt64.idx ≤ 312
    ∧ (24 : U64).toNat ≤ 624 - (blankIdx 600 300).gen.mt32.idx
    ∧ 624 - (blankIdx 600 300).gen.mt32.idx < (25 : U64).toNat
    ∧ (12 : U64).toNat ≤ 312 - (blankIdx 600 300).gen.mt64.idx
    ∧ 312 - (blankIdx 600 300).gen.mt64.idx < (13 : U64).toNat := by
  refine ⟨rfl, by decide, by decide, by decide, by decide, by decide, by decide⟩

theorem witness_DiscardLaw :
    (busyWith blank (latched 0x218 2 0)).engine = .busy (latched 0x218 2 0) ∧ Inst.add64 ≠ .ext :=
  ⟨rfl, by decide⟩

theorem witness_ScalarRecurrence : 0 + 1 < 624 ∧ 622 + 1 < 624 ∧ 0 + 1 < 312 ∧ 310 + 1 < 312 := by decide

theorem witness_KeySeedMeetsPseudocode : [(5 : U32)] ≠ [] ∧ [(5 : U64)] ≠ [] := by decide

/-- n draws up to the end of the array exactly. -/
theorem witness_DrawsKeepArrayUntilExhausted :
    (blankIdx 600 300).gen.mt32.idx + 24 ≤ 624 ∧ (blankIdx 600 300).gen.mt64.idx + 12 ≤ 312 := by
  decide

/-- Degenerate arrays whose word 0 still has its lower bits, at index 0 and at index 1. -/
theorem witness_DegenerateArrayDrawsZero :
    (∃ g : Mt 32 624, g.words[0] &&& 0x80000000 = 0 ∧ g.words[0] ≠ 0
      ∧ (∀ k (h : k < 624), k ≠ 0 → g.words[k] = 0) ∧ g.idx = 0)
    ∧ (∃ g : Mt 64 312, g.words[0] &&& 0xFFFFFFFF80000000 = 0 ∧ g.words[0] ≠ 0
      ∧ (∀ k (h : k < 312), k ≠ 0 → g.words[k] = 0) ∧ 1 ≤ g.idx) := by
  refine ⟨⟨{ words := (Vector.replicate 624 0).set 0 0x7FFFFFFF, idx := 0 }, ?_, ?_, ?_, ?_⟩,
    ⟨{ words := (Vector.replicate 312 0).set 0 0x7FFFFFFF, idx := 1 }, ?_, ?_, ?_, ?_⟩⟩ <;>
    first
      | (intro k h hk; simp [Ne.symm hk])
      | simp

/-- The four words of TEMPER and the two of WHITEN exist for every operand; here for 1 (V23, V51). -/
theorem witness_TestHookResults :
    (busyWith blank (latched 0x020 1 0)).engine = .busy (latched 0x020 1 0)
    ∧ (∃ y : U32, y = (latched 0x020 1 0).opa.extractLsb' 0 32
        ^^^ (((latched 0x020 1 0).opa.extractLsb' 0 32 >>> 11) &&& 0xFFFFFFFF))
    ∧ (∃ x : U64, x = (latched 0x120 1 0).opa
        ^^^ (((latched 0x120 1 0).opa >>> 29) &&& 0x5555555555555555))
    ∧ (∃ z : U64, z = ((latched 0x221 1 0).opa ^^^ ((latched 0x221 1 0).opa >>> 30))
        * 0xBF58476D1CE4E5B9) := ⟨rfl, ⟨_, rfl⟩, ⟨_, rfl⟩, ⟨_, rfl⟩⟩

end Sys2Proof.Tests
end

section
/-! PROOFS. The register window (rules R21 to R46 of 10_state.md, R60 to R63 of 20_memory.md): which
offsets hold a register, what an access to one comes to, and what the engine's state has to do with
it; then the statements of 10_state.md that rest on these. -/

namespace Sys2Proof.Machine

/-! ### Offsets -/

/-- A register stands at a multiple of 8, outside the reserved ranges (R21, R46). -/
theorem regAt_some_mapped {offset : Offset} {r : Reg} (h : regAt offset = some r) :
    offset.toNat % 8 = 0
      ∧ (offset.toNat ≤ 0x0A0 ∨ (0x0C0 ≤ offset.toNat ∧ offset.toNat ≤ 0x0D8)) := by
  unfold regAt at h
  split at h <;> cases h <;> omega

theorem regAt_reserved {offset : Offset}
    (h : (0x0A0 < offset.toNat ∧ offset.toNat < 0x0C0) ∨ 0x0D8 < offset.toNat) :
    regAt offset = none := by
  cases hr : regAt offset with
  | none => rfl
  | some r => have := (regAt_some_mapped hr).2; omega

/-! ### Accesses -/

theorem hostWrite_aligned {offset : Offset} (h : offset.toNat % 8 = 0) (s : State) (v : U64) :
    hostWrite s 64 offset v = .next (busWrite s offset v) := by
  simp [hostWrite, accessSupported, h]

theorem hostWrite_of_regAt {offset : Offset} {r : Reg} (h : regAt offset = some r) (s : State)
    (v : U64) : hostWrite s 64 offset v = .next (writeReg s r v) := by
  rw [hostWrite_aligned (regAt_some_mapped h).1, busWrite, h]

theorem busRead_of_regAt {offset : Offset} {r : Reg} (h : regAt offset = some r) (s : State) :
    busRead s offset = readReg s r := by
  rw [busRead, h]

theorem hostWrite_reserved {offset : Offset} (ha : offset.toNat % 8 = 0) (h : regAt offset = none)
    (s : State) (v : U64) : hostWrite s 64 offset v = .next s := by
  rw [hostWrite_aligned ha, busWrite, h]

theorem busRead_reserved {offset : Offset} (h : regAt offset = none) (s : State) :
    busRead s offset = 0 := by
  rw [busRead, h]

/-! ### The engine and the window -/

theorem State.busy_of_idle {s : State} (h : s.engine = .idle) : s.busy = false := by
  rw [State.busy, h]

theorem State.busy_of_busy {s : State} {l : Latched} (h : s.engine = .busy l) : s.busy = true := by
  rw [State.busy, h]

theorem State.unlessBusy_idle {s : State} (h : s.engine = .idle) (t : State) :
    s.unlessBusy t = t := by
  simp [State.unlessBusy, State.busy_of_idle h]

theorem State.unlessBusy_busy {s : State} {l : Latched} (h : s.engine = .busy l) (t : State) :
    s.unlessBusy t = s := by
  simp [State.unlessBusy, State.busy_of_busy h]

theorem State.issue_idle {s : State} (h : s.engine = .idle) (v : U64) :
    s.issue v
      = { s with engine := .busy { cmd := v, opa := s.opa, opb := s.opb, drawn := [] } } := by
  rw [State.issue, h]

theorem State.issue_busy {s : State} {l : Latched} (h : s.engine = .busy l) (v : U64) :
    s.issue v = { s with cmdDropped := true } := by
  rw [State.issue, h]

/-- No register shows what a busy engine has latched: STATUS and RES, the only two that look at the
engine, look at BUSY alone (R25, R29, R44). -/
theorem readReg_busy_irrelevant (s : State) (l l' : Latched) (r : Reg) :
    readReg { s with engine := .busy l } r = readReg { s with engine := .busy l' } r := by
  cases r <;> rfl

/-- The registers of the "locked" column of R21. -/
def Reg.locked : Reg → Bool
  | .extNativeMax | .keyData | .mt32Data | .mt32Idx | .mt64Data | .mt64Idx | .addState
  | .cache _ => true
  | _ => false

theorem writeReg_locked_busy {s : State} {l : Latched} (h : s.engine = .busy l) {r : Reg}
    (hr : r.locked = true) (v : U64) : writeReg s r v = s := by
  cases r with
  | extNativeMax | keyData | mt32Data | mt32Idx | mt64Data | mt64Idx | addState | cache =>
    exact State.unlessBusy_busy h _
  | _ => exact absurd hr (by decide)

/-- The value of a locked register does not depend on the engine. -/
theorem readReg_locked_engine {r : Reg} (hr : r.locked = true) (s : State) (e : Engine) :
    readReg { s with engine := e } r = readReg s r := by
  cases r with
  | extNativeMax | keyData | mt32Data | mt32Idx | mt64Data | mt64Idx | addState | cache => rfl
  | _ => exact absurd hr (by decide)

/-- The eleven locked offsets of R21 hold locked registers. -/
theorem regAt_locked {offset : Offset} (h : offset ∈ [(0x038 : Offset), 0x068, 0x078, 0x080, 0x090,
    0x098, 0x0A0, 0x0C0, 0x0C8, 0x0D0, 0x0D8]) : ∃ r, regAt offset = some r ∧ r.locked = true := by
  simp only [List.mem_cons, List.not_mem_nil, or_false] at h
  rcases h with rfl | rfl | rfl | rfl | rfl | rfl | rfl | rfl | rfl | rfl | rfl <;>
    exact ⟨_, rfl, rfl⟩

/-! ### EXT_NATIVE_MAX -/

theorem State.writeExtNativeMax_zero (s : State) : s.writeExtNativeMax 0 = s := if_pos rfl

theorem State.writeExtNativeMax_ne_zero (s : State) {v : U64} (h : v ≠ 0) :
    s.writeExtNativeMax v = { s with
      gen := { s.gen with extNativeMax := v, cacheExt := Cache.zero }, extFifo := [] } := if_neg h

/-! ### Composed register words -/

theorem getLsbD_bitAt (b : Bool) {k : Nat} (hk : k < 64) (j : Nat) :
    (bitAt b k).getLsbD j = (decide (j = k) && b) := by
  by_cases hj : j = k
  · subst hj
    simp [bitAt, hk]
  · have apart : j < k ∨ j - k ≠ 0 := by omega
    rcases apart with h | h <;> simp [bitAt, BitVec.getLsbD_ofBool, hj, h]

/-! ### RangeContext -/

theorem shiftBits_le (m : U64) : (rangeContext m).shiftBits ≤ 64 := largestShift_le ..

theorem one_le_shiftBits {m : U64} (h : m ≠ 0) : 1 ≤ (rangeContext m).shiftBits := by
  have : m.toNat ≠ 0 := fun h0 => h (BitVec.eq_of_toNat_eq h0)
  exact largestShift_max m.toNat 64 1 (by decide) le_rfl (by omega)

theorem toNat_shiftMax (m : U64) :
    (rangeContext m).shiftMax.toNat = 2 ^ (rangeContext m).shiftBits - 1 := by
  have hle : 2 ^ (rangeContext m).shiftBits - 1 ≤ m.toNat := largestShift_spec ..
  exact (BitVec.toNat_ofNat ..).trans (Nat.mod_eq_of_lt (hle.trans_lt m.isLt))

theorem isNative32_iff (m : U64) : (rangeContext m).isNative32 = true ↔ m.toNat = 2 ^ 32 - 1 := by
  simp [rangeContext, ← BitVec.toNat_inj]

theorem isNative64_iff (m : U64) : (rangeContext m).isNative64 = true ↔ m.toNat = 2 ^ 64 - 1 := by
  simp [rangeContext, ← BitVec.toNat_inj]

theorem rangeContext_native32 : rangeContext 0xFFFFFFFF =
    { nativeMax := 0xFFFFFFFF, isNative32 := true, isNative64 := false
      shiftBits := 32, shiftMax := 0xFFFFFFFF } := by decide

theorem rangeContext_native64 : rangeContext 0xFFFFFFFFFFFFFFFF =
    { nativeMax := 0xFFFFFFFFFFFFFFFF, isNative32 := false, isNative64 := true
      shiftBits := 64, shiftMax := 0xFFFFFFFFFFFFFFFF } := by decide

/-- The bits of EXT_RANGE_INFO (R31). -/
theorem getLsbD_infoWord (rc : RangeContext) (k : Nat) :
    rc.infoWord.getLsbD k = ((decide (k < 7) && rc.shiftBits.testBit k)
      || (decide (k = 8) && rc.isNative32) || (decide (k = 9) && rc.isNative64)) := by
  simp only [RangeContext.infoWord, BitVec.getLsbD_or, getLsbD_bitAt _ (show 8 < 64 by decide),
    getLsbD_bitAt _ (show 9 < 64 by decide), BitVec.getLsbD_setWidth, BitVec.getLsbD_ofNat]
  by_cases hk : k < 7
  · simp [hk, show k < 64 by omega]
  · simp [hk]

theorem toNat_infoWord_shiftBits {rc : RangeContext} (h : rc.shiftBits ≤ 64) :
    (rc.infoWord.extractLsb' 0 7).toNat = rc.shiftBits := by
  have low : rc.infoWord.extractLsb' 0 7 = BitVec.ofNat 7 rc.shiftBits := by
    refine BitVec.eq_of_getLsbD_eq fun k hk => ?_
    have h8 : k ≠ 8 := by omega
    have h9 : k ≠ 9 := by omega
    rw [BitVec.getLsbD_extractLsb', Nat.zero_add, getLsbD_infoWord, BitVec.getLsbD_ofNat]
    simp [hk, h8, h9]
  rw [low, BitVec.toNat_ofNat, Nat.mod_eq_of_lt (by omega)]

/-! ### The statements -/

/-- Settles O18: a reserved offset holds no register, and each inert access is the branch of its
register's rule that leaves the state or reads a constant. -/
theorem inertAccesses : Obligations.InertAccesses := by
  intro s v
  refine ⟨fun offset ha hres => ?_, fun offset h => ?_, fun offset h => ?_,
    busRead_of_regAt (r := .id) rfl s, fun hlen => ?_⟩
  · have hnone := regAt_reserved hres
    exact ⟨busRead_reserved hnone s, hostWrite_reserved ha hnone s v⟩
  · simp only [List.mem_cons, List.not_mem_nil, or_false] at h
    rcases h with rfl | rfl | rfl | rfl | rfl
    · exact hostWrite_of_regAt (r := .id) rfl s v
    · exact hostWrite_of_regAt (r := .res) rfl s v
    · exact hostWrite_of_regAt (r := .extRangeInfo) rfl s v
    · exact hostWrite_of_regAt (r := .extShiftMax) rfl s v
    · exact hostWrite_of_regAt (r := .extLevel) rfl s v
  · simp only [List.mem_cons, List.not_mem_nil, or_false] at h
    rcases h with rfl | rfl | rfl
    · exact busRead_of_regAt (r := .ctrl) rfl s
    · exact busRead_of_regAt (r := .cmd) rfl s
    · exact busRead_of_regAt (r := .extPush) rfl s
  · rw [busRead_of_regAt (r := .extLevel) rfl, readReg, BitVec.toNat_setWidth, BitVec.toNat_ofNat]
    omega

/-- Settles O20, by the two branches of `State.issue` and because no register shows what is
latched. -/
theorem commandIssue : Obligations.CommandIssue := by
  intro s v
  have write : hostWrite s 64 0x018 v = .next (s.issue v) := hostWrite_of_regAt (r := .cmd) rfl s v
  refine ⟨fun h => ?_, fun l h => ?_, fun l l' offset => ?_⟩
  · rw [write, State.issue_idle h]
  · rw [write, State.issue_busy h]
  · cases hr : regAt offset with
    | none => rw [busRead_reserved hr, busRead_reserved hr]
    | some r => rw [busRead_of_regAt hr, busRead_of_regAt hr, readReg_busy_irrelevant s l l' r]

/-- Settles O21: the eleven offsets hold locked registers, which a busy engine does not let be
written and whose reads do not look at the engine. -/
theorem lockedRegisters : Obligations.LockedRegisters := by
  intro s l offset v hbusy hoff
  obtain ⟨r, hr, hlocked⟩ := regAt_locked hoff
  constructor
  · rw [hostWrite_of_regAt hr, writeReg_locked_busy hbusy hlocked]
  · rw [busRead_of_regAt hr, busRead_of_regAt hr]
    exact (readReg_locked_engine hlocked s .idle).symm

/-- Settles O23, by the lock on the register and the two branches of its write. -/
theorem extNativeMaxWrite : Obligations.ExtNativeMaxWrite := by
  intro s v
  have write : hostWrite s 64 0x038 v = .next (s.unlessBusy (s.writeExtNativeMax v)) :=
    hostWrite_of_regAt (r := .extNativeMax) rfl s v
  refine ⟨fun hidle => ⟨fun hv => ?_, fun hv => ?_⟩, fun l hbusy => ?_,
    busRead_of_regAt (r := .extNativeMax) rfl s, rfl⟩
  · rw [write, State.unlessBusy_idle hidle, hv, State.writeExtNativeMax_zero]
  · rw [write, State.unlessBusy_idle hidle, State.writeExtNativeMax_ne_zero s hv, Cache.zero]
  · rw [write, State.unlessBusy_busy hbusy]

/-- Settles O24: `largestShift` is a bound, meets its condition and is the largest that does; the
fixed instances are the two contexts computed above; the registers are read bit by bit. -/
theorem rangeContextValues : Obligations.RangeContextValues := by
  refine ⟨fun m hm => ?_, fun src => ?_, fun s _ => ?_⟩
  · exact ⟨one_le_shiftBits hm, shiftBits_le m, largestShift_spec ..,
      fun k h1 h64 hk => largestShift_max m.toNat 64 k h64 h1 hk, toNat_shiftMax m,
      isNative32_iff m, isNative64_iff m, rfl⟩
  · exact ⟨rangeContext_native32, rangeContext_native64, rfl, rfl⟩
  · have info : busRead s 0x040 = (rangeContext s.gen.extNativeMax).infoWord :=
      busRead_of_regAt (r := .extRangeInfo) rfl s
    rw [info]
    refine ⟨toNat_infoWord_shiftBits (shiftBits_le _), ?_, ?_, fun k hk => ?_,
      busRead_of_regAt (r := .extShiftMax) rfl s⟩
    · rw [getLsbD_infoWord]; simp
    · rw [getLsbD_infoWord]; simp
    · have h7 : ¬ k < 7 := by omega
      have h8 : k ≠ 8 := by omega
      have h9 : k ≠ 9 := by omega
      simp [getLsbD_infoWord, h7, h8, h9]

/-- Settles O15: the fields are those `State.reset` is defined with, and the reads are computed from
them by each register's rule. -/
theorem resetValues : Obligations.ResetValues := by
  refine ⟨rfl, rfl, rfl, rfl, rfl, rfl, rfl, rfl, rfl, rfl, rfl, rfl, rfl, rfl, rfl, rfl,
    busRead_of_regAt (r := .id) rfl _, busRead_of_regAt (r := .ctrl) rfl _,
    ?status, ?info, ?shiftMax, busRead_of_regAt (r := .extLevel) rfl _⟩
  case status =>
    rw [busRead_of_regAt (r := .status) rfl]
    decide
  case info =>
    rw [busRead_of_regAt (r := .extRangeInfo) rfl]
    exact (congrArg RangeContext.infoWord rangeContext_native64).trans (by decide)
  case shiftMax =>
    rw [busRead_of_regAt (r := .extShiftMax) rfl]
    exact congrArg RangeContext.shiftMax rangeContext_native64

end Sys2Proof.Machine
end

section
/-! PROOFS. The command word (rules R80 to R90 of 30_encoding.md): a word is its four fields, the
decoder inverts the encoder, and a word is legal when its fields are well-formed; then the statements
of 30_encoding.md, which rest on these. -/

namespace Sys2Proof

/-! ### Fields -/

/-- The four fields are the whole word (R81). -/
theorem commandFields_injective : Function.Injective commandFields := by
  intro c d h
  obtain ⟨hop, hinst, hincl, hrsv⟩ := CommandFields.mk.inj h
  ext k hk
  rcases (by omega : k < 8 ∨ (8 ≤ k ∧ k < 10) ∨ k = 10 ∨ 11 ≤ k) with h8 | ⟨h8, h10⟩ | rfl | h11
  · simpa [h8, hk] using congrArg (·.getLsbD k) hop
  · simpa [h8, hk, show k - 8 < 2 by omega] using congrArg (·.getLsbD (k - 8)) hinst
  · simpa using hincl
  · simpa [h11, hk, show k - 11 < 53 by omega] using congrArg (·.getLsbD (k - 11)) hrsv

/-- The row's mask keeps OP and RSV, and bit 10 where the row has no INCL (R89). -/
theorem commandFields_and_rowMask (c : U64) (i : Instr) :
    commandFields (c &&& rowMask i) =
      { op := (commandFields c).op, inst := 0, incl := (commandFields c).incl && !i.ranged,
        rsv := (commandFields c).rsv } := by
  have hmask : commandFields (rowMask i) =
      { op := BitVec.allOnes 8, inst := 0, incl := !i.ranged, rsv := BitVec.allOnes 53 } := by
    unfold rowMask
    cases i.ranged <;> decide
  obtain ⟨hop, hinst, hincl, hrsv⟩ := CommandFields.mk.inj hmask
  simp only [commandFields, BitVec.extractLsb'_and, BitVec.getLsbD_and, hop, hinst, hincl, hrsv,
    BitVec.and_allOnes, BitVec.ofNat_eq_ofNat, BitVec.and_zero]

theorem commandFields_rowMatch (i : Instr) :
    commandFields (rowMatch i) = { op := opcode i, inst := 0, incl := false, rsv := 0 } := by
  have hop : (rowMatch i).extractLsb' 0 8 = opcode i := by
    rw [rowMatch, ← BitVec.setWidth_eq_extractLsb' (by decide),
      BitVec.setWidth_setWidth_of_le _ (by decide), BitVec.setWidth_eq]
  have hrsv : (rowMatch i).extractLsb' 11 53 = 0 := by
    ext k hk
    simp [rowMatch, BitVec.getLsbD_of_ge (opcode i) (11 + k) (by omega)]
  have hinst : (rowMatch i).extractLsb' 8 2 = 0 := by ext k hk; simp [rowMatch]
  have hincl : (rowMatch i).getLsbD 10 = false := by simp [rowMatch]
  rw [commandFields, hop, hinst, hincl, hrsv]

/-- The law of the encoded word's fields, for every instruction. -/
theorem encodedFields : ∀ i : Instr, Laws.EncodedFields.Statement i
  | .nop inst => Laws.EncodedFields.nop inst
  | .next inst => Laws.EncodedFields.next inst
  | .next32 inst => Laws.EncodedFields.next32 inst
  | .next64 inst => Laws.EncodedFields.next64 inst
  | .getu32 inst incl => Laws.EncodedFields.getu32 inst incl
  | .getu32r inst incl => Laws.EncodedFields.getu32r inst incl
  | .geti32 inst incl => Laws.EncodedFields.geti32 inst incl
  | .geti32r inst incl => Laws.EncodedFields.geti32r inst incl
  | .getu64 inst incl => Laws.EncodedFields.getu64 inst incl
  | .getu64r inst incl => Laws.EncodedFields.getu64r inst incl
  | .geti64 inst incl => Laws.EncodedFields.geti64 inst incl
  | .geti64r inst incl => Laws.EncodedFields.geti64r inst incl
  | .seedDefault inst => Laws.EncodedFields.seedDefault inst
  | .seedScalar inst => Laws.EncodedFields.seedScalar inst
  | .seedKey inst => Laws.EncodedFields.seedKey inst
  | .discard inst => Laws.EncodedFields.discard inst
  | .temper inst => Laws.EncodedFields.temper inst
  | .whiten inst => Laws.EncodedFields.whiten inst

theorem commandFields_encode (i : Instr) :
    commandFields (encode i) =
      { op := opcode i, inst := instBits i.inst, incl := i.incl, rsv := 0 } :=
  (encodedFields i).1

theorem wellFormed_encode (i : Instr) : (commandFields (encode i)).wellFormed = true :=
  (encodedFields i).2.1

theorem incl_of_not_ranged {i : Instr} (h : i.ranged = false) : i.incl = false := by
  cases i <;> simp_all [Instr.ranged, Instr.incl]

/-! ### The opcode map -/

theorem instOfBits_instBits (inst : Inst) : instOfBits (instBits inst) = inst := by
  cases inst <;> rfl

theorem instBits_instOfBits : ∀ b : BitVec 2, instBits (instOfBits b) = b := by decide

theorem withoutIncl_eq_ok {i j : Instr} {incl : Bool} :
    withoutIncl i incl = .ok j ↔ i = j ∧ incl = false := by
  cases incl <;> simp [withoutIncl]

/-- The opcode map gives each row's OP that row (R85). -/
theorem decodeOp_opcode (i : Instr) : decodeOp (opcode i).toNat i.inst i.incl = .ok i := by
  cases i <;> rfl

/-- What the opcode map answers, it answers for that row's OP and with the fields it was given. -/
theorem fields_of_decodeOp {op : Nat} {inst : Inst} {incl : Bool} {i : Instr}
    (h : decodeOp op inst incl = .ok i) :
    op = (opcode i).toNat ∧ inst = i.inst ∧ incl = i.incl := by
  unfold decodeOp at h
  split at h
  case h_19 => cases h -- every other OP is rejected
  all_goals
    simp only [withoutIncl_eq_ok, Except.ok.injEq] at h
    obtain ⟨rfl, rfl⟩ := h
    exact ⟨rfl, rfl, rfl⟩

/-- R86's list, as a condition on the number. -/
theorem CommandFields.opListed_iff (f : CommandFields) :
    f.opListed = true ↔ ¬((0x0C ≤ f.op.toNat ∧ f.op.toNat ≤ 0x0F)
      ∨ (0x13 ≤ f.op.toNat ∧ f.op.toNat ≤ 0x17) ∨ (0x19 ≤ f.op.toNat ∧ f.op.toNat ≤ 0x1F)
      ∨ 0x22 ≤ f.op.toNat) := by
  simp [opListed]
  omega

theorem CommandFields.inclAllowed_iff (f : CommandFields) :
    f.inclAllowed = true ↔ (f.incl = true → 0x04 ≤ f.op.toNat ∧ f.op.toNat ≤ 0x0B) := by
  cases h : f.incl <;> simp [inclAllowed, h]

theorem CommandFields.wellFormed_iff (f : CommandFields) :
    f.wellFormed = true ↔ f.rsv = 0 ∧ f.opListed = true ∧ f.inclAllowed = true := by
  simp [wellFormed, rsvClear, and_assoc]

/-- The opcode map (R85) leaves out no OP but those of R86, and refuses INCL only where R88 does. -/
theorem exists_decodeOp {f : CommandFields} (hop : f.opListed = true) (hincl : f.inclAllowed = true)
    (inst : Inst) : ∃ i, decodeOp f.op.toNat inst f.incl = .ok i := by
  rw [f.opListed_iff] at hop
  rw [f.inclAllowed_iff] at hincl
  unfold decodeOp
  split
  case h_19 => -- an OP outside the map, against R86's list
    simp only [imp_false] at *
    omega
  all_goals simp_all [withoutIncl] -- a row's OP, where `hincl` rules INCL in or out

/-- The words of R86 to R88 are those whose fields are not well-formed. -/
theorem illegalWord_iff (c : U64) :
    Machine.illegalWord c ↔ ¬(commandFields c).wellFormed = true := by
  have hop : (commandFields c).op.toNat = c.toNat % 256 := by simp [commandFields]
  have hrsv : (commandFields c).rsv = 0 ↔ c.toNat / 2 ^ 11 = 0 := by
    simp [commandFields, ← BitVec.toNat_inj, Nat.shiftRight_eq_div_pow]; omega
  have hincl : (commandFields c).incl = c.getLsbD 10 := rfl
  rw [CommandFields.wellFormed_iff, CommandFields.opListed_iff, CommandFields.inclAllowed_iff, hop,
    hrsv, hincl, Machine.illegalWord]
  tauto

/-! ### The decoder -/

theorem decode_eq {c : U64} :
    decode c = if (commandFields c).rsv = 0 then
      decodeOp (commandFields c).op.toNat (instOfBits (commandFields c).inst) (commandFields c).incl
    else .error .reservedBits := by
  simp [decode, CommandFields.rsvClear]

theorem decode_encode (i : Instr) : decode (encode i) = .ok i := by
  simp [decode_eq, commandFields_encode, instOfBits_instBits, decodeOp_opcode]

/-- The encoded word is the only one that decodes to its instruction. -/
theorem decode_eq_ok_iff {c : U64} {i : Instr} : decode c = .ok i ↔ c = encode i := by
  refine ⟨fun h => commandFields_injective ?_, fun h => h ▸ decode_encode i⟩
  rw [decode_eq] at h
  split at h
  case isTrue hrsv =>
    obtain ⟨hop, hinst, hincl⟩ := fields_of_decodeOp h
    rw [commandFields_encode, ← hinst, instBits_instOfBits, ← hincl, ← hrsv,
      ← BitVec.eq_of_toNat_eq hop]
  case isFalse => cases h

theorem exists_decode_iff_wellFormed (c : U64) :
    (∃ i, decode c = .ok i) ↔ (commandFields c).wellFormed = true := by
  constructor
  · rintro ⟨i, h⟩
    rw [decode_eq_ok_iff.mp h]
    exact wellFormed_encode i
  · intro h
    obtain ⟨hrsv, hop, hincl⟩ := (commandFields c).wellFormed_iff.mp h
    rw [decode_eq, if_pos hrsv]
    exact exists_decodeOp hop hincl _

/-- A word matches an instruction's row under its mask when it has the row's OP, no RSV bit, and no
bit 10 where the row has no INCL (R89). -/
theorem and_rowMask_eq_rowMatch_iff (c : U64) (i : Instr) :
    c &&& rowMask i = rowMatch i ↔ (commandFields c).op = opcode i
      ∧ (i.ranged = false → (commandFields c).incl = false) ∧ (commandFields c).rsv = 0 := by
  rw [← commandFields_injective.eq_iff, commandFields_and_rowMask, commandFields_rowMatch]
  cases i.ranged <;> simp

/-- An encoded word is a match of the row that has the instruction's INST and INCL. -/
theorem eq_encode_iff_rowMatches (c : U64) (i : Instr) :
    c = encode i ↔ c &&& rowMask i = rowMatch i ∧ c.extractLsb' 8 2 = instBits i.inst
      ∧ (i.ranged = true → c.getLsbD 10 = i.incl) := by
  have hinst : c.extractLsb' 8 2 = (commandFields c).inst := rfl
  have hincl : c.getLsbD 10 = (commandFields c).incl := rfl
  rw [← commandFields_injective.eq_iff, commandFields_encode, and_rowMask_eq_rowMatch_iff, hinst,
    hincl]
  obtain ⟨op, inst, incl, rsv⟩ := commandFields c
  cases h : i.ranged with
  | false => simp only [CommandFields.mk.injEq, incl_of_not_ranged h]; tauto
  | true => simp only [CommandFields.mk.injEq]; tauto

/-! ### The statements -/

/-- Settles O1: the encoded word has the instruction's fields, and the opcode map gives the row's OP
that row. -/
theorem decodeOfEncode : Obligations.DecodeOfEncode := decode_encode

/-- Settles O2: the words that decode are the encoded ones, which are those that match a row, and
those with well-formed fields. -/
theorem decodeIffRowMatches : Obligations.DecodeIffRowMatches := by
  refine ⟨fun c i => decode_eq_ok_iff.trans (eq_encode_iff_rowMatches c i), fun c => ?_⟩
  rw [illegalWord_iff, ← exists_decode_iff_wellFormed, not_exists]

end Sys2Proof
end

section
/-! PROOFS. The invariant of a run (Safety.lean): what each kind of move needs to keep it, one lemma
per operation of the engine and of the register window; then the statement that every step does. -/

namespace Sys2Proof.Machine

/-! ### The fields the invariant looks at -/

/-- The invariant looks only at the indexes, EXT_NATIVE_MAX, the FIFO, the engine and WAIT_EXT. -/
theorem State.Inv.congr {s t : State} (h : s.Inv) (h32 : t.gen.mt32.idx ≤ 624)
    (h64 : t.gen.mt64.idx ≤ 312) (hmax : t.gen.extNativeMax = s.gen.extNativeMax)
    (hfifo : t.extFifo = s.extFifo) (hengine : t.engine = s.engine)
    (hwait : t.waitExt = s.waitExt) : t.Inv where
  idx32 := h32
  idx64 := h64
  nativeMax := hmax ▸ h.nativeMax
  fifoDepth := hfifo ▸ h.fifoDepth
  fifoWords := by rw [hfifo, hmax]; exact h.fifoWords
  drawnWords := by rw [hengine, hmax]; exact h.drawnWords
  drawnExt := by rw [hengine]; exact h.drawnExt
  held := by rw [hwait, hfifo, hengine]; exact h.held

theorem State.Inv.of_sameGen {s t : State} (h : s.Inv) (hgen : t.gen = s.gen)
    (hfifo : t.extFifo = s.extFifo) (hengine : t.engine = s.engine)
    (hwait : t.waitExt = s.waitExt) : t.Inv :=
  h.congr (hgen ▸ h.idx32) (hgen ▸ h.idx64) (by rw [hgen]) hfifo hengine hwait

/-- An engine that is idle has drawn nothing and is not held: what is left is the FIFO and the
generators. -/
theorem State.Inv.of_idle {s t : State} {i : Inst} (h : s.Inv) (hgen : EndFrame i s.gen t.gen)
    (hfifo : t.extFifo = s.extFifo) (hengine : t.engine = .idle) (hwait : t.waitExt = false) :
    t.Inv where
  idx32 := hgen.idx32 h.idx32
  idx64 := hgen.idx64 h.idx64
  nativeMax := hgen.outside.nativeMax ▸ h.nativeMax
  fifoDepth := hfifo ▸ h.fifoDepth
  fifoWords := by rw [hfifo, hgen.outside.nativeMax]; exact h.fifoWords
  drawnWords := by simp [hengine]
  drawnExt := by simp [hengine]
  held := by simp [hwait]

theorem State.Inv.waitExt_of_idle {s : State} (h : s.Inv) (hidle : s.engine = .idle) :
    s.waitExt = false := by
  cases hw : s.waitExt with
  | false => rfl
  | true =>
    obtain ⟨-, l, -, hbusy, -⟩ := h.held hw
    rw [hidle] at hbusy
    cases hbusy

/-! ### Reset -/

/-- The seeded indexes are N by definition; the array they stand beside is not looked at. -/
theorem State.reset_inv : State.reset.Inv where
  idx32 := Nat.le_refl 624
  idx64 := Nat.le_refl 312
  nativeMax := show Config.extNativeMaxReset ≠ 0 by decide
  fifoDepth := Nat.zero_le 16
  fifoWords := fun _ hv => absurd hv List.not_mem_nil
  drawnWords := fun _ hbusy => Engine.noConfusion hbusy
  drawnExt := fun _ hbusy => Engine.noConfusion hbusy
  held := fun hw => Bool.noConfusion hw

theorem State.resetBlock_inv (s : State) : s.resetBlock.Inv :=
  State.reset_inv.of_sameGen s.resetBlock_gen s.resetBlock_extFifo s.resetBlock_engine
    s.resetBlock_waitExt

/-! ### The engine -/

theorem State.Inv.complete {s : State} {i : Inst} {g : Generators} (h : s.Inv)
    (hg : EndFrame i s.gen g) (r : Option U64) : (s.complete r g).Inv :=
  h.of_idle (i := i) hg rfl rfl rfl

theorem State.Inv.raise {s : State} (h : s.Inv) (e : Completion) : (s.raise e).Inv :=
  h.of_idle (.refl .ext _) rfl rfl rfl

/-- An EXT draw: the engine holds on an empty FIFO, and a popped word was at most the maximum. -/
theorem State.Inv.extDraw {s : State} {l : Latched} {i : Instr} (h : s.Inv)
    (hbusy : s.engine = .busy l) (hdecode : decode l.cmd = .ok i) (hext : i.inst = .ext) :
    (s.extDraw l).Inv := by
  cases hfifo : s.extFifo with
  | nil =>
    rw [extDraw_nil hfifo]
    exact { h with held := fun _ => ⟨hfifo, l, i, hbusy, hdecode, hext⟩ }
  | cons v rest =>
    rw [extDraw_cons hfifo]
    have hdepth : (v :: rest).length ≤ 16 := hfifo ▸ h.fifoDepth
    have hwords : ∀ x ∈ v :: rest, x ≤ s.gen.extNativeMax := hfifo ▸ h.fifoWords
    refine { idx32 := h.idx32, idx64 := h.idx64, nativeMax := h.nativeMax,
             fifoDepth := Nat.le_of_succ_le hdepth,
             fifoWords := fun x hx => hwords x (List.mem_cons_of_mem v hx),
             drawnWords := ?_, drawnExt := ?_, held := fun hw => Bool.noConfusion hw }
    · rintro _ ⟨⟩ x hx
      rcases List.mem_append.mp hx with hx | hx
      · exact h.drawnWords l hbusy x hx
      · exact hwords x (List.mem_singleton.mp hx ▸ List.mem_cons_self)
    · rintro _ ⟨⟩ -
      exact ⟨i, hdecode, hext⟩

theorem State.Inv.engineStep {s t : State} (h : s.Inv) (hstep : engineStep s = .next t) :
    t.Inv := by
  rcases engineStep_cases s with ⟨-, hs⟩ | ⟨_, _, -, -, hs⟩ | ⟨l, i, hbusy, hdecode, hs⟩
  · obtain rfl := Host.Outcome.next.inj (hs.symm.trans hstep)
    exact h
  · obtain rfl := Host.Outcome.next.inj (hs.symm.trans hstep)
    exact h.raise _
  · rw [hs] at hstep
    rcases exec_cases hbusy i with ⟨r, g, -, hx, hg⟩ | ⟨e, -, hx, -⟩ | ⟨-, hx, hext⟩ <;>
      obtain rfl := Host.Outcome.next.inj (hx.symm.trans hstep)
    · exact h.complete hg r
    · exact h.raise e
    · exact h.extDraw hbusy hdecode hext

/-! ### The register window -/

/-- A newly latched command has drawn nothing, and an idle engine was not held. -/
theorem State.Inv.issue {s : State} (h : s.Inv) (v : U64) : (s.issue v).Inv := by
  cases hengine : s.engine with
  | idle =>
    rw [State.issue_idle hengine]
    refine { h with
      drawnWords := ?_, drawnExt := ?_
      held := fun hw => absurd hw (by simp [h.waitExt_of_idle hengine]) }
    · rintro _ ⟨⟩ x hx
      exact absurd hx List.not_mem_nil
    · rintro _ ⟨⟩ hne
      exact absurd rfl hne
  | busy l =>
    rw [State.issue_busy hengine]
    exact h.of_sameGen rfl rfl rfl rfl

theorem State.Inv.unlessBusy {s t : State} (h : s.Inv) (ht : s.engine = .idle → t.Inv) :
    (s.unlessBusy t).Inv := by
  cases hengine : s.engine with
  | idle => rw [State.unlessBusy_idle hengine]; exact ht hengine
  | busy l => rw [State.unlessBusy_busy hengine]; exact h

/-- The write empties the FIFO, so that no word is left to hold against the new maximum; it is made
by an idle engine, which has drawn none. -/
theorem State.Inv.writeExtNativeMax {s : State} (h : s.Inv) (hidle : s.engine = .idle) (v : U64) :
    (s.writeExtNativeMax v).Inv := by
  by_cases hv : v = 0
  · rw [hv, State.writeExtNativeMax_zero]; exact h
  · rw [State.writeExtNativeMax_ne_zero s hv]
    exact { idx32 := h.idx32, idx64 := h.idx64, nativeMax := hv
            fifoDepth := Nat.zero_le 16
            fifoWords := fun _ hx => absurd hx List.not_mem_nil
            drawnWords := by simp [hidle]
            drawnExt := by simp [hidle]
            held := by simp [h.waitExt_of_idle hidle] }

/-- A push that is not dropped finds at most 15 words, is at most the maximum, and lifts a hold. -/
theorem State.Inv.push {s : State} (h : s.Inv) (v : U64) : (s.push v).Inv := by
  unfold State.push
  split
  case isTrue => exact h.of_sameGen rfl rfl rfl rfl
  case isFalse hroom =>
    split
    case isTrue => exact h.of_sameGen rfl rfl rfl rfl
    case isFalse hmax =>
      refine { h with
        fifoDepth := ?_, fifoWords := ?_, held := fun hw => Bool.noConfusion hw }
      · have hlen : s.extFifo.length < 16 := Nat.lt_of_not_le hroom
        simpa using hlen
      · intro x hx
        rcases List.mem_append.mp hx with hx | hx
        · exact h.fifoWords x hx
        · obtain rfl := List.mem_singleton.mp hx
          exact BitVec.not_lt.mp hmax

/-- A write to a register keeps the invariant: a write of an index clamps it, and the other writes
to a generator leave its index. -/
theorem State.Inv.writeReg {s : State} (h : s.Inv) (r : Reg) (v : U64) : (writeReg s r v).Inv := by
  cases r with
  | id | res | extRangeInfo | extShiftMax | extLevel => exact h
  | opa | opb | keyAddr | mt32Addr | mt64Addr | status => exact h.of_sameGen rfl rfl rfl rfl
  | ctrl =>
    simp only [Machine.writeReg]
    split
    · exact s.resetBlock_inv
    · exact h
  | cmd => exact h.issue v
  | extNativeMax => exact h.unlessBusy fun hidle => h.writeExtNativeMax hidle v
  | extPush => exact h.push v
  | keyData => exact h.unlessBusy fun _ => h.of_sameGen rfl rfl rfl rfl
  | mt32Data | mt64Data | addState =>
    exact h.unlessBusy fun _ => h.congr h.idx32 h.idx64 rfl rfl rfl rfl
  | mt32Idx =>
    exact h.unlessBusy fun _ => h.congr (Nat.min_le_right v.toNat 624) h.idx64 rfl rfl rfl rfl
  | mt64Idx =>
    exact h.unlessBusy fun _ => h.congr h.idx32 (Nat.min_le_right v.toNat 312) rfl rfl rfl rfl
  | cache i =>
    exact h.unlessBusy fun _ =>
      h.congr (by simpa using h.idx32) (by simpa using h.idx64) (by simp) rfl rfl rfl

theorem State.Inv.busWrite {s : State} (h : s.Inv) (offset : Offset) (v : U64) :
    (busWrite s offset v).Inv := by
  unfold Machine.busWrite
  split
  · exact h.writeReg _ v
  · exact h

theorem State.Inv.hostRead {s t : State} {bits : Nat} {offset : Offset} (h : s.Inv)
    (hread : hostRead s bits offset = .next t) : t.Inv := by
  unfold Machine.hostRead at hread
  split at hread
  · obtain rfl := Host.Outcome.next.inj hread
    exact h.of_sameGen rfl rfl rfl rfl
  · cases hread

theorem State.Inv.hostWrite {s t : State} {bits : Nat} {offset : Offset} {v : U64} (h : s.Inv)
    (hwrite : hostWrite s bits offset v = .next t) : t.Inv := by
  unfold Machine.hostWrite at hwrite
  split at hwrite
  · obtain rfl := Host.Outcome.next.inj hwrite
    exact h.busWrite offset v
  · cases hwrite

/-! ### The step -/

theorem State.Inv.move {s t : State} {e : Event} (h : s.Inv) (hmove : move e s = .next t) :
    t.Inv := by
  cases e with
  | engine => exact h.engineStep hmove
  | read bits offset => exact h.hostRead hmove
  | write bits offset v => exact h.hostWrite hmove
  | powerOn =>
    obtain rfl := Host.Outcome.next.inj hmove
    exact s.resetBlock_inv

theorem State.Inv.step {s t : State} (h : s.Inv) (hstep : step s = .next t) : t.Inv := by
  cases hsched : s.schedule with
  | nil => exact h.engineStep (step_nil hsched ▸ hstep)
  | cons e rest =>
    have hrest : { s with schedule := rest }.Inv := h.of_sameGen rfl rfl rfl rfl
    exact hrest.move (step_cons hsched ▸ hstep)

/-- Settles O6: each kind of move keeps the invariant, and a step is the first scheduled move or the
engine's. -/
theorem stepKeepsInvariant : Obligations.StepKeepsInvariant := fun _ _ h hstep => h.step hstep

end Sys2Proof.Machine
end

section
/-! PROOFS. The reload and the seedings of a twisted-feedback-shift array (rules R173 and R182 to R185
of 42_lfsr_tempering.md), for any parameters; then the statements for the two variants. -/

namespace Sys2Proof.Machine

variable {w n : Nat}

/-! ### Scalar seeding -/

theorem mtSeedScalar_getElem_zero (p : MtParams w) (x : BitVec w) (h : 0 < n) :
    (mtSeedScalar p x : Mt w n).words[0] = x := by
  obtain ⟨m, rfl⟩ := Nat.exists_eq_add_of_lt h
  rw [← Mt.word_lt, mtSeedScalar_word]
  simp [seedWords]

theorem mtSeedScalar_getElem_succ (p : MtParams w) (x : BitVec w) {k : Nat} (h : k + 1 < n) :
    (mtSeedScalar p x : Mt w n).words[k + 1] =
      p.mul * ((mtSeedScalar p x : Mt w n).words[k]
        ^^^ ((mtSeedScalar p x : Mt w n).words[k] >>> p.shift)) + BitVec.ofNat w (k + 1) := by
  rw [← Mt.word_lt, ← Mt.word_lt, mtSeedScalar_word, mtSeedScalar_word, seedWords_get _ _ _ _ _ h,
    Nat.zero_add]

/-! ### Key seeding -/

theorem mtSeedKey_word (p : MtParams w) (key : List (BitVec w)) (k : Nat) :
    (mtSeedKey p key : Mt w n).word k = (forceTopBit (keyMixed p n key).words).getD k 0 := by
  rw [Mt.word_eq_getD, mtSeedKey, wordsOf_toList]

theorem forceTopBit_getD {l : List (BitVec w)} (h : l ≠ []) (k : Nat) :
    (forceTopBit l).getD k 0 = if k = 0 then BitVec.twoPow w (w - 1) else l.getD k 0 := by
  obtain ⟨x, rest, rfl⟩ := List.exists_cons_of_ne_nil h
  cases k <;> simp [forceTopBit]

/-- The words of a seeded array: word 0 is forced (R185), the others are as both passes left them. -/
theorem mtSeedKey_word_eq (p : MtParams w) (key : List (BitVec w)) (h : 0 < n) (k : Nat) :
    (mtSeedKey p key : Mt w n).word k =
      if k = 0 then BitVec.twoPow w (w - 1) else (keyMixed p n key).words.getD k 0 := by
  have hne : (keyMixed p n key).words ≠ [] :=
    List.ne_nil_of_length_pos (by rwa [keyMixed_words_length])
  rw [mtSeedKey_word, forceTopBit_getD hne]

theorem mtSeedKey_getElem_zero (p : MtParams w) (key : List (BitVec w)) (h : 0 < n) :
    (mtSeedKey p key : Mt w n).words[0] = BitVec.twoPow w (w - 1) := by
  rw [← Mt.word_lt, mtSeedKey_word_eq p key h, if_pos rfl]

/-- One step of pass one takes key[j] for the index j of the rule, which is 0 where the key has just
ended. -/
theorem passOne_succ (p : MtParams w) {key : List (BitVec w)} (hkey : key ≠ []) (count : Nat)
    {j : Nat} (hj : j ≤ key.length) (c : Cursor w) :
    passOne p key (count + 1) j (key.drop j) c =
      passOne p key count (j % key.length + 1) (key.drop (j % key.length + 1))
        (c.mix p p.mix1 (key.getD (j % key.length) 0 + BitVec.ofNat w (j % key.length))) := by
  rcases hj.lt_or_eq with hlt | rfl
  · rw [List.drop_eq_getElem_cons hlt, passOne, Nat.mod_eq_of_lt hlt]
    simp [hlt]
  · obtain ⟨x, rest, rfl⟩ := List.exists_cons_of_ne_nil hkey
    rw [List.drop_length, passOne, Nat.mod_self]
    simp

/-- One step of pass one keeps cursor and loop together; the rule's j goes round in the key. -/
theorem passOneStep_matches {c : Cursor w} {st : KeyLoop w n} (h : Matches c st.mt st.i)
    (hn : 1 < n) (p : MtParams w) {key : List (BitVec w)} (hj : st.j < key.length) :
    Matches (c.mix p p.mix1 (key.getD st.j 0 + BitVec.ofNat w st.j))
        (passOneStep p key st).mt (passOneStep p key st).i
      ∧ (passOneStep p key st).j = (st.j + 1) % key.length := by
  obtain ⟨hmatches, hsame⟩ := h.step hn p p.mix1 (key.getD st.j 0 + BitVec.ofNat w st.j) (st.j + 1)
  simp only [passOneStep, BitVec.add_assoc, hsame]
  split
  case isTrue hend =>
    exact ⟨hmatches, by rw [show st.j + 1 = key.length by omega, Nat.mod_self]⟩
  case isFalse hmore =>
    exact ⟨hmatches, hsame.trans (Nat.mod_eq_of_lt (by omega)).symm⟩

theorem passOne_matches {key : List (BitVec w)} (hkey : key ≠ []) (hn : 1 < n) (p : MtParams w)
    (count : Nat) {c : Cursor w} {st : KeyLoop w n} {j : Nat} (k : Nat)
    (h : Matches c st.mt st.i) (hj : j ≤ key.length) (hst : st.j = j % key.length) :
    let st' := loopUp (fun _ => passOneStep p key) count k st
    Matches (passOne p key count j (key.drop j) c) st'.mt st'.i := by
  induction count generalizing c st j k with
  | zero => exact h
  | succ count ih =>
    have hlt : st.j < key.length := hst ▸ Nat.mod_lt j (List.length_pos_of_ne_nil hkey)
    obtain ⟨hstep, hnext⟩ := passOneStep_matches h hn p hlt
    rw [passOne_succ p hkey count hj, loopUp, ← hst]
    exact ih (k + 1) hstep hlt hnext

theorem passTwo_matches (hn : 1 < n) (p : MtParams w) (count : Nat) {c : Cursor w}
    {st : KeyLoop w n} (k : Nat) (h : Matches c st.mt st.i) :
    let st' := loopUp (fun _ => passTwoStep p) count k st
    Matches (passTwo p count c) st'.mt st'.i := by
  induction count generalizing c st k with
  | zero => exact h
  | succ count ih =>
    have hstep : Matches (c.mix p p.mix2 (-BitVec.ofNat w c.i))
        (passTwoStep p st).mt (passTwoStep p st).i := by
      rw [h.idx, passTwoStep, BitVec.sub_eq_add_neg]
      exact (h.step hn p p.mix2 (-BitVec.ofNat w st.i) st.j).1
    exact ih (k + 1) hstep

/-- The scalar array of the base seed, cut after word 0, is where both forms of key seeding start. -/
theorem seedScalar_matches (p : MtParams w) (x : BitVec w) (hn : 1 < n) :
    Matches { i := 1, before := (seedWords p n 0 x).take 1, after := (seedWords p n 0 x).drop 1 }
      (seedScalarInPlace p x : Mt w n) 1 := by
  have hlen := seedWords_length p n 0 x
  have hwords : (Cursor.mk 1 ((seedWords p n 0 x).take 1) ((seedWords p n 0 x).drop 1)).words
      = seedWords p n 0 x := by
    obtain ⟨y, ys, hcons⟩ := List.exists_cons_of_length_pos (hlen ▸ Nat.zero_lt_of_lt hn)
    simp [Cursor.words, hcons]
  refine ⟨rfl, Nat.one_pos, hn, ?_, ?_, fun k _ => ?_⟩
  · rw [List.length_take, hlen]; omega
  · rw [hwords, hlen]
  · rw [hwords, seedScalarInPlace_eq p x (by omega), mtSeedScalar_word]

/-- The two passes in one form and in the other leave the same array. -/
theorem mtSeedKey_eq_inPlace (p : MtParams w) {key : List (BitVec w)} (hkey : key ≠ [])
    (hn : 1 < n) : (mtSeedKey p key : Mt w n) = seedKeyInPlace p key := by
  have hzero : 0 % key.length = 0 := Nat.zero_mod _
  have one := passOne_matches (st := ⟨seedScalarInPlace p (BitVec.ofNat w keyBaseSeed), 1, 0⟩)
    hkey hn p (max n key.length) 0 (seedScalar_matches p _ hn) (Nat.zero_le _) hzero.symm
  have two := passTwo_matches hn p (n - 1) 0 one
  refine Mt.ext_words rfl fun k hk => ?_
  rw [mtSeedKey_word_eq p key (by omega)]
  refine Eq.trans ?_ (Mt.setWord_word _ (by omega) _ k).symm
  split
  · rfl
  · exact (two.words k hk).symm

/-! ### The reload -/

/-- The rule's body at position k stores the twist of the three words it reads there. -/
theorem reloadAt_eq (p : MtParams w) (k : Nat) (g : Mt w n) :
    reloadAt p k g =
      g.setWord k (twist p (g.word k) (g.word ((k + 1) % n)) (g.word ((k + p.offset) % n))) := rfl

/-- The array in the middle of the rule's loop: reloaded below position k, old from k on. -/
def ReloadedBelow (p : MtParams w) (old : Mt w n) (k : Nat) (g : Mt w n) : Prop :=
  ∀ j, g.word j = if j < k then (old.reload p).word j else old.word j

/-- The words read at position k are the old current and next ones, or the new word 0 past the end,
and the word M ahead, which past the end is new (R173, R174). -/
theorem ReloadedBelow.reloadAt {p : MtParams w} {old g : Mt w n} {k : Nat}
    (h : ReloadedBelow p old k g) (hn : 1 < n) (hoffset : p.offset < n) (hk : k < n) :
    ReloadedBelow p old (k + 1) (reloadAt p k g) := by
  have hcurrent : g.word k = old.word k := by rw [h, if_neg (by omega)]
  have hnext : g.word ((k + 1) % n) =
      if k + 1 < n then old.word (k + 1) else (old.reload p).word 0 := by
    split
    · rw [Nat.mod_eq_of_lt ‹_›, h, if_neg (by omega)]
    · rw [show k + 1 = n by omega, Nat.mod_self, h, if_pos (by omega)]
  have hahead : g.word ((k + p.offset) % n) =
      if k + p.offset < n then old.word (k + p.offset)
      else (old.reload p).word (k + p.offset - n) := by
    split
    · rw [Nat.mod_eq_of_lt ‹_›, h, if_neg (by omega)]
    · rw [Nat.mod_eq_sub_mod (by omega), Nat.mod_eq_of_lt (by omega), h, if_pos (by omega)]
  intro j
  rw [reloadAt_eq, Mt.setWord_word _ hk, hcurrent, hnext, hahead,
    ← Mt.reload_word p old hn hoffset k hk]
  rcases Nat.lt_trichotomy j k with hlt | rfl | hgt
  · rw [if_neg (by omega), h, if_pos hlt, if_pos (by omega)]
  · rw [if_pos rfl, if_pos (by omega)]
  · rw [if_neg (by omega), h, if_neg (by omega), if_neg (by omega)]

theorem reload_eq_inPlace (p : MtParams w) (g : Mt w n) (hn : 1 < n) (hoffset : p.offset < n) :
    g.reload p = reloadInPlace p g := by
  have hloop : ReloadedBelow p g (0 + n) (loopUp (reloadAt p) n 0 g) :=
    loop_inv (reloadAt p) (ReloadedBelow p g) n (fun k a hk h => h.reloadAt hn hoffset hk) n 0 g
      (by omega) (fun j => rfl)
  refine Mt.ext_words rfl fun k hk => ?_
  exact ((hloop k).trans (if_pos (by omega))).symm

/-! ### The statements -/

/-- Settles O52: the recurrence for any parameters, at the two variants' multipliers and shifts. -/
theorem scalarRecurrence : Obligations.ScalarRecurrence :=
  ⟨fun x => ⟨mtSeedScalar_getElem_zero mt32Params x (by decide),
      fun _ h => mtSeedScalar_getElem_succ mt32Params x h, rfl⟩,
    fun x => ⟨mtSeedScalar_getElem_zero mt64Params x (by decide),
      fun _ h => mtSeedScalar_getElem_succ mt64Params x h, rfl⟩⟩

/-- Settles O54: word 0 is assigned last, and 2^(W-1) is the constant of each variant. -/
theorem keySeedForcesTopBit : Obligations.KeySeedForcesTopBit :=
  ⟨fun key => ⟨mtSeedKey_getElem_zero mt32Params key (by decide), rfl⟩,
    fun key => ⟨mtSeedKey_getElem_zero mt64Params key (by decide), rfl⟩⟩

/-- Settles O55: below the loop's position the array is reloaded, from it on it is old. -/
theorem reloadMeetsPseudocode : Obligations.ReloadMeetsPseudocode :=
  ⟨fun g => reload_eq_inPlace mt32Params g (by decide) (by decide),
    fun g => reload_eq_inPlace mt64Params g (by decide) (by decide)⟩

/-- Settles O53: cursor and loop hold the same array at the same index through both passes. -/
theorem keySeedMeetsPseudocode : Obligations.KeySeedMeetsPseudocode :=
  ⟨fun _ hkey => mtSeedKey_eq_inPlace mt32Params hkey (by decide),
    fun _ hkey => mtSeedKey_eq_inPlace mt64Params hkey (by decide)⟩

end Sys2Proof.Machine
end

section
/-! PROOFS. The register window, continued: the offset of each register, what a read leaves, the
STATUS word, the FIFO's push and the data windows; then the statements about accesses and about
reset that rest on these. -/

namespace Sys2Proof.Machine

/-! ### The offset of a register -/

/-- The offsets of R21, by register. -/
def Reg.offset : Reg → Offset
  | .id => 0x000
  | .ctrl => 0x008
  | .status => 0x010
  | .cmd => 0x018
  | .opa => 0x020
  | .opb => 0x028
  | .res => 0x030
  | .extNativeMax => 0x038
  | .extRangeInfo => 0x040
  | .extShiftMax => 0x048
  | .extPush => 0x050
  | .extLevel => 0x058
  | .keyAddr => 0x060
  | .keyData => 0x068
  | .mt32Addr => 0x070
  | .mt32Data => 0x078
  | .mt32Idx => 0x080
  | .mt64Addr => 0x088
  | .mt64Data => 0x090
  | .mt64Idx => 0x098
  | .addState => 0x0A0
  | .cache .mt32 => 0x0C0
  | .cache .mt64 => 0x0C8
  | .cache .add64 => 0x0D0
  | .cache .ext => 0x0D8

/-- Each register stands at one offset. -/
theorem regAt_eq_some_iff {offset : Offset} {r : Reg} :
    regAt offset = some r ↔ offset = r.offset := by
  constructor
  · intro h
    unfold regAt at h
    split at h <;> cases h <;> exact BitVec.eq_of_toNat_eq ‹_›
  · rintro rfl
    cases r with
    | cache i => cases i <;> rfl
    | _ => rfl

/-! ### Reads -/

theorem State.busy_iff (s : State) : s.busy = true ↔ s.engine ≠ .idle := by
  cases h : s.engine with
  | idle => simp [State.busy_of_idle h]
  | busy l => simp [State.busy_of_busy h]

theorem hostRead_aligned {offset : Offset} (h : offset.toNat % 8 = 0) (s : State) :
    hostRead s 64 offset = .next { s with
      readLog := busRead s offset :: s.readLog
      freeCount :=
        if offset = 0x030 ∧ s.engine ≠ .idle then s.freeCount + 1 else s.freeCount } := by
  have hres : (0x030 : Offset) = Reg.res.offset := rfl
  simp only [hostRead, accessSupported, h, beq_self_eq_true, Bool.and_self, if_true,
    regAt_eq_some_iff, State.busy_iff, hres]
  split <;> rfl

/-- Settles O17: an aligned read is supported, and only RES, which stands at 0x030, can take a free
value. -/
theorem readsChangeNothing : Obligations.ReadsChangeNothing :=
  fun s _ h => hostRead_aligned h s

/-- Settles O22: the operands' registers are plain, and RES is the one whose read looks at BUSY. -/
theorem operandAndResultRegisters : Obligations.OperandAndResultRegisters := by
  intro s v
  have read : hostRead s 64 0x030 = _ := hostRead_aligned (by decide) s
  rw [busRead_of_regAt (r := .res) rfl, readReg] at read
  refine ⟨hostWrite_of_regAt (r := .opa) rfl s v, hostWrite_of_regAt (r := .opb) rfl s v,
    busRead_of_regAt (r := .opa) rfl s, busRead_of_regAt (r := .opb) rfl s,
    fun hidle => ?_, fun l hbusy => ?_⟩
  · rw [read]; simp [State.busy_of_idle hidle, hidle]
  · rw [read]; simp [State.busy_of_busy hbusy, hbusy]

/-! ### STATUS -/

/-- The bits of STATUS (R25). -/
theorem getLsbD_statusWord (s : State) (k : Nat) :
    s.statusWord.getLsbD k = ((decide (k = 0) && s.busy) || (decide (k = 1) && s.waitExt)
      || (decide (4 ≤ k) && s.err.code.getLsbD (k - 4)) || (decide (k = 8) && s.cmdDropped)
      || (decide (k = 9) && s.pushDropped)) := by
  have hcode : (s.err.code.setWidth 64 <<< 4).getLsbD k
      = (decide (4 ≤ k) && s.err.code.getLsbD (k - 4)) := by
    rw [BitVec.getLsbD_shiftLeft, BitVec.getLsbD_setWidth]
    by_cases hk : k < 64
    · by_cases h4 : k < 4
      · simp [hk, h4]
      · simp [hk, h4, show k - 4 < 64 by omega, show 4 ≤ k by omega]
    · simp [hk, BitVec.getLsbD_of_ge s.err.code (k - 4) (by omega)]
  simp only [State.statusWord, BitVec.getLsbD_or, getLsbD_bitAt _ (show 0 < 64 by decide),
    getLsbD_bitAt _ (show 1 < 64 by decide), getLsbD_bitAt _ (show 8 < 64 by decide),
    getLsbD_bitAt _ (show 9 < 64 by decide), hcode]

theorem extractLsb'_statusWord_err (s : State) : s.statusWord.extractLsb' 4 3 = s.err.code := by
  refine BitVec.eq_of_getLsbD_eq fun k hk => ?_
  have h1 : 4 + k ≠ 1 := by omega
  have h8 : 4 + k ≠ 8 := by omega
  have h9 : 4 + k ≠ 9 := by omega
  simp [getLsbD_statusWord, hk, h1, h8, h9]

/-- Settles O19: the word is read bit by bit, and a write's `&&` is the statement's `if`. -/
theorem statusRegister : Obligations.StatusRegister := by
  intro s v
  have read : busRead s 0x010 = s.statusWord := busRead_of_regAt (r := .status) rfl s
  have write : hostWrite s 64 0x010 v = .next (s.writeStatus v) :=
    hostWrite_of_regAt (r := .status) rfl s v
  rw [read, write]
  refine ⟨?busy, ?wait, ?err, ?cmd, ?push, fun k hk => ?other, ?write⟩
  case busy =>
    rw [getLsbD_statusWord, Bool.eq_iff_iff, decide_eq_true_iff, ← State.busy_iff]
    simp
  case wait => rw [getLsbD_statusWord]; simp
  case err => rw [extractLsb'_statusWord_err]; cases s.err <;> rfl
  case cmd => rw [getLsbD_statusWord]; simp
  case push => rw [getLsbD_statusWord]; simp
  case other =>
    have hcode : 4 ≤ k → s.err.code.getLsbD (k - 4) = false :=
      fun h4 => BitVec.getLsbD_of_ge _ _ (by simp at hk; omega)
    have h0 : k ≠ 0 := by rintro rfl; simp at hk
    have h1 : k ≠ 1 := by rintro rfl; simp at hk
    have h8 : k ≠ 8 := by rintro rfl; simp at hk
    have h9 : k ≠ 9 := by rintro rfl; simp at hk
    rw [getLsbD_statusWord]
    simpa [h0, h1, h8, h9] using hcode
  case write =>
    unfold State.writeStatus
    cases v.getLsbD 8 <;> cases v.getLsbD 9 <;> simp

/-! ### Pushes -/

theorem State.push_full {s : State} (h : 16 ≤ s.extFifo.length) (v : U64) :
    s.push v = { s with pushDropped := true } := if_pos h

theorem State.push_above {s : State} {v : U64} (h : s.gen.extNativeMax < v) :
    s.push v = { s with pushDropped := true } := by
  simp [State.push, h]

theorem State.push_taken {s : State} {v : U64} (hroom : s.extFifo.length < 16)
    (hmax : v ≤ s.gen.extNativeMax) :
    s.push v = { s with extFifo := s.extFifo ++ [v], waitExt := false } := by
  rw [State.push, if_neg (Nat.not_le.mpr hroom), if_neg (BitVec.not_lt.mpr hmax)]

/-- Settles O25, by the three branches of `State.push`. -/
theorem extPushWrite : Obligations.ExtPushWrite := by
  intro s v
  have write : hostWrite s 64 0x050 v = .next (s.push v) :=
    hostWrite_of_regAt (r := .extPush) rfl s v
  rw [write]
  refine ⟨fun hfull => ?_, fun _ habove => ?_, fun hroom hmax => ?_,
    busRead_of_regAt (r := .extPush) rfl s⟩
  · rw [State.push_full hfull]
  · rw [State.push_above habove]
  · rw [State.push_taken hroom hmax]

/-! ### Data windows -/

section Windows

variable {w n : Nat} (words : Vector (BitVec w) n) {k : Nat} (v : BitVec w)

theorem windowRead_lt (h : k < n) : windowRead words k = words[k] := dif_pos h

theorem windowRead_ge (h : n ≤ k) : windowRead words k = 0 := dif_neg (Nat.not_lt.mpr h)

theorem windowWrite_ge (h : n ≤ k) : windowWrite words k v = words := dif_neg (Nat.not_lt.mpr h)

theorem windowWrite_getElem (h : k < n) (j : Nat) (hj : j < n) :
    (windowWrite words k v)[j] = if j = k then v else words[j] := by
  simp only [windowWrite, h, dif_pos, Vector.getElem_set, eq_comm (a := k)]

end Windows

theorem toNat_ofNat_of_le {k n : Nat} (h : k ≤ n) (hn : n < 2 ^ 64) :
    (BitVec.ofNat 64 k).toNat = k :=
  (BitVec.toNat_ofNat ..).trans (Nat.mod_eq_of_lt (h.trans_lt hn))

/-- Settles O26: the windows' rules at and past the end of KEY. -/
theorem keyWindow : Obligations.KeyWindow := by
  intro s v
  have data : busRead s 0x068 = windowRead s.key s.keyAddr.toNat :=
    busRead_of_regAt (r := .keyData) rfl s
  have write : hostWrite s 64 0x068 v
      = .next (s.unlessBusy { s with key := windowWrite s.key s.keyAddr.toNat v }) :=
    hostWrite_of_regAt (r := .keyData) rfl s v
  refine ⟨hostWrite_of_regAt (r := .keyAddr) rfl s v, ?_, fun h => ?_, fun h => ?_,
    fun hidle => ⟨fun h => ?_, fun h => ⟨_, ?_, windowWrite_getElem s.key v h⟩⟩⟩
  · rw [busRead_of_regAt (r := .keyAddr) rfl]
    exact BitVec.toNat_setWidth_of_le (by decide)
  · rw [data, windowRead_lt _ h]
  · rw [data, windowRead_ge _ h]
  · rw [write, State.unlessBusy_idle hidle, windowWrite_ge _ _ h]
  · rw [write, State.unlessBusy_idle hidle]

/-- Settles O27: the windows' rules at and past the end of the MT32 array. -/
theorem mt32Windows : Obligations.Mt32Windows := by
  intro s v
  have data : busRead s 0x078 = zext64 (windowRead s.gen.mt32.words s.mt32Addr.toNat) :=
    busRead_of_regAt (r := .mt32Data) rfl s
  have write : hostWrite s 64 0x078 v = .next (s.unlessBusy { s with gen := { s.gen with mt32 :=
      { s.gen.mt32 with words := windowWrite s.gen.mt32.words s.mt32Addr.toNat (lo32 v) } } }) :=
    hostWrite_of_regAt (r := .mt32Data) rfl s v
  have writeIdx : hostWrite s 64 0x080 v = .next (s.unlessBusy { s with gen := { s.gen with mt32 :=
      { s.gen.mt32 with idx := min v.toNat 624 } } }) :=
    hostWrite_of_regAt (r := .mt32Idx) rfl s v
  refine ⟨hostWrite_of_regAt (r := .mt32Addr) rfl s v, ?addr, fun h => ?read, fun h => ?readPast,
    fun h => ?idx, fun hidle => ⟨fun h => ?writePast,
      fun h => ⟨_, ?write, windowWrite_getElem s.gen.mt32.words (lo32 v) h⟩, ?writeIdx⟩⟩
  case addr =>
    rw [busRead_of_regAt (r := .mt32Addr) rfl]
    exact BitVec.toNat_setWidth_of_le (by decide)
  case read => rw [data, windowRead_lt _ h, zext64_toNat]
  case readPast => rw [data, windowRead_ge _ h]; rfl
  case idx =>
    rw [busRead_of_regAt (r := .mt32Idx) rfl]
    exact toNat_ofNat_of_le h (by decide)
  case writePast => rw [write, State.unlessBusy_idle hidle, windowWrite_ge _ _ h]
  case write => rw [write, State.unlessBusy_idle hidle]
  case writeIdx => rw [writeIdx, State.unlessBusy_idle hidle, min_def_lt]

/-- Settles O28: the windows' rules at and past the end of the MT64 array. -/
theorem mt64Windows : Obligations.Mt64Windows := by
  intro s v
  have data : busRead s 0x090 = windowRead s.gen.mt64.words s.mt64Addr.toNat :=
    busRead_of_regAt (r := .mt64Data) rfl s
  have write : hostWrite s 64 0x090 v = .next (s.unlessBusy { s with gen := { s.gen with mt64 :=
      { s.gen.mt64 with words := windowWrite s.gen.mt64.words s.mt64Addr.toNat v } } }) :=
    hostWrite_of_regAt (r := .mt64Data) rfl s v
  have writeIdx : hostWrite s 64 0x098 v = .next (s.unlessBusy { s with gen := { s.gen with mt64 :=
      { s.gen.mt64 with idx := min v.toNat 312 } } }) :=
    hostWrite_of_regAt (r := .mt64Idx) rfl s v
  refine ⟨hostWrite_of_regAt (r := .mt64Addr) rfl s v, ?addr, fun h => ?read, fun h => ?readPast,
    fun h => ?idx, fun hidle => ⟨fun h => ?writePast,
      fun h => ⟨_, ?write, windowWrite_getElem s.gen.mt64.words v h⟩, ?writeIdx⟩⟩
  case addr =>
    rw [busRead_of_regAt (r := .mt64Addr) rfl]
    exact BitVec.toNat_setWidth_of_le (by decide)
  case read => rw [data, windowRead_lt _ h]
  case readPast => rw [data, windowRead_ge _ h]
  case idx =>
    rw [busRead_of_regAt (r := .mt64Idx) rfl]
    exact toNat_ofNat_of_le h (by decide)
  case writePast => rw [write, State.unlessBusy_idle hidle, windowWrite_ge _ _ h]
  case write => rw [write, State.unlessBusy_idle hidle]
  case writeIdx => rw [writeIdx, State.unlessBusy_idle hidle, min_def_lt]

/-! ### The ADD64 state and the caches -/

/-- The bits of a CACHE_* register (R40). -/
theorem Cache.getLsbD_word (c : Cache) (k : Nat) :
    c.word.getLsbD k = (c.half.getLsbD k || (decide (k = 32) && c.toggle)) := by
  rw [Cache.word, BitVec.getLsbD_or, getLsbD_bitAt _ (by decide), zext64, BitVec.getLsbD_setWidth]
  by_cases hk : k < 64
  · simp [hk]
  · simp [hk, BitVec.getLsbD_of_ge c.half k (by omega)]

theorem Cache.getLsbD_word_32 (c : Cache) : c.word.getLsbD 32 = c.toggle := by
  rw [Cache.getLsbD_word, BitVec.getLsbD_of_ge _ _ le_rfl]; simp

theorem Cache.lo32_word (c : Cache) : lo32 c.word = c.half := by
  refine BitVec.eq_of_getLsbD_eq fun k hk => ?_
  have h32 : k ≠ 32 := by omega
  simp [lo32, Cache.getLsbD_word, hk, h32]

/-- What a CACHE_* register shows is the whole CacheState (R40, R159). -/
theorem Cache.ofWord_word (c : Cache) : Cache.ofWord c.word = c := by
  rw [Cache.ofWord, Cache.lo32_word, Cache.getLsbD_word_32]

theorem hostWrite_cache {s : State} (hidle : s.engine = .idle) (i : Inst) (v : U64) :
    hostWrite s 64 (Reg.cache i).offset v
      = .next { s with gen := s.gen.setCache i (Cache.ofWord v) } := by
  rw [hostWrite_of_regAt (regAt_eq_some_iff.mpr rfl), writeReg, State.unlessBusy_idle hidle]

theorem hostWrite_addState {s : State} (hidle : s.engine = .idle) (v : U64) :
    hostWrite s 64 0x0A0 v = .next { s with gen := { s.gen with addState := v } } := by
  rw [hostWrite_of_regAt (r := .addState) rfl, writeReg, State.unlessBusy_idle hidle]

/-- The table's rows for the four caches (R21). -/
theorem offset_of_cacheRow {offset : Offset} {j : Inst}
    (h : (offset, j) ∈ [((0x0C0 : Offset), Inst.mt32), (0x0C8, .mt64), (0x0D0, .add64),
      (0x0D8, .ext)]) : offset = (Reg.cache j).offset := by
  simp only [List.mem_cons, List.not_mem_nil, or_false, Prod.mk.injEq] at h
  rcases h with ⟨rfl, rfl⟩ | ⟨rfl, rfl⟩ | ⟨rfl, rfl⟩ | ⟨rfl, rfl⟩ <;> rfl

/-- Settles O29: the cache's word is read bit by bit, and its write is `setCache`. -/
theorem addStateAndCacheWindows : Obligations.AddStateAndCacheWindows := by
  intro s v
  refine ⟨busRead_of_regAt (r := .addState) rfl s, fun hidle => hostWrite_addState hidle v,
    fun offset j hrow => ?_⟩
  obtain rfl := offset_of_cacheRow hrow
  have read : busRead s (Reg.cache j).offset = (s.gen.cache j).word :=
    busRead_of_regAt (regAt_eq_some_iff.mpr rfl) s
  rw [read]
  refine ⟨Cache.lo32_word _, Cache.getLsbD_word_32 _, fun k hk => ?_,
    fun hidle => ⟨_, hostWrite_cache hidle j v, Generators.setCache_cache_same .., .setCache ..,
      Generators.setCache_mt32 .., Generators.setCache_mt64 .., Generators.setCache_addState ..⟩⟩
  have h32 : k ≠ 32 := by omega
  simp [Cache.getLsbD_word, h32, BitVec.getLsbD_of_ge _ k (show 32 ≤ k by omega)]

/-- What one block shows of a cache, written into an idle other, sets it there (R159). -/
theorem hostWrite_cache_clone (s : State) {t : State} (hidle : t.engine = .idle) (i : Inst) :
    hostWrite t 64 (Reg.cache i).offset (busRead s (Reg.cache i).offset)
      = .next { t with gen := t.gen.setCache i (s.gen.cache i) } := by
  rw [hostWrite_cache hidle, busRead_of_regAt (regAt_eq_some_iff.mpr rfl), readReg,
    Cache.ofWord_word]

/-- Settles O30: the windows show all of ADD64 and of EXT, and their writes take it whole. -/
theorem cloneByWindows : Obligations.CloneByWindows := by
  intro s t _ hidle
  constructor
  · have write := hostWrite_addState hidle (busRead s 0x0A0)
    rw [busRead_of_regAt (r := .addState) rfl] at write ⊢
    refine ⟨_, _, write, hostWrite_cache_clone s ?_ .add64, ?_⟩
    · exact hidle
    · exact ⟨nofun, nofun, fun _ => rfl, rfl, rfl⟩
  · intro hmax
    have write : hostWrite t 64 0x038 s.gen.extNativeMax
        = .next (t.unlessBusy (t.writeExtNativeMax s.gen.extNativeMax)) :=
      hostWrite_of_regAt (r := .extNativeMax) rfl ..
    rw [State.unlessBusy_idle hidle, State.writeExtNativeMax_ne_zero t hmax] at write
    rw [busRead_of_regAt (r := .extNativeMax) rfl]
    refine ⟨_, _, write, hostWrite_cache_clone s ?_ .ext, ?_⟩
    · exact hidle
    · exact ⟨nofun, nofun, nofun, rfl, rfl⟩

/-! ### Reset -/

/-- Settles O7: the seeded indexes are N, nothing is queued, and the engine is idle. -/
theorem resetMeetsInvariant : Obligations.ResetMeetsInvariant := State.reset_inv

/-- Settles O16: bit 0 decides what a write to CTRL does, and power-on is the same reset. -/
theorem resetEvents : Obligations.ResetEvents := by
  intro s v
  have write : hostWrite s 64 0x008 v = .next (if v.getLsbD 0 then s.resetBlock else s) :=
    hostWrite_of_regAt (r := .ctrl) rfl s v
  refine ⟨fun h => ?_, fun h => ?_, rfl⟩
  · rw [write, if_pos h, State.resetBlock]
  · rw [write, if_neg (Bool.not_eq_true _ ▸ h)]

end Sys2Proof.Machine
end

section
/-! PROOFS. Whole-machine rules: what an engine step can change, what it depends on, when it fails,
and the moves that clear a sticky bit; then the statements about every step and every command. -/

namespace Sys2Proof.Machine

/-! ### Engine steps and moves -/

theorem engineStep_idle {s : State} (h : s.engine = .idle) : engineStep s = .next s := by
  rw [engineStep, h]

theorem engineStep_ok {s : State} {l : Latched} {i : Instr} (h : s.engine = .busy l)
    (hdecode : decode l.cmd = .ok i) : engineStep s = exec i s := by
  simp [engineStep, h, hdecode]

theorem engineStep_error {s : State} {l : Latched} {e : DecodeReject} (h : s.engine = .busy l)
    (hdecode : decode l.cmd = .error e) : engineStep s = .next (s.raise .illegalCommand) := by
  simp [engineStep, h, hdecode]

/-- A word that decodes to nothing is rejected by name. -/
theorem decode_error_of_illegal {c : U64} (h : illegalWord c) : ∃ e, decode c = .error e := by
  have hnone : ¬∃ i, decode c = .ok i := fun hi =>
    (illegalWord_iff c).mp h ((exists_decode_iff_wellFormed c).mp hi)
  cases hd : decode c with
  | error e => exact ⟨e, rfl⟩
  | ok i => exact absurd ⟨i, hd⟩ hnone

theorem engineStep_next (s : State) : ∃ t, engineStep s = .next t := by
  rcases engineStep_cases s with ⟨-, h⟩ | ⟨_, _, -, -, h⟩ | ⟨_, i, -, -, h⟩
  · exact ⟨s, h⟩
  · exact ⟨_, h⟩
  · rw [h]; exact exec_next i s

theorem accessSupported_iff {bits : Nat} {offset : Offset} :
    accessSupported bits offset = true ↔ bits = 64 ∧ offset.toNat % 8 = 0 := by
  simp [accessSupported]

theorem hostRead_unsupported {bits : Nat} {offset : Offset}
    (h : bits ≠ 64 ∨ offset.toNat % 8 ≠ 0) (s : State) :
    hostRead s bits offset = .refused (.unsupportedAccess bits offset) :=
  if_neg fun ha => by have := accessSupported_iff.mp ha; tauto

theorem hostWrite_unsupported {bits : Nat} {offset : Offset}
    (h : bits ≠ 64 ∨ offset.toNat % 8 ≠ 0) (s : State) (v : U64) :
    hostWrite s bits offset v = .refused (.unsupportedAccess bits offset) :=
  if_neg fun ha => by have := accessSupported_iff.mp ha; tauto

/-! ### What an engine step can change -/

/-- What no command writes: KEY, the host's registers, the sticky bits and the model's fields. -/
structure SameHost (s t : State) : Prop where
  key : t.key = s.key
  keyAddr : t.keyAddr = s.keyAddr
  mt32Addr : t.mt32Addr = s.mt32Addr
  mt64Addr : t.mt64Addr = s.mt64Addr
  opa : t.opa = s.opa
  opb : t.opb = s.opb
  cmdDropped : t.cmdDropped = s.cmdDropped
  pushDropped : t.pushDropped = s.pushDropped
  schedule : t.schedule = s.schedule
  readLog : t.readLog = s.readLog
  freeCount : t.freeCount = s.freeCount

theorem SameHost.refl (s : State) : SameHost s s := by constructor <;> rfl

theorem complete_sameHost (s : State) (r : Option U64) (g : Generators) :
    SameHost s (s.complete r g) := by constructor <;> rfl

theorem raise_sameHost (s : State) (e : Completion) : SameHost s (s.raise e) := by
  constructor <;> rfl

theorem extDraw_sameHost (s : State) (l : Latched) : SameHost s (s.extDraw l) := by
  cases h : s.extFifo with
  | nil => rw [extDraw_nil h]; constructor <;> rfl
  | cons v rest => rw [extDraw_cons h]; constructor <;> rfl

theorem exec_sameHost {i : Instr} {s t : State} (h : exec i s = .next t) : SameHost s t := by
  cases hengine : s.engine with
  | idle =>
    obtain rfl := Host.Outcome.next.inj ((exec_idle hengine i).symm.trans h)
    exact .refl s
  | busy l =>
    rcases exec_cases hengine i with ⟨r, g, -, hx, -⟩ | ⟨e, -, hx, -⟩ | ⟨-, hx, -⟩ <;>
      obtain rfl := Host.Outcome.next.inj (hx.symm.trans h)
    · exact complete_sameHost s r g
    · exact raise_sameHost s e
    · exact extDraw_sameHost s l

theorem engineStep_sameHost {s t : State} (h : engineStep s = .next t) : SameHost s t := by
  rcases engineStep_cases s with ⟨-, hs⟩ | ⟨_, _, -, -, hs⟩ | ⟨_, i, -, -, hs⟩ <;> rw [hs] at h
  · obtain rfl := Host.Outcome.next.inj h; exact .refl s
  · obtain rfl := Host.Outcome.next.inj h; exact raise_sameHost s _
  · exact exec_sameHost h

/-- An EXT draw leaves the instances. -/
theorem extDraw_gen (s : State) (l : Latched) : (s.extDraw l).gen = s.gen := by
  cases h : s.extFifo with
  | nil => rw [extDraw_nil h]
  | cons v rest => rw [extDraw_cons h]

theorem exec_sameOutside {i : Instr} {s t : State} (h : exec i s = .next t) :
    SameOutside i.inst s.gen t.gen ∧ (i.inst ≠ .ext → t.extFifo = s.extFifo) := by
  cases hengine : s.engine with
  | idle =>
    obtain rfl := Host.Outcome.next.inj ((exec_idle hengine i).symm.trans h)
    exact ⟨.refl .., fun _ => rfl⟩
  | busy l =>
    rcases exec_cases hengine i with ⟨r, g, -, hx, hg⟩ | ⟨e, -, hx, -⟩ | ⟨-, hx, hext⟩ <;>
      obtain rfl := Host.Outcome.next.inj (hx.symm.trans h)
    · exact ⟨hg.outside, fun _ => rfl⟩
    · exact ⟨.refl .., fun _ => rfl⟩
    · exact ⟨extDraw_gen s l ▸ .refl .., fun hne => absurd hext hne⟩

/-! ### What an engine step depends on -/

/-- Two sources that a command on `i` cannot tell apart. -/
structure SameSource (i : Inst) (src src' : Source) : Prop where
  gen : SameInstance i src.gen src'.gen
  words : src.words = src'.words

/-- Two draws with the same outcome, which leave sources that agree again. -/
abbrev SameDraw {α : Type} (i : Inst) : Option (α × Source) → Option (α × Source) → Prop :=
  Option.Rel fun p q => p.1 = q.1 ∧ SameSource i p.2 q.2

/-- Two ends of a pseudocode that differ at most outside `i`. -/
inductive SameProgress (i : Inst) : Progress → Progress → Prop
  | done (r : Option U64) {g g' : Generators} (h : SameInstance i g g') :
    SameProgress i (.done r g) (.done r g')
  | raise (e : Completion) : SameProgress i (.raise e) (.raise e)
  | needWord : SameProgress i .needWord .needWord

theorem SameInstance.of_mt32 {g g' : Generators} (h : SameInstance .mt32 g g') (mt : Mt 32 624) :
    SameInstance .mt32 { g with mt32 := mt } { g' with mt32 := mt } :=
  ⟨fun _ => rfl, nofun, nofun, rfl, h.cache⟩

theorem SameInstance.of_mt64 {g g' : Generators} (h : SameInstance .mt64 g g') (mt : Mt 64 312) :
    SameInstance .mt64 { g with mt64 := mt } { g' with mt64 := mt } :=
  ⟨nofun, fun _ => rfl, nofun, rfl, h.cache⟩

theorem SameInstance.of_add64 {g g' : Generators} (h : SameInstance .add64 g g') (st : U64) :
    SameInstance .add64 { g with addState := st } { g' with addState := st } :=
  ⟨nofun, nofun, fun _ => rfl, rfl, h.cache⟩

theorem SameInstance.setCache {i : Inst} {g g' : Generators} (h : SameInstance i g g') (c : Cache) :
    SameInstance i (g.setCache i c) (g'.setCache i c) :=
  ⟨by simpa using h.mt32, by simpa using h.mt64, by simpa using h.add64, by simpa using h.nativeMax,
    by simp⟩

theorem SameSource.range_eq {i : Inst} {src src' : Source} (h : SameSource i src src') :
    src'.range i = src.range i :=
  congrArg rangeContext h.gen.nativeMax

theorem SameSource.setCache {i : Inst} {src src' : Source} (h : SameSource i src src') (c : Cache) :
    SameSource i { src with gen := src.gen.setCache i c }
      { src' with gen := src'.gen.setCache i c } :=
  ⟨h.gen.setCache c, h.words⟩

theorem nativeDraw_same {i : Inst} {src src' : Source} (h : SameSource i src src') :
    SameDraw i (nativeDraw i src) (nativeDraw i src') := by
  cases i with
  | mt32 =>
    rw [nativeDraw_mt32, nativeDraw_mt32, h.gen.mt32 rfl]
    exact .some ⟨rfl, h.gen.of_mt32 _, h.words⟩
  | mt64 =>
    rw [nativeDraw_mt64, nativeDraw_mt64, h.gen.mt64 rfl]
    exact .some ⟨rfl, h.gen.of_mt64 _, h.words⟩
  | add64 =>
    rw [nativeDraw_add64, nativeDraw_add64, h.gen.add64 rfl]
    exact .some ⟨rfl, h.gen.of_add64 _, h.words⟩
  | ext =>
    cases hw : src.words with
    | nil =>
      rw [nativeDraw_ext_nil hw, nativeDraw_ext_nil (h.words ▸ hw)]
      exact .none
    | cons v rest =>
      rw [nativeDraw_ext_cons hw, nativeDraw_ext_cons (h.words ▸ hw)]
      exact .some ⟨rfl, h.gen, rfl⟩

theorem SameDraw.map {α β : Type} {i : Inst} {d d' : Option (α × Source)} (h : SameDraw i d d')
    {f : α × Source → β × Source}
    (hf : ∀ v src src', SameSource i src src' →
      (f (v, src)).1 = (f (v, src')).1 ∧ SameSource i (f (v, src)).2 (f (v, src')).2) :
    SameDraw i (d.map f) (d'.map f) := by
  rcases h with @⟨⟨v, src⟩, ⟨_, src'⟩, rfl, hs⟩ | _
  · exact .some (hf v src src' hs)
  · exact .none

theorem SameDraw.bind {α β : Type} {i : Inst} {d d' : Option (α × Source)} (h : SameDraw i d d')
    {f : α × Source → Option (β × Source)}
    (hf : ∀ v src src', SameSource i src src' → SameDraw i (f (v, src)) (f (v, src'))) :
    SameDraw i (d.bind f) (d'.bind f) := by
  rcases h with @⟨⟨v, src⟩, ⟨_, src'⟩, rfl, hs⟩ | _
  · exact hf v src src' hs
  · exact .none

/-- Next64's three cases (R103) without its matches. -/
theorem next64_eq (i : Inst) (src : Source) :
    next64 i src =
      if (src.range i).isNative64 then nativeDraw i src
      else if (src.range i).isNative32 then
        (nativeDraw i src).bind fun p => (nativeDraw i p.2).map fun q =>
          (pair (lo32 p.1) (lo32 q.1), q.2)
      else (chunk64 (src.range i) 0 0 src.words).map fun p => (p.1, { src with words := p.2 }) := by
  unfold next64
  dsimp only
  split
  · rfl
  split
  · cases nativeDraw i src with
    | none => rfl
    | some p => dsimp only [Option.bind_some]; cases nativeDraw i p.2 <;> rfl
  · cases chunk64 (src.range i) 0 0 src.words <;> rfl

/-- Next32's cases (R104) without its matches. -/
theorem next32_eq (i : Inst) (src : Source) :
    next32 i src =
      if (src.range i).isNative32 then (nativeDraw i src).map fun p => (lo32 p.1, p.2)
      else if (src.gen.cache i).toggle then
        some ((src.gen.cache i).half,
          { src with gen := src.gen.setCache i { src.gen.cache i with toggle := false } })
      else (next64 i src).map fun p =>
        (lo32 p.1,
          { p.2 with gen := p.2.gen.setCache i { half := hi32 p.1, toggle := true } }) := by
  unfold next32
  dsimp only
  split
  · cases nativeDraw i src <;> rfl
  split
  · rfl
  · cases next64 i src <;> rfl

theorem next64_same {i : Inst} {src src' : Source} (h : SameSource i src src') :
    SameDraw i (next64 i src) (next64 i src') := by
  rw [next64_eq, next64_eq, h.range_eq, ← h.words]
  split
  · exact nativeDraw_same h
  split
  · exact (nativeDraw_same h).bind fun _ _ _ hs =>
      (nativeDraw_same hs).map fun _ _ _ ht => ⟨rfl, ht⟩
  · cases chunk64 (src.range i) 0 0 src.words with
    | none => exact .none
    | some p => exact .some ⟨rfl, h.gen, rfl⟩

theorem next32_same {i : Inst} {src src' : Source} (h : SameSource i src src') :
    SameDraw i (next32 i src) (next32 i src') := by
  rw [next32_eq, next32_eq, h.range_eq, h.gen.cache]
  split
  · exact (nativeDraw_same h).map fun _ _ _ hs => ⟨rfl, hs⟩
  split
  · exact .some ⟨rfl, h.setCache _⟩
  · exact (next64_same h).map fun _ _ _ hs => ⟨rfl, hs.setCache _⟩

theorem mapU32_same {i : Inst} {src src' : Source} (h : SameSource i src src') (m : U32)
    (incl : Bool) : SameDraw i (mapU32 i m incl src) (mapU32 i m incl src') := by
  rw [mapU32_eq, mapU32_eq]
  exact (next32_same h).map fun _ _ _ hs => ⟨rfl, hs⟩

theorem mapU64_same {i : Inst} {src src' : Source} (h : SameSource i src src') (m : U64)
    (incl : Bool) : SameDraw i (mapU64 i m incl src) (mapU64 i m incl src') := by
  rw [mapU64_eq, mapU64_eq]
  split
  · exact (mapU32_same h ..).map fun _ _ _ hs => ⟨rfl, hs⟩
  · exact (next64_same h).map fun _ _ _ hs => ⟨rfl, hs⟩

theorem drawn_same {α : Type} {i : Inst} {d d' : Option (α × Source)} (h : SameDraw i d d')
    (out : α → U64) : SameProgress i (drawn d out) (drawn d' out) := by
  rcases h with @⟨⟨v, src⟩, ⟨_, src'⟩, rfl, hs⟩ | _
  · exact .done _ hs.gen
  · exact .needWord

theorem ranged_same {α : Type} {i : Inst} {d d' : Option (α × Source)} (h : SameDraw i d d')
    (bad : Bool) (out : α → U64) : SameProgress i (ranged bad d out) (ranged bad d' out) := by
  cases bad with
  | true => exact .raise _
  | false => exact drawn_same h out

theorem seeded_same {i : Inst} {g g' : Generators} (h : SameInstance i g g') :
    SameProgress i (seeded i g) (seeded i g') :=
  .done _ (h.setCache _)

theorem defaultSeed_same {i : Inst} {g g' : Generators} (h : SameInstance i g g') :
    SameInstance i (defaultSeed i g) (defaultSeed i g') := by
  cases i with
  | mt32 => exact h.of_mt32 _
  | mt64 => exact h.of_mt64 _
  | add64 => exact h.of_add64 _
  | ext => exact h

theorem scalarSeed_same {i : Inst} {g g' : Generators} (h : SameInstance i g g') (l : Latched) :
    SameInstance i (scalarSeed i l g) (scalarSeed i l g') := by
  cases i with
  | mt32 => exact h.of_mt32 _
  | mt64 => exact h.of_mt64 _
  | add64 => exact h.of_add64 _
  | ext => exact h

theorem keySeed_same {i : Inst} {g g' : Generators} (h : SameInstance i g g') (words : List U64) :
    SameInstance i (keySeed i words g) (keySeed i words g') := by
  cases i with
  | mt32 => exact h.of_mt32 _
  | mt64 => exact h.of_mt64 _
  | add64 => exact h.of_add64 _
  | ext => exact h

theorem discard_same {i : Inst} {src src' : Source} (h : SameSource i src src') (n : U64) :
    SameProgress i (discard i n src) (discard i n src') := by
  cases i with
  | mt32 => simp only [discard, h.gen.mt32 rfl]; exact .done _ (h.gen.of_mt32 _)
  | mt64 => simp only [discard, h.gen.mt64 rfl]; exact .done _ (h.gen.of_mt64 _)
  | add64 => simp only [discard, h.gen.add64 rfl]; exact .done _ (h.gen.of_add64 _)
  | ext =>
    simp only [discard, extDiscard_eq, ← h.words]
    by_cases hn : n.toNat ≤ src.words.length
    · simp only [hn, if_true]; exact .done _ h.gen
    · simp only [hn, if_false]; exact .needWord

/-- Every command's pseudocode looks at nothing of the instances but its own. -/
theorem progressOf_same {i : Instr} {src src' : Source} (h : SameSource i.inst src src')
    (key : Vector U64 624) (l : Latched) :
    SameProgress i.inst (progressOf i key l src) (progressOf i key l src') := by
  cases i with
  | nop i => exact .done _ h.gen
  | next i => exact drawn_same (nativeDraw_same h) _
  | next32 i => exact drawn_same (next32_same h) _
  | next64 i => exact drawn_same (next64_same h) _
  | getu32 i incl => exact ranged_same (mapU32_same h ..) ..
  | getu32r i incl => exact ranged_same (mapU32_same h ..) ..
  | geti32 i incl => exact ranged_same (mapU32_same h ..) ..
  | geti32r i incl => exact ranged_same (mapU32_same h ..) ..
  | getu64 i incl => exact ranged_same (mapU64_same h ..) ..
  | getu64r i incl => exact ranged_same (mapU64_same h ..) ..
  | geti64 i incl => exact ranged_same (mapU64_same h ..) ..
  | geti64r i incl => exact ranged_same (mapU64_same h ..) ..
  | seedDefault i => exact seeded_same (defaultSeed_same h.gen)
  | seedScalar i =>
    simp only [progressOf]
    split
    · exact .raise _
    · exact seeded_same (scalarSeed_same h.gen l)
  | seedKey i =>
    simp only [progressOf]
    split
    · exact .raise _
    split
    · exact .raise _
    split
    · exact seeded_same (defaultSeed_same h.gen)
    · exact seeded_same (keySeed_same h.gen _)
  | discard i => exact discard_same h _
  | temper i =>
    cases i with
    | mt32 | mt64 => exact .done _ h.gen
    | add64 | ext => exact .raise _
  | whiten i =>
    cases i with
    | add64 => exact .done _ h.gen
    | mt32 | mt64 | ext => exact .raise _

/-! ### When a command fails -/

theorem drawn_ne_raise {α : Type} (d : Option (α × Source)) (out : α → U64) (e : Completion) :
    drawn d out ≠ .raise e := by
  rcases drawn_cases d out with ⟨-, h⟩ | ⟨_, _, -, h⟩ <;> rw [h] <;> nofun

/-- A ranged command fails on its operands alone (R113 to R120). -/
theorem ranged_eq_raise_iff {α : Type} {bad : Bool} {d : Option (α × Source)} {out : α → U64}
    {e : Completion} : ranged bad d out = .raise e ↔ bad = true ∧ e = .invalidRange := by
  cases bad with
  | true => simp [ranged, eq_comm]
  | false => simp [ranged, drawn_ne_raise]

theorem discard_ne_raise (i : Inst) (n : U64) (src : Source) (e : Completion) :
    discard i n src ≠ .raise e := by
  cases i with
  | ext => simp only [discard]; split <;> nofun
  | _ => nofun

/-- Whether the pseudocode raises, and what, the operands decide. -/
theorem progressOf_raise_congr {i : Instr} {key key' : Vector U64 624} {l l' : Latched}
    {src src' : Source} {e : Completion} (ha : l.opa = l'.opa) (hb : l.opb = l'.opb)
    (h : progressOf i key l src = .raise e) : progressOf i key' l' src' = .raise e := by
  have ha32 : l.a32 = l'.a32 := congrArg lo32 ha
  have hb32 : l.b32 = l'.b32 := congrArg lo32 hb
  cases i with
  | nop i => cases h
  | next i | next32 i | next64 i => exact absurd h (drawn_ne_raise _ _ e)
  | getu32 i incl | getu32r i incl | geti32 i incl | geti32r i incl | getu64 i incl
  | getu64r i incl | geti64 i incl | geti64r i incl =>
    simp only [progressOf, ranged_eq_raise_iff, ha, hb, ha32, hb32] at h ⊢
    exact h
  | seedDefault i => cases h
  | seedScalar i =>
    simp only [progressOf] at h ⊢
    split at h
    · rw [if_pos ‹_›]; exact h
    · cases h
  | seedKey i =>
    simp only [progressOf, ha] at h ⊢
    split at h
    · rw [if_pos ‹_›]; exact h
    split at h
    · rw [if_neg ‹_›, if_pos ‹_›]; exact h
    split at h <;> cases h
  | discard i => exact absurd h (discard_ne_raise i _ src e)
  | temper i =>
    cases i with
    | add64 | ext => exact h
    | mt32 | mt64 => cases h
  | whiten i =>
    cases i with
    | mt32 | mt64 | ext => exact h
    | add64 => cases h

/-- Only a busy engine's command fails or ends; one that stands at a draw stays busy. -/
theorem extDraw_engine_ne_idle {s : State} {l : Latched} (h : s.engine = .busy l) :
    (s.extDraw l).engine ≠ .idle := by
  obtain ⟨l', hl', -⟩ := extDraw_engine h
  simp [hl']

/-- A command stands at an EXT draw only where its pseudocode lacks a word. -/
theorem need_of_takes {i : Instr} {s : State} {l : Latched} (h : s.engine = .busy l)
    (ht : TakesWord i s l) : progressOf i s.key l (s.source l) = .needWord := by
  have hbusy : ∃ t, exec i s = .next t ∧ t.engine ≠ .idle := by
    cases hf : s.extFifo with
    | nil => exact ⟨_, ht.1 hf, by simp [h]⟩
    | cons v rest => exact ⟨_, ht.2 v rest hf, nofun⟩
  obtain ⟨t, hx, hne⟩ := hbusy
  rcases exec_cases h i with ⟨r, g, -, hx', -⟩ | ⟨e, -, hx', -⟩ | ⟨hp, -, -⟩
  · obtain rfl := Host.Outcome.next.inj (hx'.symm.trans hx); exact absurd rfl hne
  · obtain rfl := Host.Outcome.next.inj (hx'.symm.trans hx); exact absurd rfl hne
  · exact hp

/-! ### Moves and the sticky bits -/

/-- The moves that clear the sticky bit at position `k` of STATUS (R24, R26, R250). -/
def ClearsSticky (k : Nat) (e : Event) : Prop :=
  (∃ v, e = .write 64 0x010 v ∧ v.getLsbD k = true)
  ∨ (∃ v, e = .write 64 0x008 v ∧ v.getLsbD 0 = true)
  ∨ e = .powerOn

/-- Both sticky bits of `s` that are set are set in `t`. -/
def KeepsSticky (s t : State) : Prop :=
  (s.cmdDropped = true → t.cmdDropped = true) ∧ (s.pushDropped = true → t.pushDropped = true)

theorem KeepsSticky.of_eq {s t : State} (hc : t.cmdDropped = s.cmdDropped)
    (hp : t.pushDropped = s.pushDropped) : KeepsSticky s t :=
  ⟨fun h => hc.trans h, fun h => hp.trans h⟩

theorem SameHost.keepsSticky {s t : State} (h : SameHost s t) : KeepsSticky s t :=
  .of_eq h.cmdDropped h.pushDropped

theorem KeepsSticky.unlessBusy {s t : State} (h : KeepsSticky s t) :
    KeepsSticky s (s.unlessBusy t) := by
  unfold State.unlessBusy
  split
  · exact .of_eq rfl rfl
  · exact h

theorem keepsSticky_issue (s : State) (v : U64) : KeepsSticky s (s.issue v) := by
  cases h : s.engine with
  | idle => rw [State.issue_idle h]; exact .of_eq rfl rfl
  | busy l => rw [State.issue_busy h]; exact ⟨fun _ => rfl, id⟩

theorem keepsSticky_push (s : State) (v : U64) : KeepsSticky s (s.push v) := by
  unfold State.push
  split
  · exact ⟨id, fun _ => rfl⟩
  split
  · exact ⟨id, fun _ => rfl⟩
  · exact .of_eq rfl rfl

theorem keepsSticky_writeExtNativeMax (s : State) (v : U64) :
    KeepsSticky s (s.writeExtNativeMax v) := by
  unfold State.writeExtNativeMax
  split <;> exact .of_eq rfl rfl

/-- Every register's write but that of CTRL and STATUS keeps both sticky bits. -/
theorem keepsSticky_writeReg (s : State) {r : Reg} (hctrl : r ≠ .ctrl) (hstatus : r ≠ .status)
    (v : U64) : KeepsSticky s (writeReg s r v) := by
  cases r with
  | ctrl => exact absurd rfl hctrl
  | status => exact absurd rfl hstatus
  | cmd => exact keepsSticky_issue s v
  | extPush => exact keepsSticky_push s v
  | extNativeMax => exact (keepsSticky_writeExtNativeMax s v).unlessBusy
  | keyData | mt32Data | mt32Idx | mt64Data | mt64Idx | addState | cache =>
    exact KeepsSticky.unlessBusy (.of_eq rfl rfl)
  | _ => exact .of_eq rfl rfl

/-- Each sticky bit that `e` does not clear is still set in `t` if it is in `s`. -/
def KeepsUncleared (e : Event) (s t : State) : Prop :=
  (¬ClearsSticky 8 e → s.cmdDropped = true → t.cmdDropped = true)
  ∧ (¬ClearsSticky 9 e → s.pushDropped = true → t.pushDropped = true)

theorem KeepsSticky.keepsUncleared {s t : State} (h : KeepsSticky s t) (e : Event) :
    KeepsUncleared e s t :=
  ⟨fun _ => h.1, fun _ => h.2⟩

theorem keepsUncleared_of_clears {e : Event} (h : ∀ k, ClearsSticky k e) (s t : State) :
    KeepsUncleared e s t :=
  ⟨fun hn => absurd (h 8) hn, fun hn => absurd (h 9) hn⟩

theorem keepsUncleared_ctrl (s : State) (v : U64) :
    KeepsUncleared (.write 64 Reg.ctrl.offset v) s (writeReg s .ctrl v) := by
  rw [writeReg]
  split
  case isTrue hv => exact keepsUncleared_of_clears (fun _ => .inr (.inl ⟨v, rfl, hv⟩)) s _
  case isFalse => exact (KeepsSticky.of_eq rfl rfl).keepsUncleared _

theorem keepsUncleared_status (s : State) (v : U64) :
    KeepsUncleared (.write 64 Reg.status.offset v) s (writeReg s .status v) := by
  have hkept : ∀ k, ¬ClearsSticky k (.write 64 Reg.status.offset v) → v.getLsbD k = false :=
    fun k hn => Bool.eq_false_of_not_eq_true fun hv => hn (.inl ⟨v, rfl, hv⟩)
  exact ⟨fun hn hs => by rw [writeReg, State.writeStatus_cmdDropped, hs, hkept 8 hn]; rfl,
    fun hn hs => by rw [writeReg, State.writeStatus_pushDropped, hs, hkept 9 hn]; rfl⟩

theorem keepsUncleared_writeReg (s : State) (r : Reg) (v : U64) :
    KeepsUncleared (.write 64 r.offset v) s (writeReg s r v) := by
  by_cases hctrl : r = .ctrl
  · rw [hctrl]; exact keepsUncleared_ctrl s v
  by_cases hstatus : r = .status
  · rw [hstatus]; exact keepsUncleared_status s v
  exact (keepsSticky_writeReg s hctrl hstatus v).keepsUncleared _

theorem keepsUncleared_hostWrite {s t : State} {bits : Nat} {offset : Offset} {v : U64}
    (h : hostWrite s bits offset v = .next t) : KeepsUncleared (.write bits offset v) s t := by
  by_cases ha : bits = 64 ∧ offset.toNat % 8 = 0
  case neg => rw [hostWrite_unsupported (by omega)] at h; cases h
  obtain ⟨rfl, ha⟩ := ha
  cases hr : regAt offset with
  | none =>
    obtain rfl := Host.Outcome.next.inj ((hostWrite_reserved ha hr s v).symm.trans h)
    exact (KeepsSticky.of_eq rfl rfl).keepsUncleared _
  | some r =>
    obtain rfl := Host.Outcome.next.inj ((hostWrite_of_regAt hr s v).symm.trans h)
    rw [regAt_eq_some_iff.mp hr]
    exact keepsUncleared_writeReg s r v

theorem hostRead_keepsSticky {s t : State} {bits : Nat} {offset : Offset}
    (h : hostRead s bits offset = .next t) : KeepsSticky s t := by
  unfold hostRead at h
  split at h
  · obtain rfl := Host.Outcome.next.inj h
    exact .of_eq rfl rfl
  · cases h

/-- A move that does not clear a sticky bit keeps it. -/
theorem keepsUncleared_move {s t : State} {e : Event} (h : move e s = .next t) :
    KeepsUncleared e s t := by
  cases e with
  | engine => exact (engineStep_sameHost h).keepsSticky.keepsUncleared _
  | read bits offset => exact (hostRead_keepsSticky h).keepsUncleared _
  | write bits offset v => exact keepsUncleared_hostWrite h
  | powerOn => exact keepsUncleared_of_clears (fun _ => .inr (.inr rfl)) s t

/-! ### Runs -/

theorem run_succ {M : Host.Core} {s t : M.State} (h : M.step s = .next t) (k : Nat) :
    M.run (k + 1) s = M.run k t := by
  rw [Host.Core.run, h]

theorem runsTo_succ {k : Nat} {s t u : State} (hs : step s = .next t) (hr : RunsTo k t u) :
    RunsTo (k + 1) s u :=
  (run_succ (M := core) hs k).trans hr

theorem runsTo_self {s : State} (h : step s = .next s) (k : Nat) : RunsTo k s s := by
  induction k with
  | zero => rfl
  | succ k ih => exact runsTo_succ h ih

/-! ### The statements -/

/-- Settles O4, by computing the decoder on each word. -/
theorem sampleWordsDecode : Obligations.SampleWordsDecode := by
  unfold Obligations.SampleWordsDecode
  decide

/-- Settles O5: a step is the first scheduled move or the engine's, and an engine step is that of
the decoded instruction. -/
theorem stepRunsDecodedInstruction : Obligations.StepRunsDecodedInstruction := by
  refine ⟨fun s l i hs hbusy hd => ?_, fun s l i rest hs hbusy hd => ?_, fun s hs hidle => ?_,
    fun s rest hs hidle => ?_, fun s bits offset rest hs => step_cons hs,
    fun s bits offset v rest hs => step_cons hs, fun s rest hs => step_cons hs⟩
  · rw [step_nil hs, engineStep_ok hbusy hd]
  · rw [step_cons hs]
    exact engineStep_ok (s := { s with schedule := rest }) hbusy hd
  · rw [step_nil hs, engineStep_idle hidle]
  · rw [step_cons hs]
    exact engineStep_idle (s := { s with schedule := rest }) hidle

/-- Settles O3: an illegal word decodes to nothing, so the engine step raises IllegalCommand. -/
theorem illegalWordCompletes : Obligations.IllegalWordCompletes := by
  intro s l hbusy hillegal
  obtain ⟨e, he⟩ := decode_error_of_illegal hillegal
  refine ⟨fun hs => ?_, fun rest hs => ?_⟩
  · rw [step_nil hs, engineStep_error hbusy he, State.raise]
  · rw [step_cons hs]
    exact engineStep_error (s := { s with schedule := rest }) hbusy he

/-- Settles O8: engine steps and power-on answer a next state, and so does a supported access. -/
theorem onlyUnsupportedAccessStops : Obligations.OnlyUnsupportedAccessStops := by
  refine ⟨fun s => ?_, fun s bits offset v h =>
    ⟨hostRead_unsupported h s, hostWrite_unsupported h s v⟩⟩
  cases hs : s.schedule with
  | nil => rw [step_nil hs]; exact .inl (engineStep_next s)
  | cons e rest =>
    rw [step_cons hs]
    cases e with
    | engine => exact .inl (engineStep_next _)
    | powerOn => exact .inl ⟨_, rfl⟩
    | read bits offset =>
      by_cases h : bits ≠ 64 ∨ offset.toNat % 8 ≠ 0
      · exact .inr ⟨bits, offset, rest, h, .inl rfl, hostRead_unsupported h _⟩
      · obtain ⟨rfl, ha⟩ : bits = 64 ∧ offset.toNat % 8 = 0 := by omega
        exact .inl ⟨_, hostRead_aligned ha _⟩
    | write bits offset v =>
      by_cases h : bits ≠ 64 ∨ offset.toNat % 8 ≠ 0
      · exact .inr ⟨bits, offset, rest, h, .inr ⟨v, rfl⟩, hostWrite_unsupported h _ v⟩
      · obtain ⟨rfl, ha⟩ : bits = 64 ∧ offset.toNat % 8 = 0 := by omega
        exact .inl ⟨_, hostWrite_aligned ha _ v⟩

/-- Settles O9: what the command's end frames, and the fields no engine step writes. -/
theorem commandsKeepOtherState : Obligations.CommandsKeepOtherState := by
  intro i s t h
  obtain ⟨houtside, hfifo⟩ := exec_sameOutside h
  obtain ⟨hkey, hkeyAddr, h32, h64, hopa, hopb, hcmd, hpush, hsched, hlog, hfree⟩ := exec_sameHost h
  exact ⟨houtside, hfifo, hkey, hkeyAddr, h32, h64, hopa, hopb, hcmd, hpush, hsched, hlog, hfree⟩

/-- Settles O10: the two pseudocodes come to the same end, up to the other instances. -/
theorem commandsAreReproducible : Obligations.CommandsAreReproducible := by
  intro i s s' l hs hs' hinst hkey
  have hsame : SameProgress i.inst (progressOf i s.key l (s.source l))
      (progressOf i s'.key l (s'.source l)) := by
    rw [← hkey]
    exact progressOf_same (src := s.source l) (src' := s'.source l) ⟨hinst, rfl⟩ s.key l
  generalize hp : progressOf i s.key l (s.source l) = p at hsame
  generalize hp' : progressOf i s'.key l (s'.source l) = p' at hsame
  cases hsame with
  | raise e => exact .inl ⟨e, fails_of_raise hs hp, fails_of_raise hs' hp'⟩
  | needWord => exact .inr (.inr (.inr ⟨takes_of_need hs hp, takes_of_need hs' hp'⟩))
  | @done r g g' h =>
    cases r with
    | none => exact .inr (.inr (.inl ⟨g, g', silent_of_done hs hp, silent_of_done hs' hp', h⟩))
    | some v =>
      exact .inr (.inl ⟨g, g', v, completes_of_done hs hp, completes_of_done hs' hp', h⟩)

/-- Settles O11: only a command on EXT can lack a word. -/
theorem immediateInstancesComplete : Obligations.ImmediateInstancesComplete := by
  intro i s l hbusy hne
  rcases exec_cases hbusy i with ⟨r, g, -, hx, -⟩ | ⟨e, -, hx, -⟩ | ⟨-, -, hext⟩
  · exact ⟨_, hx, rfl, rfl⟩
  · exact ⟨_, hx, rfl, rfl⟩
  · exact absurd hext hne

/-- Settles O12: of the three ends of an engine step only `State.raise` leaves an error, and the
operands decide whether it is that one. -/
theorem errorsArePrecise : Obligations.ErrorsArePrecise := by
  refine ⟨fun i s t l hbusy hx hidle herr => ?_, fun i s s' l l' e he hs hs' ha hb hfails =>
    fails_of_raise hs' (progressOf_raise_congr ha hb (raise_of_fails hs he hfails))⟩
  rcases exec_cases hbusy i with ⟨r, g, -, hx', -⟩ | ⟨e, -, hx', -⟩ | ⟨-, hx', -⟩ <;>
    obtain rfl := Host.Outcome.next.inj (hx'.symm.trans hx)
  · exact absurd rfl herr
  · rfl
  · exact absurd hidle (extDraw_engine_ne_idle hbusy)

/-- Settles O13: a step that clears a sticky bit is a scheduled move, and one of those that do. -/
theorem stickyBitsStay : Obligations.StickyBitsStay := by
  intro s t hstep
  cases hs : s.schedule with
  | nil =>
    obtain ⟨hcmd, hpush⟩ := (engineStep_sameHost (step_nil hs ▸ hstep)).keepsSticky
    exact ⟨fun h hf => absurd (hcmd h) (by simp [hf]), fun h hf => absurd (hpush h) (by simp [hf])⟩
  | cons e rest =>
    obtain ⟨hcmd, hpush⟩ := keepsUncleared_move (step_cons hs ▸ hstep)
    have hmove : ∀ k, ClearsSticky k e →
        (∃ v rest', e :: rest = .write 64 0x010 v :: rest' ∧ v.getLsbD k = true)
        ∨ (∃ v rest', e :: rest = .write 64 0x008 v :: rest' ∧ v.getLsbD 0 = true)
        ∨ (∃ rest', e :: rest = .powerOn :: rest') := by
      rintro k (⟨v, rfl, hv⟩ | ⟨v, rfl, hv⟩ | rfl)
      · exact .inl ⟨v, rest, rfl, hv⟩
      · exact .inr (.inl ⟨v, rest, rfl, hv⟩)
      · exact .inr (.inr ⟨rest, rfl⟩)
    exact ⟨fun h hf => hmove 8 (by_contra fun hn => absurd (hcmd hn h) (by simp [hf])),
      fun h hf => hmove 9 (by_contra fun hn => absurd (hpush hn h) (by simp [hf]))⟩

/-- Settles O14: the held state still lacks the word, so that its step is the same again. -/
theorem emptyFifoHoldsForever : Obligations.EmptyFifoHoldsForever := by
  intro i s l ⟨hsched, hbusy, hdecode⟩ htakes hfifo k
  have hneed := need_of_takes hbusy htakes
  have hold : ∀ t : State, t.schedule = [] → t.engine = .busy l → t.extFifo = [] →
      progressOf i t.key l (t.source l) = .needWord →
      step t = .next { t with waitExt := true } := by
    intro t hsched hbusy hfifo hneed
    rw [step_nil hsched, engineStep_ok hbusy hdecode]
    exact (takes_of_need hbusy hneed).1 hfifo
  exact runsTo_succ (hold s hsched hbusy hfifo hneed)
    (runsTo_self (hold { s with waitExt := true } hsched hbusy hfifo hneed) k)

end Sys2Proof.Machine
end

section
/-! PROOFS. The native draw, widening and narrowing (rules R101 to R105 and R110 to R112 of
40_range_mapping.md): the cases of each draw, and how a drawing command's step ends; then the
statements about NEXT on all four generators, and NEXT32 and NEXT64 on all but EXT. -/

namespace Sys2Proof.Machine

/-! ### Draws from an array -/

section Arrays

variable {w n : Nat} (p : MtParams w) {g : Mt w n}

theorem Mt.ready_of_lt (h : g.idx < n) : g.ready p = g := if_neg (Nat.not_le.mpr h)

theorem Mt.ready_of_ge (h : n ≤ g.idx) : g.ready p = g.reload p := if_pos h

theorem Mt.draw_of_lt (h : g.idx < n) :
    g.draw p = (temper p g.words[g.idx], { g with idx := g.idx + 1 }) := by
  rw [Mt.draw, Mt.ready_of_lt p h, Mt.word_lt g h]

theorem Mt.draw_of_ge (h : n ≤ g.idx) (hn : 0 < n) :
    g.draw p = (temper p (g.reload p).words[0], { g.reload p with idx := 1 }) := by
  rw [Mt.draw, Mt.ready_of_ge p h, Mt.reload_idx, Mt.word_lt _ hn]

end Arrays

/-! ### The cases of Next64 and Next32 -/

section Draws

variable {i : Inst} {src : Source}

theorem next64_of_native64 (h : (src.range i).isNative64 = true) :
    next64 i src = nativeDraw i src := by
  rw [next64_eq, if_pos h]

theorem next64_of_native32 (h64 : (src.range i).isNative64 = false)
    (h32 : (src.range i).isNative32 = true) :
    next64 i src = (nativeDraw i src).bind fun p => (nativeDraw i p.2).map fun q =>
      (pair (lo32 p.1) (lo32 q.1), q.2) := by
  rw [next64_eq, h64, if_neg Bool.false_ne_true, if_pos h32]

theorem next64_of_chunks (h64 : (src.range i).isNative64 = false)
    (h32 : (src.range i).isNative32 = false) :
    next64 i src = (chunk64 (src.range i) 0 0 src.words).map fun p =>
      (p.1, { src with words := p.2 }) := by
  rw [next64_eq, h64, h32, if_neg Bool.false_ne_true, if_neg Bool.false_ne_true]

theorem next32_of_native32 (h : (src.range i).isNative32 = true) :
    next32 i src = (nativeDraw i src).map fun p => (lo32 p.1, p.2) := by
  rw [next32_eq, if_pos h]

theorem next32_of_toggle (h : (src.range i).isNative32 = false)
    (ht : (src.gen.cache i).toggle = true) :
    next32 i src = some ((src.gen.cache i).half,
      { src with gen := src.gen.setCache i { src.gen.cache i with toggle := false } }) := by
  rw [next32_eq, h, if_neg Bool.false_ne_true, if_pos ht]

theorem next32_of_fresh (h : (src.range i).isNative32 = false)
    (ht : (src.gen.cache i).toggle = false) :
    next32 i src = (next64 i src).map fun p =>
      (lo32 p.1, { p.2 with gen := p.2.gen.setCache i { half := hi32 p.1, toggle := true } }) := by
  rw [next32_eq, h, ht, if_neg Bool.false_ne_true, if_neg Bool.false_ne_true]

end Draws

theorem lo32_zext64 (v : U32) : lo32 (zext64 v) = v := by
  apply BitVec.eq_of_toNat_eq
  rw [lo32, BitVec.extractLsb'_toNat, zext64_toNat, Nat.shiftRight_zero, Nat.mod_eq_of_lt v.isLt]

theorem zext64_lo32 (v : U64) : zext64 (lo32 v) = v &&& 0xFFFFFFFF := by
  apply BitVec.eq_of_toNat_eq
  have hmask : (0xFFFFFFFF : U64).toNat = 2 ^ 32 - 1 := rfl
  rw [zext64_toNat, BitVec.toNat_and, hmask, Nat.and_two_pow_sub_one_eq_mod]
  simp [lo32]

/-! ### How a drawing command's step ends -/

section Ends

variable {α : Type} {c : Instr} {s : State} {l : Latched} {draw : Option (α × Source)}
  {out : α → U64}

theorem completes_of_drawn (hbusy : s.engine = .busy l)
    (hp : progressOf c s.key l (s.source l) = drawn draw out) {v : α} {src : Source}
    (hdraw : draw = some (v, src)) : CompletesWith c s src.gen (out v) :=
  completes_of_done hbusy (by rw [hp, hdraw]; rfl)

theorem takes_of_drawn (hbusy : s.engine = .busy l)
    (hp : progressOf c s.key l (s.source l) = drawn draw out) (hdraw : draw = none) :
    TakesWord c s l :=
  takes_of_need hbusy (by rw [hp, hdraw]; rfl)

end Ends

/-- Settles O31: the native draw of each generator, with the two cases of the lazy reload. -/
theorem nextResult : Obligations.NextResult := by
  intro s l hbusy
  have mt32 := completes_of_drawn (c := .next .mt32) (out := id) hbusy rfl (nativeDraw_mt32 _)
  have mt64 := completes_of_drawn (c := .next .mt64) (out := id) hbusy rfl (nativeDraw_mt64 _)
  have add64 := completes_of_drawn (c := .next .add64) (out := id) hbusy rfl (nativeDraw_add64 _)
  rw [State.source_gen] at mt32 mt64 add64
  rw [addAdvance, addIncrement] at add64
  refine ⟨add64, fun k h hk => ?_,
    fun h => ?_, fun k h hk => ?_, fun h => ?_⟩
  · subst hk
    rw [Mt.draw_of_lt mt32Params h] at mt32
    exact mt32
  · rw [Mt.draw_of_ge mt32Params h (by decide)] at mt32
    rw [← reload_eq_inPlace mt32Params _ (by decide) (by decide)]
    exact mt32
  · subst hk
    rw [Mt.draw_of_lt mt64Params h] at mt64
    exact mt64
  · rw [Mt.draw_of_ge mt64Params h (by decide)] at mt64
    rw [← reload_eq_inPlace mt64Params _ (by decide) (by decide)]
    exact mt64

/-- Settles O32: on EXT the native draw is the next popped word. -/
theorem nextOnExt : Obligations.NextOnExt := fun _ _ hbusy =>
  ⟨fun hw => takes_of_drawn hbusy rfl (nativeDraw_ext_nil hw),
    fun _ _ hw => completes_of_drawn (c := .next .ext) (out := id) hbusy rfl
      (nativeDraw_ext_cons (src := State.source _ _) hw)⟩

/-- Settles O33: MT32 is native 32-bit and draws twice, the other two are native 64-bit. -/
theorem next64Result : Obligations.Next64Result := by
  intro s l hbusy
  have mt32 := next64_of_native32 (i := .mt32) (src := s.source l) rfl rfl
  have mt64 := next64_of_native64 (i := .mt64) (src := s.source l) rfl
  have add64 := next64_of_native64 (i := .add64) (src := s.source l) rfl
  rw [nativeDraw_mt32, Option.bind_some, nativeDraw_mt32, Option.map_some, lo32_zext64,
    lo32_zext64] at mt32
  rw [nativeDraw_mt64] at mt64
  rw [nativeDraw_add64, State.source_gen, addAdvance, addIncrement] at add64
  exact ⟨completes_of_drawn (out := id) hbusy rfl mt32,
    completes_of_drawn (out := id) hbusy rfl mt64, completes_of_drawn (out := id) hbusy rfl add64⟩

/-- Settles O35, by Next32's cases on each generator. -/
theorem next32Result : Obligations.Next32Result := by
  intro s l hbusy
  have mt32 := next32_of_native32 (i := .mt32) (src := s.source l) rfl
  have mt64 := next64_of_native64 (i := .mt64) (src := s.source l) rfl
  have add64 := next64_of_native64 (i := .add64) (src := s.source l) rfl
  rw [nativeDraw_mt32, Option.map_some, lo32_zext64] at mt32
  rw [nativeDraw_mt64] at mt64
  rw [nativeDraw_add64, State.source_gen, addAdvance, addIncrement] at add64
  refine ⟨completes_of_drawn (out := zext64) hbusy rfl mt32, fun ht => ?_, fun ht => ?_,
    fun ht => ?_, fun ht => ?_⟩
  · exact completes_of_drawn (out := zext64) hbusy rfl
      (next32_of_toggle (i := .mt64) (src := s.source l) rfl ht)
  · have h := next32_of_fresh (i := .mt64) (src := s.source l) rfl ht
    rw [mt64, Option.map_some] at h
    rw [← zext64_lo32]
    exact completes_of_drawn (out := zext64) hbusy rfl h
  · exact completes_of_drawn (out := zext64) hbusy rfl
      (next32_of_toggle (i := .add64) (src := s.source l) rfl ht)
  · have h := next32_of_fresh (i := .add64) (src := s.source l) rfl ht
    rw [add64, Option.map_some] at h
    have := completes_of_drawn (c := .next32 .add64) (out := zext64) hbusy rfl h
    rw [zext64_lo32] at this
    exact this

end Sys2Proof.Machine
end

section
/-! PROOFS. NEXT64 and NEXT32 on EXT (rules R103 to R105): what the chunks of popped words make,
when they do not yet make 64 bits, and the runs that pop them; then the statements on these. -/

namespace Sys2Proof.Machine

/-! ### Chunks -/

/-- The words a chunked Next64 does not reject (R105). -/
abbrev RangeContext.accepted (rc : RangeContext) (ws : List U64) : List U64 :=
  ws.filter fun v => decide (v ≤ rc.shiftMax)

theorem RangeContext.accepted_cons_of_le {rc : RangeContext} {v : U64} (h : v ≤ rc.shiftMax)
    (ws : List U64) : rc.accepted (v :: ws) = v :: rc.accepted ws :=
  List.filter_cons_of_pos (by simpa using h)

theorem RangeContext.accepted_cons_of_not_le {rc : RangeContext} {v : U64} (h : ¬v ≤ rc.shiftMax)
    (ws : List U64) : rc.accepted (v :: ws) = rc.accepted ws :=
  List.filter_cons_of_neg (by simpa using h)

theorem RangeContext.accepted_append (rc : RangeContext) (ws ws' : List U64) :
    rc.accepted (ws ++ ws') = rc.accepted ws ++ rc.accepted ws' := List.filter_append ws ws'

/-- While the accepted words do not make 64 bits, one more is needed. -/
theorem chunk64_eq_none {rc : RangeContext} {ws : List U64} {acc : U64} {bits : Nat}
    (h : bits + (rc.accepted ws).length * rc.shiftBits < 64) : chunk64 rc acc bits ws = none := by
  induction ws generalizing acc bits with
  | nil => exact if_neg (by omega)
  | cons v rest ih =>
    rw [chunk64, if_neg (by omega)]
    split
    case isTrue hv =>
      rw [RangeContext.accepted_cons_of_le hv, List.length_cons, Nat.succ_mul] at h
      exact ih (by omega)
    case isFalse hv =>
      rw [RangeContext.accepted_cons_of_not_le hv] at h
      exact ih h

/-- Where the last accepted word makes 64 bits, the accepted words are shifted together. -/
theorem chunk64_eq_some {rc : RangeContext} {ws : List U64} {acc : U64} {bits : Nat}
    (h : 64 ≤ bits + (rc.accepted ws).length * rc.shiftBits)
    (hlast : ∀ m < (rc.accepted ws).length, bits + m * rc.shiftBits < 64) :
    ∃ rest, chunk64 rc acc bits ws
      = some ((rc.accepted ws).foldl (fun a c : U64 => (a <<< rc.shiftBits) ||| c) acc, rest) := by
  induction ws generalizing acc bits with
  | nil => exact ⟨[], if_pos (by simpa using h)⟩
  | cons v rest ih =>
    rw [chunk64]
    by_cases hbits : 64 ≤ bits
    · have hnone : rc.accepted (v :: rest) = [] := by
        by_contra hne
        have := hlast 0 (List.length_pos_of_ne_nil hne)
        omega
      exact ⟨v :: rest, by rw [if_pos hbits, hnone]; rfl⟩
    · rw [if_neg hbits]
      split
      case isTrue hv =>
        rw [RangeContext.accepted_cons_of_le hv] at h hlast ⊢
        rw [List.length_cons, Nat.succ_mul] at h
        refine ih (by omega) fun m hm => ?_
        have := hlast (m + 1) (by simpa using hm)
        rw [Nat.succ_mul] at this
        omega
      case isFalse hv =>
        rw [RangeContext.accepted_cons_of_not_le hv] at h hlast ⊢
        exact ih h hlast

/-- A word below 2^k shifted in from the right, on numbers. -/
theorem toNat_shiftLeft_or {c : U64} {k : Nat} (h : c.toNat < 2 ^ k) (a : U64) :
    ((a <<< k) ||| c).toNat = (a.toNat * 2 ^ k + c.toNat) % 2 ^ 64 := by
  rw [BitVec.toNat_or, BitVec.toNat_shiftLeft, ← Nat.mod_eq_of_lt c.isLt, ← Nat.or_mod_two_pow,
    Nat.mod_eq_of_lt c.isLt, ← Nat.shiftLeft_add_eq_or_of_lt h, Nat.shiftLeft_eq]

theorem toNat_foldl_shiftLeft_or {k : Nat} {ws : List U64} (h : ∀ c ∈ ws, c.toNat < 2 ^ k)
    {a : U64} {x : Nat} (hx : a.toNat = x % 2 ^ 64) :
    (ws.foldl (fun a c : U64 => (a <<< k) ||| c) a).toNat
      = (ws.foldl (fun a c => a * 2 ^ k + c.toNat) x) % 2 ^ 64 := by
  induction ws generalizing a x with
  | nil => exact hx
  | cons c ws ih =>
    refine ih (fun d hd => h d (List.mem_cons_of_mem c hd)) ?_
    rw [toNat_shiftLeft_or (h c List.mem_cons_self), hx, Nat.add_mod,
      Nat.mod_mul_mod, ← Nat.add_mod]

/-- The number of accepted words that make 64 bits. -/
abbrev RangeContext.chunks (rc : RangeContext) : Nat := (64 + rc.shiftBits - 1) / rc.shiftBits

theorem RangeContext.lt_chunks_iff {rc : RangeContext} (h : 1 ≤ rc.shiftBits) (m : Nat) :
    m < rc.chunks ↔ m * rc.shiftBits < 64 := by
  rw [← Nat.succ_le_iff, Nat.le_div_iff_mul_le h, Nat.succ_mul]
  omega

theorem toNat_lt_of_mem_accepted {m c : U64} {ws : List U64}
    (h : c ∈ (rangeContext m).accepted ws) : c.toNat < 2 ^ (rangeContext m).shiftBits := by
  have hle : c ≤ (rangeContext m).shiftMax := by simpa using (List.mem_filter.mp h).2
  have hnat : c.toNat ≤ 2 ^ (rangeContext m).shiftBits - 1 := toNat_shiftMax m ▸ hle
  have := Nat.two_pow_pos (rangeContext m).shiftBits
  omega

/-! ### Next64 on EXT -/

section Ext

variable {src : Source}

theorem range_ext (src : Source) : src.range .ext = rangeContext src.gen.extNativeMax := rfl

theorem isNative64_eq_false {m : U64} (h : m ≠ 0xFFFFFFFFFFFFFFFF) :
    (rangeContext m).isNative64 = false := beq_eq_false_iff_ne.mpr h

theorem isNative32_eq_false {m : U64} (h : m ≠ 0xFFFFFFFF) :
    (rangeContext m).isNative32 = false := beq_eq_false_iff_ne.mpr h

theorem isNative64_ext (h : src.gen.extNativeMax = 0xFFFFFFFFFFFFFFFF) :
    (src.range .ext).isNative64 = true := by rw [range_ext, h]; rfl

theorem isNative32_ext (h : src.gen.extNativeMax = 0xFFFFFFFF) :
    (src.range .ext).isNative32 = true := by rw [range_ext, h]; rfl

theorem next64_ext_native64 (h : src.gen.extNativeMax = 0xFFFFFFFFFFFFFFFF) :
    next64 .ext src = nativeDraw .ext src := next64_of_native64 (isNative64_ext h)

theorem next64_ext_native32 (h : src.gen.extNativeMax = 0xFFFFFFFF) :
    next64 .ext src = (nativeDraw .ext src).bind fun p => (nativeDraw .ext p.2).map fun q =>
      (pair (lo32 p.1) (lo32 q.1), q.2) :=
  next64_of_native32 (isNative64_eq_false (by simp [Generators.nativeMax, h])) (isNative32_ext h)

theorem next64_ext_native32_none (h : src.gen.extNativeMax = 0xFFFFFFFF)
    (hw : src.words.length < 2) : next64 .ext src = none := by
  rw [next64_ext_native32 h]
  match hws : src.words with
  | [] => rw [nativeDraw_ext_nil hws]; rfl
  | [a] => rw [nativeDraw_ext_cons hws, Option.bind_some, nativeDraw_ext_nil rfl]; rfl
  | a :: b :: rest => simp [hws] at hw

theorem next64_ext_native32_some (h : src.gen.extNativeMax = 0xFFFFFFFF) {hi lo : U64}
    {rest : List U64} (hw : src.words = hi :: lo :: rest) :
    next64 .ext src = some (pair (lo32 hi) (lo32 lo), { src with words := rest }) := by
  rw [next64_ext_native32 h, nativeDraw_ext_cons hw, Option.bind_some, nativeDraw_ext_cons rfl]
  rfl

variable (h64 : src.gen.extNativeMax ≠ 0xFFFFFFFFFFFFFFFF) (h32 : src.gen.extNativeMax ≠ 0xFFFFFFFF)
  (hpos : src.gen.extNativeMax ≠ 0)
include h64 h32 hpos

theorem next64_ext_chunks_none
    (h : ((rangeContext src.gen.extNativeMax).accepted src.words).length
      < (rangeContext src.gen.extNativeMax).chunks) : next64 .ext src = none := by
  have hbits := (RangeContext.lt_chunks_iff (one_le_shiftBits hpos) _).mp h
  rw [next64_of_chunks (i := .ext) (isNative64_eq_false h64) (isNative32_eq_false h32), range_ext,
    chunk64_eq_none (by omega)]
  rfl

theorem next64_ext_chunks_some
    (h : ((rangeContext src.gen.extNativeMax).accepted src.words).length
      = (rangeContext src.gen.extNativeMax).chunks) :
    ∃ v rest, next64 .ext src = some (v, { src with words := rest })
      ∧ v.toNat = (((rangeContext src.gen.extNativeMax).accepted src.words).foldl
          (fun a c => a * 2 ^ (rangeContext src.gen.extNativeMax).shiftBits + c.toNat) 0)
        % 2 ^ 64 := by
  have hchunks := RangeContext.lt_chunks_iff (one_le_shiftBits hpos)
  have hfull := mt (hchunks _).mpr (Nat.lt_irrefl _)
  obtain ⟨rest, hrest⟩ := chunk64_eq_some (rc := rangeContext src.gen.extNativeMax) (acc := 0)
    (bits := 0) (ws := src.words) (by rw [h]; omega)
    (fun m hm => by have := (hchunks m).mp (h ▸ hm); omega)
  rw [next64_of_chunks (i := .ext) (isNative64_eq_false h64) (isNative32_eq_false h32), range_ext,
    hrest]
  exact ⟨_, rest, rfl, toNat_foldl_shiftLeft_or (fun _ => toNat_lt_of_mem_accepted) rfl⟩

end Ext

/-- Next64 on EXT uses up words and leaves the instances. -/
theorem next64_ext_gen {src src' : Source} {v : U64} (h : next64 .ext src = some (v, src')) :
    src'.gen = src.gen := by
  have hdraw : ∀ {a b : Source} {x : U64}, nativeDraw .ext a = some (x, b) → b.gen = a.gen := by
    intro a b x hx
    cases hw : a.words with
    | nil => rw [nativeDraw_ext_nil hw] at hx; cases hx
    | cons y rest => rw [nativeDraw_ext_cons hw] at hx; cases hx; rfl
  rcases next64_cases h with ⟨-, h⟩ | ⟨-, -, _, _, _, h1, h2, -⟩ | ⟨-, -, -, _, -, rfl⟩
  · exact hdraw h
  · exact (hdraw h2).trans (hdraw h1)
  · rfl

theorem completes_next64_ext {s : State} {l : Latched} (hbusy : s.engine = .busy l) {v : U64}
    {src : Source} (h : next64 .ext (s.source l) = some (v, src)) :
    CompletesWith (.next64 .ext) s s.gen v := by
  have := completes_of_drawn (c := .next64 .ext) (out := id) hbusy rfl h
  rwa [next64_ext_gen h] at this

/-- Settles O34, by the three kinds of native maximum. -/
theorem next64OnExt : Obligations.Next64OnExt := by
  intro s l hbusy hpos
  refine ⟨fun hmax => ⟨fun hw => ?_, fun v hw => ?_⟩,
    fun hmax => ⟨fun hw => ?_, fun hi lo hw => ?_⟩,
    fun h64 h32 => ⟨fun hlen => ?_, fun hlen => ?_⟩⟩
  · exact takes_of_drawn hbusy rfl
      ((next64_ext_native64 (src := s.source l) hmax).trans (nativeDraw_ext_nil hw))
  · exact completes_next64_ext hbusy
      ((next64_ext_native64 (src := s.source l) hmax).trans (nativeDraw_ext_cons hw))
  · exact takes_of_drawn hbusy rfl (next64_ext_native32_none (src := s.source l) hmax hw)
  · exact completes_next64_ext hbusy (next64_ext_native32_some (src := s.source l) hmax hw)
  · exact takes_of_drawn hbusy rfl (next64_ext_chunks_none (src := s.source l) h64 h32 hpos hlen)
  · obtain ⟨v, rest, hv, hval⟩ := next64_ext_chunks_some (src := s.source l) h64 h32 hpos hlen
    exact ⟨v, completes_next64_ext hbusy hv, hval⟩

/-- Settles O36, by Next32's cases on EXT; the last one follows Next64. -/
theorem next32OnExt : Obligations.Next32OnExt := by
  intro s l hbusy
  refine ⟨fun hmax => ?native, fun hmax ht => ?cached, fun hmax ht => ?fresh⟩
  case native =>
    have hdraw := next32_of_native32 (src := s.source l) (isNative32_ext hmax)
    refine ⟨fun hw => ?_, fun v rest hw => ?_⟩
    · rw [nativeDraw_ext_nil hw] at hdraw
      exact takes_of_drawn hbusy rfl hdraw
    · rw [nativeDraw_ext_cons hw] at hdraw
      rw [← zext64_lo32]
      exact completes_of_drawn (c := .next32 .ext) hbusy rfl hdraw
  case cached =>
    exact completes_of_drawn (c := .next32 .ext) hbusy rfl
      (next32_of_toggle (src := s.source l) (isNative32_eq_false hmax) ht)
  case fresh =>
    have hdraw := next32_of_fresh (src := s.source l) (i := .ext) (isNative32_eq_false hmax) ht
    cases h64 : next64 .ext (s.source l) with
    | none =>
      rw [h64] at hdraw
      exact .inl ⟨takes_of_drawn hbusy rfl h64, takes_of_drawn hbusy rfl hdraw⟩
    | some p =>
      obtain ⟨v, src⟩ := p
      rw [h64, Option.map_some, next64_ext_gen h64] at hdraw
      refine .inr ⟨v, completes_next64_ext hbusy h64, ?_⟩
      rw [← zext64_lo32]
      exact completes_of_drawn (c := .next32 .ext) hbusy rfl hdraw

theorem ofNat_pair (hi lo : U64) :
    BitVec.ofNat 64 (hi.toNat % 2 ^ 32 * 2 ^ 32 + lo.toNat % 2 ^ 32)
      = pair (lo32 hi) (lo32 lo) := by
  apply BitVec.eq_of_toNat_eq
  have hlo : lo.toNat % 2 ^ 32 < 2 ^ 32 := Nat.mod_lt _ (by decide)
  rw [pair, BitVec.toNat_append, BitVec.toNat_ofNat, ← Nat.shiftLeft_add_eq_or_of_lt (lo32 lo).isLt,
    Nat.shiftLeft_eq]
  simp [lo32]
  omega

/-! ### Runs of NEXT64 on EXT -/

/-- NEXT64 on EXT pops the words `ws`, no fewer, and ends with `r`. -/
structure PopsExactly (g : Generators) (ws : List U64) (r : U64) : Prop where
  need : ∀ pre w suf, ws = pre ++ w :: suf → next64 .ext { gen := g, words := pre } = none
  ends : ∃ src, next64 .ext { gen := g, words := ws } = some (r, src)

section Assemblies

variable {g : Generators}

theorem PopsExactly.of_native64 (hmax : g.extNativeMax = 0xFFFFFFFFFFFFFFFF) (w : U64) :
    PopsExactly g [w] w where
  need pre x suf hsplit := by
    have hlen := congrArg List.length hsplit
    have hpre : pre = [] := List.eq_nil_of_length_eq_zero (by simp at hlen; omega)
    rw [next64_ext_native64 hmax, nativeDraw_ext_nil hpre]
  ends := ⟨_, by rw [next64_ext_native64 hmax, nativeDraw_ext_cons rfl]⟩

theorem PopsExactly.of_native32 (hmax : g.extNativeMax = 0xFFFFFFFF) (hi lo : U64) :
    PopsExactly g [hi, lo] (pair (lo32 hi) (lo32 lo)) where
  need pre x suf hsplit := by
    have hlen := congrArg List.length hsplit
    exact next64_ext_native32_none hmax (show pre.length < 2 by simp at hlen; omega)
  ends := ⟨_, next64_ext_native32_some hmax rfl⟩

/-- The last word is accepted, so that no shorter list has all the chunks. -/
theorem PopsExactly.of_chunks (h64 : g.extNativeMax ≠ 0xFFFFFFFFFFFFFFFF)
    (h32 : g.extNativeMax ≠ 0xFFFFFFFF) (hpos : g.extNativeMax ≠ 0) {init : List U64} {last : U64}
    (hlast : last ≤ (rangeContext g.extNativeMax).shiftMax)
    (hlen : ((rangeContext g.extNativeMax).accepted (init ++ [last])).length
      = (rangeContext g.extNativeMax).chunks) :
    PopsExactly g (init ++ [last])
      (BitVec.ofNat 64 ((((rangeContext g.extNativeMax).accepted (init ++ [last])).foldl
        (fun a c => a * 2 ^ (rangeContext g.extNativeMax).shiftBits + c.toNat) 0) % 2 ^ 64)) where
  need pre x suf hsplit := by
    refine next64_ext_chunks_none h64 h32 hpos ?_
    have hmem : last ∈ x :: suf := by
      have := congrArg List.getLast? hsplit
      simp at this
      exact List.mem_of_getLast? this.symm
    have haccepted : 0 < ((rangeContext g.extNativeMax).accepted (x :: suf)).length :=
      List.length_pos_of_mem (List.mem_filter.mpr ⟨hmem, by simpa using hlast⟩)
    rw [hsplit, RangeContext.accepted_append, List.length_append] at hlen
    exact Nat.lt_of_lt_of_eq (Nat.lt_add_of_pos_right haccepted) hlen
  ends := by
    obtain ⟨r, rest, hr, hval⟩ :=
      next64_ext_chunks_some (src := { gen := g, words := init ++ [last] }) h64 h32 hpos hlen
    exact ⟨_, by rw [hr, ← hval, BitVec.ofNat_toNat, BitVec.setWidth_eq]⟩

/-- The words of an assembly are exactly those that NEXT64 pops. -/
theorem PopsExactly.of_assembles {ws : List U64} {v : Nat} (hpos : g.extNativeMax ≠ 0)
    (h : AssemblesTo g.extNativeMax ws v) : PopsExactly g ws (BitVec.ofNat 64 v) := by
  by_cases h64 : g.extNativeMax = 0xFFFFFFFFFFFFFFFF
  · rw [AssemblesTo, if_pos h64] at h
    obtain ⟨w, rfl, rfl⟩ := h
    rw [BitVec.ofNat_toNat, BitVec.setWidth_eq]
    exact .of_native64 h64 w
  by_cases h32 : g.extNativeMax = 0xFFFFFFFF
  · rw [AssemblesTo, if_neg h64, if_pos h32] at h
    obtain ⟨hi, lo, rfl, rfl⟩ := h
    rw [ofNat_pair]
    exact .of_native32 h32 hi lo
  · rw [AssemblesTo, if_neg h64, if_neg h32] at h
    obtain ⟨hlen, ⟨init, last, rfl, hlast⟩, rfl⟩ := h
    exact .of_chunks h64 h32 hpos hlast hlen

end Assemblies

theorem step_engine {s t : State} {rest : List Event} (hsched : s.schedule = .engine :: rest)
    (h : engineStep { s with schedule := rest } = .next t) : step s = .next t :=
  (step_cons hsched).trans h

/-- The engine is busy with a NEXT64 on EXT that has popped `pre`. -/
structure InNext64 (s : State) (l : Latched) (pre : List U64) : Prop where
  engine : s.engine = .busy { l with drawn := pre }
  decode : decode l.cmd = .ok (.next64 .ext)

section Runs

variable {s : State} {l : Latched} {pre : List U64} {r : U64}

theorem InNext64.pop {w : U64} {suf rest : List U64} (h : InNext64 s l pre)
    (hp : PopsExactly s.gen (pre ++ w :: suf) r) (hfifo : s.extFifo = w :: rest) :
    engineStep s = .next { s with waitExt := false, extFifo := rest,
                                  engine := .busy { l with drawn := pre ++ [w] } } := by
  rw [engineStep_ok h.engine h.decode]
  exact (takes_of_drawn h.engine rfl (hp.need pre w suf rfl)).2 w rest hfifo

theorem InNext64.finish (h : InNext64 s l pre) (hp : PopsExactly s.gen pre r) :
    engineStep s = .next { s with res := r, err := .ok, engine := .idle, waitExt := false } := by
  obtain ⟨src, hsrc⟩ := hp.ends
  rw [engineStep_ok h.engine h.decode]
  exact completes_next64_ext h.engine hsrc

/-- With the words in the FIFO: one step for each, and one more. -/
theorem InNext64.runs_fifo {suf : List U64} (h : InNext64 s l pre)
    (hp : PopsExactly s.gen (pre ++ suf) r) (hsched : s.schedule = []) (hfifo : s.extFifo = suf) :
    RunsTo (suf.length + 1) s { s with
      extFifo := [], res := r, err := .ok, engine := .idle, waitExt := false } := by
  induction suf generalizing s pre with
  | nil =>
    rw [List.append_nil] at hp
    refine runsTo_succ ((step_nil hsched).trans (h.finish hp)) ?_
    rw [hfifo]
    rfl
  | cons w suf ih =>
    refine runsTo_succ ((step_nil hsched).trans (h.pop hp hfifo)) ?_
    rw [List.append_cons] at hp
    exact ih ⟨rfl, h.decode⟩ hp hsched rfl

theorem step_push {w : U64} {later : List Event} (hsched : s.schedule = .write 64 0x050 w :: later)
    (hfifo : s.extFifo = []) (hmax : w ≤ s.gen.extNativeMax) :
    step s = .next { s with extFifo := [w], waitExt := false, schedule := later } := by
  have hpush := State.push_taken (s := { s with schedule := later }) (by simp [hfifo]) hmax
  rw [step_cons hsched]
  refine (hostWrite_of_regAt (r := .extPush) rfl _ w).trans ?_
  rw [writeReg, hpush, hfifo]
  rfl

/-- A push and the engine step that pops it. -/
theorem InNext64.runs_push_pop {w : U64} {suf : List U64} {later : List Event} {k : Nat} {t : State}
    (h : InNext64 s l pre) (hp : PopsExactly s.gen (pre ++ w :: suf) r)
    (hmax : w ≤ s.gen.extNativeMax) (hfifo : s.extFifo = [])
    (hsched : s.schedule = .write 64 0x050 w :: .engine :: later)
    (hrest : RunsTo k { s with waitExt := false, engine := .busy { l with drawn := pre ++ [w] }
                               schedule := later } t) :
    RunsTo (k + 1 + 1) s t := by
  have hready : InNext64 { s with extFifo := [w], waitExt := false, schedule := later } l pre :=
    ⟨h.engine, h.decode⟩
  refine runsTo_succ (step_push hsched hfifo hmax) ?_
  refine runsTo_succ (step_engine rfl (hready.pop hp rfl)) ?_
  rw [hfifo] at hrest
  exact hrest

/-- With the host pushing each word before an engine step: two steps for each, and one more. -/
theorem InNext64.runs_pushes {suf : List U64} {rest : List Event} (h : InNext64 s l pre)
    (hp : PopsExactly s.gen (pre ++ suf) r) (hmax : ∀ w ∈ suf, w ≤ s.gen.extNativeMax)
    (hfifo : s.extFifo = [])
    (hsched : s.schedule = suf.flatMap (fun w => [.write 64 0x050 w, .engine]) ++ .engine :: rest) :
    RunsTo (2 * suf.length + 1) s { s with
      res := r, err := .ok, engine := .idle, waitExt := false, schedule := rest } := by
  induction suf generalizing s pre with
  | nil =>
    rw [List.append_nil] at hp
    have hlast : InNext64 { s with schedule := rest } l pre := ⟨h.engine, h.decode⟩
    exact runsTo_succ (step_engine hsched (hlast.finish hp)) rfl
  | cons w suf ih =>
    refine h.runs_push_pop hp (hmax w List.mem_cons_self) hfifo hsched ?_
    rw [List.append_cons] at hp
    exact ih ⟨rfl, h.decode⟩ hp (fun x hx => hmax x (List.mem_cons_of_mem w hx)) hfifo rfl

end Runs

/-- Settles O37: NEXT64 pops exactly the words of its assembly, and both ways of bringing them run
by induction on the words still to come. -/
theorem extAssemblyRuns : Obligations.ExtAssemblyRuns := by
  intro s l ws v hbusy hdecode hdrawn hpos hassembles
  have hp : PopsExactly s.gen ([] ++ ws) (BitVec.ofNat 64 v) := .of_assembles hpos hassembles
  have h : InNext64 s l [] := ⟨by rw [hbusy, ← hdrawn], hdecode⟩
  exact ⟨h.runs_fifo hp, fun rest hfifo hmax hsched => h.runs_pushes hp hmax hfifo hsched⟩

end Sys2Proof.Machine
end

section
/-! PROOFS. Ranged integers (rules R106, R107 and R113 to R120 of 40_range_mapping.md). The eight
commands are four forms, each with a minimum and a maximum: the one-sided forms have minimum 0. The
arithmetic of a range comes first, then what a ranged command comes to, then the statements. -/

namespace Sys2Proof.Machine

/-! ### Ranges of words -/

section Ranges

variable {w : Nat} {lo hi x : BitVec w}

theorem toNat_add_of_le_sub (hle : lo.toNat ≤ hi.toNat) (hx : x.toNat ≤ (hi - lo).toNat) :
    (lo + x).toNat = lo.toNat + x.toNat := by
  rw [BitVec.toNat_sub_of_le hle] at hx
  exact BitVec.toNat_add_of_lt (by have := hi.isLt; omega)

theorem natCast_toNat_eq_toInt_emod (x : BitVec w) : (x.toNat : Int) = x.toInt % (2 ^ w : Nat) := by
  rw [BitVec.toInt_eq_toNat_bmod, Int.bmod_emod, ← Int.natCast_mod, Nat.mod_eq_of_lt x.isLt]

/-- The width of a two's complement range is the difference of its bounds, up to 2^w - 1. -/
theorem natCast_toNat_sub (hle : lo.toInt ≤ hi.toInt) :
    ((hi - lo).toNat : Int) = hi.toInt - lo.toInt := by
  have hhi := hi.two_mul_toInt_lt
  have hlo := lo.le_two_mul_toInt
  rw [natCast_toNat_eq_toInt_emod, BitVec.toInt_sub, Int.bmod_emod,
    Int.emod_eq_of_lt (by omega) (by push_cast; omega)]

theorem toInt_add_of_le_sub (hle : lo.toInt ≤ hi.toInt) (hx : x.toNat ≤ (hi - lo).toNat) :
    (lo + x).toInt = lo.toInt + x.toNat := by
  have hwidth := natCast_toNat_sub hle
  have hhi := hi.two_mul_toInt_lt
  have hlo := lo.le_two_mul_toInt
  rw [BitVec.toInt_add, x.toInt_eq_toNat_bmod, Int.add_bmod_bmod]
  exact Int.bmod_eq_of_le (by push_cast; omega) (by push_cast; omega)

theorem toInt_sext64 (v : U32) : (sext64 v).toInt = v.toInt :=
  BitVec.toInt_signExtend_of_le (by decide)

theorem badRange_unsigned_iff {incl : Bool} :
    badRange (decide (hi < lo)) (hi == lo) incl = true
      ↔ hi.toNat < lo.toNat ∨ (incl = false ∧ hi.toNat = lo.toNat) := by
  simp [badRange, BitVec.lt_def, BitVec.toNat_inj]

theorem badRange_signed_iff {incl : Bool} :
    badRange (hi.slt lo) (hi == lo) incl = true
      ↔ hi.toInt < lo.toInt ∨ (incl = false ∧ hi.toInt = lo.toInt) := by
  simp [badRange, BitVec.slt_iff_toInt_lt, BitVec.toInt_inj]

/-- A range is legal exactly where it does not raise InvalidRange. -/
theorem badRange_unsigned_eq_false_iff {incl : Bool} :
    badRange (decide (hi < lo)) (hi == lo) incl = false
      ↔ lo.toNat < hi.toNat ∨ (incl = true ∧ lo.toNat = hi.toNat) := by
  rw [Bool.eq_false_iff, Ne, badRange_unsigned_iff]
  cases incl <;> simp only [true_and, false_and, or_false, reduceCtorEq] <;> omega

theorem badRange_signed_eq_false_iff {incl : Bool} :
    badRange (hi.slt lo) (hi == lo) incl = false
      ↔ lo.toInt < hi.toInt ∨ (incl = true ∧ lo.toInt = hi.toInt) := by
  rw [Bool.eq_false_iff, Ne, badRange_signed_iff]
  cases incl <;> simp only [true_and, false_and, or_false, reduceCtorEq] <;> omega

end Ranges

/-- A legal range: its bounds are in order, and its width operand is 0 only with INCL. -/
theorem le_and_width_of_legal_unsigned {w : Nat} {lo hi : BitVec w} {incl : Bool}
    (h : lo.toNat < hi.toNat ∨ (incl = true ∧ lo.toNat = hi.toNat)) :
    lo.toNat ≤ hi.toNat ∧ (incl = true ∨ (hi - lo).toNat ≠ 0) := by
  have hle : lo.toNat ≤ hi.toNat := by omega
  rw [BitVec.toNat_sub_of_le hle]
  exact ⟨hle, h.symm.imp And.left fun _ => by omega⟩

theorem le_and_width_of_legal_signed {w : Nat} {lo hi : BitVec w} {incl : Bool}
    (h : lo.toInt < hi.toInt ∨ (incl = true ∧ lo.toInt = hi.toInt)) :
    lo.toInt ≤ hi.toInt ∧ (incl = true ∨ (hi - lo).toNat ≠ 0) := by
  have hle : lo.toInt ≤ hi.toInt := by omega
  have hwidth := natCast_toNat_sub hle
  exact ⟨hle, h.symm.imp And.left fun _ => by omega⟩

/-! ### The mapped draws -/

/-- MapU32 on a drawn word (R106). -/
def map32 (m : U32) (incl : Bool) (r : U32) : U32 :=
  if incl && m == 0xFFFFFFFF then r else mulShift32 r (zext64 m + inclAddend incl)

/-- MapU64 on a drawn word, for a width operand above 2^32 - 1 (R107). -/
def map64 (m : U64) (incl : Bool) (r : U64) : U64 :=
  if incl && m == 0xFFFFFFFFFFFFFFFF then r else crossSum r (m + inclAddend incl)

theorem mapU32_eq_map32 (i : Inst) (m : U32) (incl : Bool) (src : Source) :
    mapU32 i m incl src = (next32 i src).map fun p => (map32 m incl p.1, p.2) := mapU32_eq ..

theorem mapU64_eq_map32 (i : Inst) {m : U64} (h : m.toNat < 2 ^ 32) (incl : Bool) (src : Source) :
    mapU64 i m incl src = (next32 i src).map fun p => (zext64 (map32 (lo32 m) incl p.1), p.2) := by
  have hle : m ≤ 0xFFFFFFFF := Nat.le_of_lt_succ h
  rw [mapU64_eq, if_pos hle, mapU32_eq_map32, Option.map_map]
  rfl

theorem mapU64_eq_map64 (i : Inst) {m : U64} (h : 2 ^ 32 ≤ m.toNat) (incl : Bool) (src : Source) :
    mapU64 i m incl src = (next64 i src).map fun p => (map64 m incl p.1, p.2) := by
  have hlt : ¬m ≤ 0xFFFFFFFF := Nat.not_le_of_lt h
  rw [mapU64_eq, if_neg hlt]
  rfl

section Mapped

variable {incl : Bool}

theorem toNat_map32 {m : U32} (h : incl = true ∨ m.toNat ≠ 0) (r : U32) :
    (map32 m incl r).toNat = r.toNat * (m.toNat + incl.toNat) / 2 ^ 32 :=
  map32_val r m incl (h.imp_right fun hm => by rintro rfl; exact hm rfl)

theorem toNat_lo32_of_lt {m : U64} (h : m.toNat < 2 ^ 32) : (lo32 m).toNat = m.toNat := by
  rw [lo32, BitVec.extractLsb'_toNat, Nat.shiftRight_zero, Nat.mod_eq_of_lt h]

/-- The full width is the one width operand to which INCL cannot be added (R107). -/
theorem toNat_add_inclAddend {m : U64} (h : ¬(incl = true ∧ m.toNat = 2 ^ 64 - 1)) :
    (m + inclAddend incl).toNat = m.toNat + incl.toNat := by
  have hm := m.isLt
  cases incl with
  | false => exact congrArg BitVec.toNat (BitVec.add_zero m)
  | true =>
    have hne : m.toNat ≠ 2 ^ 64 - 1 := fun he => h ⟨rfl, he⟩
    exact BitVec.toNat_add_of_lt (show m.toNat + 1 < 2 ^ 64 by omega)

theorem map64_eq (m : U64) (r : U64) :
    map64 m incl r = if incl = true ∧ m.toNat = 2 ^ 64 - 1 then r
      else crossSum r (m + inclAddend incl) := by
  simp only [map64, Bool.and_eq_true, beq_iff_eq, ← BitVec.toNat_inj]
  rfl

theorem toNat_map64 (m : U64) (r : U64) :
    (map64 m incl r).toNat = mapped64 r.toNat m.toNat incl := by
  rw [map64_eq, mapped64]
  split
  case isTrue => rfl
  case isFalse hfull => rw [crossSum_toNat, toNat_add_inclAddend hfull]

theorem pos_of_legal {m : Nat} (h : incl = true ∨ m ≠ 0) : 0 < m + incl.toNat := by
  rcases h with rfl | h
  · exact Nat.succ_pos m
  · omega

end Mapped

/-! ### The three-product sum -/

/-- The cross sum drops the low-low product and two carries (R107). -/
theorem crossSum_near_floor (a b c d : Nat) (ha : a < 2 ^ 32) (hc : c < 2 ^ 32) :
    a * d / 2 ^ 32 + b * c / 2 ^ 32 + b * d ≤ (b * 2 ^ 32 + a) * (d * 2 ^ 32 + c) / 2 ^ 64
    ∧ (b * 2 ^ 32 + a) * (d * 2 ^ 32 + c) / 2 ^ 64
      ≤ a * d / 2 ^ 32 + b * c / 2 ^ 32 + b * d + 2 := by
  have hac : a * c < 2 ^ 64 := calc
    a * c ≤ 2 ^ 32 * c := Nat.mul_le_mul_right c ha.le
    _ < 2 ^ 32 * 2 ^ 32 := by omega
  have hprod : (b * 2 ^ 32 + a) * (d * 2 ^ 32 + c)
      = b * d * 2 ^ 64 + (a * d + b * c) * 2 ^ 32 + a * c := by ring
  rw [hprod]
  generalize a * d = x at *
  generalize b * c = y at *
  generalize b * d = z at *
  omega

/-- Settles O44: both words are cut into halves. -/
theorem crossSumNearFloor : Obligations.CrossSumNearFloor := by
  intro r w
  have h := crossSum_near_floor (r.toNat % 2 ^ 32) (r.toNat / 2 ^ 32) (w.toNat % 2 ^ 32)
    (w.toNat / 2 ^ 32) (Nat.mod_lt _ (by decide)) (Nat.mod_lt _ (by decide))
  rwa [← crossSum_toNat, Nat.div_add_mod', Nat.div_add_mod'] at h

/-! ### The bound of a mapped draw -/

theorem map32_lt {m : U32} {incl : Bool} (h : incl = true ∨ m.toNat ≠ 0) (r : U32) :
    (map32 m incl r).toNat < m.toNat + incl.toNat := by
  rw [toNat_map32 h]
  exact mapped32_lt _ _ r.isLt (pos_of_legal h)

theorem map64_lt {m : U64} {incl : Bool} (h : incl = true ∨ m.toNat ≠ 0) (r : U64) :
    (map64 m incl r).toNat < m.toNat + incl.toNat := by
  rw [map64_eq]
  split
  case isTrue hfull =>
    have := r.isLt
    rw [hfull.1, hfull.2]
    exact this
  case isFalse hfull =>
    refine (crossSumNearFloor r _).1.trans_lt ?_
    rw [Nat.div_lt_iff_lt_mul (by decide), toNat_add_inclAddend hfull, Nat.mul_comm]
    exact Nat.mul_lt_mul_of_pos_left r.isLt (pos_of_legal h)

/-! ### The four forms -/

/-- An unsigned 32-bit ranged command with minimum `lo` and maximum `hi` (R113, R114). -/
def rangedU32 (i : Inst) (lo hi : U32) (incl : Bool) (src : Source) : Progress :=
  ranged (badRange (decide (hi < lo)) (hi == lo) incl) (mapU32 i (hi - lo) incl src)
    fun v => zext64 (lo + v)

/-- A signed 32-bit ranged command (R115, R116). -/
def rangedI32 (i : Inst) (lo hi : U32) (incl : Bool) (src : Source) : Progress :=
  ranged (badRange (hi.slt lo) (hi == lo) incl) (mapU32 i (hi - lo) incl src)
    fun v => sext64 (lo + v)

/-- An unsigned 64-bit ranged command (R117, R118). -/
def rangedU64 (i : Inst) (lo hi : U64) (incl : Bool) (src : Source) : Progress :=
  ranged (badRange (decide (hi < lo)) (hi == lo) incl) (mapU64 i (hi - lo) incl src) fun v => lo + v

/-- A signed 64-bit ranged command (R119, R120). -/
def rangedI64 (i : Inst) (lo hi : U64) (incl : Bool) (src : Source) : Progress :=
  ranged (badRange (hi.slt lo) (hi == lo) incl) (mapU64 i (hi - lo) incl src) fun v => lo + v

section Forms

variable (i : Inst) (incl : Bool) (key : Vector U64 624) (l : Latched) (src : Source)

theorem progressOf_getu32 :
    progressOf (.getu32 i incl) key l src = rangedU32 i 0#32 l.a32 incl src := by
  simp [progressOf, rangedU32]

theorem progressOf_getu32r :
    progressOf (.getu32r i incl) key l src = rangedU32 i l.a32 l.b32 incl src := rfl

theorem progressOf_geti32 :
    progressOf (.geti32 i incl) key l src = rangedI32 i 0#32 l.a32 incl src := by
  simp [progressOf, rangedI32]

theorem progressOf_geti32r :
    progressOf (.geti32r i incl) key l src = rangedI32 i l.a32 l.b32 incl src := rfl

theorem progressOf_getu64 :
    progressOf (.getu64 i incl) key l src = rangedU64 i 0#64 l.opa incl src := by
  simp [progressOf, rangedU64]
  rfl

theorem progressOf_getu64r :
    progressOf (.getu64r i incl) key l src = rangedU64 i l.opa l.opb incl src := rfl

theorem progressOf_geti64 :
    progressOf (.geti64 i incl) key l src = rangedI64 i 0#64 l.opa incl src := by
  simp [progressOf, rangedI64]
  rfl

theorem progressOf_geti64r :
    progressOf (.geti64r i incl) key l src = rangedI64 i l.opa l.opb incl src := rfl

end Forms

/-! ### What a ranged command comes to -/

section Ends

variable {α β : Type} {c : Instr} {i : Inst} {s : State} {l : Latched} {incl bad : Bool}

/-- A legal ranged command completes with its mapped draw, or stands at one. -/
theorem ranged_ends (hbusy : s.engine = .busy l) {draw : Option (α × Source)} {f : α → β}
    {out : β → U64} (hp : progressOf c s.key l (s.source l)
      = ranged bad (draw.map fun p => (f p.1, p.2)) out) (hbad : bad = false) :
    (∀ r src, draw = some (r, src) → CompletesWith c s src.gen (out (f r)))
    ∧ (draw = none → TakesWord c s l) := by
  rw [hbad] at hp
  refine ⟨fun r src hd => ?_, fun hd => ?_⟩
  · exact completes_of_drawn hbusy hp (by rw [hd]; rfl)
  · exact takes_of_drawn hbusy hp (by rw [hd]; rfl)

/-- A ranged command that completes had a legal range and its draw. -/
theorem draw_of_ranged_completes (hbusy : s.engine = .busy l) {draw : Option (α × Source)}
    {out : α → U64} (hp : progressOf c s.key l (s.source l) = ranged bad draw out)
    {g : Generators} {v : U64} (h : CompletesWith c s g v) :
    bad = false ∧ ∃ x src, draw = some (x, src) ∧ v = out x := by
  obtain ⟨r, hdone, hres⟩ := done_of_completes hbusy h
  rw [hp] at hdone
  rcases ranged_cases bad draw out with ⟨-, hr⟩ | ⟨hbad, hr⟩ <;> rw [hr] at hdone
  · cases hdone
  rcases drawn_cases draw out with ⟨-, hd⟩ | ⟨x, src, hx, hd⟩ <;> rw [hd] at hdone <;> cases hdone
  exact ⟨hbad, x, src, hx, hres.symm⟩

theorem fails_ranged_iff (hbusy : s.engine = .busy l) {draw : Option (α × Source)} {out : α → U64}
    (hp : progressOf c s.key l (s.source l) = ranged bad draw out) :
    FailsWith c s .invalidRange ↔ bad = true := by
  have hraise : FailsWith c s .invalidRange
      ↔ progressOf c s.key l (s.source l) = .raise .invalidRange :=
    ⟨raise_of_fails hbusy nofun, fails_of_raise hbusy⟩
  rw [hraise, hp, ranged_eq_raise_iff, and_iff_left rfl]

theorem le_of_lt_add_incl {x m : Nat} (h : x < m + incl.toNat) : x ≤ m := by
  have := incl.toNat_le
  omega

theorem rangedU32_ends {lo hi : U32} (hbusy : s.engine = .busy l)
    (hp : progressOf c s.key l (s.source l) = rangedU32 i lo hi incl (s.source l))
    (hlegal : lo.toNat < hi.toNat ∨ (incl = true ∧ lo.toNat = hi.toNat)) :
    (∀ r src, next32 i (s.source l) = some (r, src) → ∃ v, CompletesWith c s src.gen v
      ∧ v.toNat = lo.toNat + r.toNat * (hi.toNat - lo.toNat + incl.toNat) / 2 ^ 32)
    ∧ (next32 i (s.source l) = none → TakesWord c s l) := by
  rw [rangedU32, mapU32_eq_map32] at hp
  obtain ⟨hdone, hneed⟩ := ranged_ends hbusy hp (badRange_unsigned_eq_false_iff.mpr hlegal)
  obtain ⟨hle, hwidth⟩ := le_and_width_of_legal_unsigned hlegal
  refine ⟨fun r src hr => ⟨_, hdone r src hr, ?_⟩, hneed⟩
  rw [zext64_toNat, toNat_add_of_le_sub hle (le_of_lt_add_incl (map32_lt hwidth r)),
    toNat_map32 hwidth, BitVec.toNat_sub_of_le hle]

theorem rangedI32_ends {lo hi : U32} (hbusy : s.engine = .busy l)
    (hp : progressOf c s.key l (s.source l) = rangedI32 i lo hi incl (s.source l))
    (hlegal : lo.toInt < hi.toInt ∨ (incl = true ∧ lo.toInt = hi.toInt)) :
    (∀ r src, next32 i (s.source l) = some (r, src) → ∃ v, CompletesWith c s src.gen v
      ∧ v.toInt = lo.toInt + (r.toNat : Int) * (hi.toInt - lo.toInt + incl.toNat) / 2 ^ 32)
    ∧ (next32 i (s.source l) = none → TakesWord c s l) := by
  rw [rangedI32, mapU32_eq_map32] at hp
  obtain ⟨hdone, hneed⟩ := ranged_ends hbusy hp (badRange_signed_eq_false_iff.mpr hlegal)
  obtain ⟨hle, hwidth⟩ := le_and_width_of_legal_signed hlegal
  refine ⟨fun r src hr => ⟨_, hdone r src hr, ?_⟩, hneed⟩
  rw [toInt_sext64, toInt_add_of_le_sub hle (le_of_lt_add_incl (map32_lt hwidth r)),
    toNat_map32 hwidth, ← natCast_toNat_sub hle]
  push_cast
  rfl

/-- A legal 64-bit ranged command maps by the size of its width operand. -/
theorem ranged64_maps {lo m : U64} {lo' : Int} (hbusy : s.engine = .busy l)
    (hp : progressOf c s.key l (s.source l)
      = ranged bad (mapU64 c.inst m incl (s.source l)) fun v => lo + v)
    (hbad : bad = false) (hwidth : incl = true ∨ m.toNat ≠ 0)
    (hlo : (lo.toNat : Int) = lo' % 2 ^ 64) : Maps64 c s l lo' m.toNat incl := by
  have hsum : ∀ x : U64, ((lo + x).toNat : Int) = (lo' + x.toNat) % 2 ^ 64 := fun x => by
    rw [BitVec.toNat_add]
    push_cast
    omega
  refine ⟨fun hsmall => ?_, fun hlarge => ?_⟩
  · rw [mapU64_eq_map32 _ hsmall] at hp
    obtain ⟨hdone, hneed⟩ :=
      ranged_ends (f := fun r => zext64 (map32 (lo32 m) incl r)) hbusy hp hbad
    have hlow := toNat_lo32_of_lt hsmall
    refine ⟨fun r src hr => ⟨_, hdone r src hr, ?_⟩, hneed⟩
    rw [hsum, zext64_toNat, toNat_map32 (hlow ▸ hwidth), hlow]
    push_cast
    rfl
  · rw [mapU64_eq_map64 _ hlarge] at hp
    obtain ⟨hdone, hneed⟩ := ranged_ends hbusy hp hbad
    refine ⟨fun r src hr => ⟨_, hdone r src hr, ?_⟩, hneed⟩
    rw [hsum, toNat_map64]

/-- What a 32-bit or a 64-bit mapping draws is below its width (V6). -/
theorem mapU32_lt {m : U32} {src src' : Source} {x : U32} (h : mapU32 i m incl src = some (x, src'))
    (hwidth : incl = true ∨ m.toNat ≠ 0) : x.toNat < m.toNat + incl.toNat := by
  rw [mapU32_eq_map32] at h
  obtain ⟨⟨r, _⟩, -, hr⟩ := Option.map_eq_some_iff.mp h
  cases hr
  exact map32_lt hwidth r

theorem mapU64_lt {m : U64} {src src' : Source} {x : U64} (h : mapU64 i m incl src = some (x, src'))
    (hwidth : incl = true ∨ m.toNat ≠ 0) : x.toNat < m.toNat + incl.toNat := by
  by_cases hsmall : m.toNat < 2 ^ 32
  · rw [mapU64_eq_map32 i hsmall] at h
    obtain ⟨⟨r, _⟩, -, hr⟩ := Option.map_eq_some_iff.mp h
    cases hr
    have hlow := toNat_lo32_of_lt hsmall
    rw [zext64_toNat, ← hlow]
    exact map32_lt (hlow ▸ hwidth) r
  · rw [mapU64_eq_map64 i (Nat.not_lt.mp hsmall)] at h
    obtain ⟨⟨r, _⟩, -, hr⟩ := Option.map_eq_some_iff.mp h
    cases hr
    exact map64_lt hwidth r

end Ends

theorem rangedU64_maps {c : Instr} {s : State} {l : Latched} {incl : Bool} {lo hi : U64}
    (hbusy : s.engine = .busy l)
    (hp : progressOf c s.key l (s.source l) = rangedU64 c.inst lo hi incl (s.source l))
    (hlegal : lo.toNat < hi.toNat ∨ (incl = true ∧ lo.toNat = hi.toNat)) :
    Maps64 c s l lo.toNat (hi.toNat - lo.toNat) incl := by
  obtain ⟨hle, hwidth⟩ := le_and_width_of_legal_unsigned hlegal
  rw [← BitVec.toNat_sub_of_le hle]
  exact ranged64_maps hbusy hp (badRange_unsigned_eq_false_iff.mpr hlegal) hwidth
    (Int.emod_eq_of_lt (Int.natCast_nonneg _) (by have := lo.isLt; omega)).symm

theorem rangedI64_maps {c : Instr} {s : State} {l : Latched} {incl : Bool} {lo hi : U64}
    (hbusy : s.engine = .busy l)
    (hp : progressOf c s.key l (s.source l) = rangedI64 c.inst lo hi incl (s.source l))
    (hlegal : lo.toInt < hi.toInt ∨ (incl = true ∧ lo.toInt = hi.toInt)) :
    Maps64 c s l lo.toInt (hi.toInt - lo.toInt).toNat incl := by
  obtain ⟨hle, hwidth⟩ := le_and_width_of_legal_signed hlegal
  rw [← natCast_toNat_sub hle, Int.toNat_natCast]
  exact ranged64_maps hbusy hp (badRange_signed_eq_false_iff.mpr hlegal) hwidth
    (natCast_toNat_eq_toInt_emod lo)

section Bounds

variable {c : Instr} {i : Inst} {s : State} {l : Latched} {incl : Bool} {g : Generators} {v : U64}

theorem rangedU32_bounds {lo hi : U32} (hbusy : s.engine = .busy l)
    (hp : progressOf c s.key l (s.source l) = rangedU32 i lo hi incl (s.source l))
    (h : CompletesWith c s g v) : lo.toNat ≤ v.toNat ∧ v.toNat < hi.toNat + incl.toNat := by
  obtain ⟨hbad, x, src, hx, rfl⟩ := draw_of_ranged_completes hbusy hp h
  obtain ⟨hle, hwidth⟩ := le_and_width_of_legal_unsigned (badRange_unsigned_eq_false_iff.mp hbad)
  have hlt := mapU32_lt hx hwidth
  rw [zext64_toNat, toNat_add_of_le_sub hle (le_of_lt_add_incl hlt)]
  rw [BitVec.toNat_sub_of_le hle] at hlt
  omega

theorem rangedI32_bounds {lo hi : U32} (hbusy : s.engine = .busy l)
    (hp : progressOf c s.key l (s.source l) = rangedI32 i lo hi incl (s.source l))
    (h : CompletesWith c s g v) : lo.toInt ≤ v.toInt ∧ v.toInt < hi.toInt + incl.toNat := by
  obtain ⟨hbad, x, src, hx, rfl⟩ := draw_of_ranged_completes hbusy hp h
  obtain ⟨hle, hwidth⟩ := le_and_width_of_legal_signed (badRange_signed_eq_false_iff.mp hbad)
  have hlt := mapU32_lt hx hwidth
  have hsub := natCast_toNat_sub hle
  rw [toInt_sext64, toInt_add_of_le_sub hle (le_of_lt_add_incl hlt)]
  omega

theorem rangedU64_bounds {lo hi : U64} (hbusy : s.engine = .busy l)
    (hp : progressOf c s.key l (s.source l) = rangedU64 i lo hi incl (s.source l))
    (h : CompletesWith c s g v) : lo.toNat ≤ v.toNat ∧ v.toNat < hi.toNat + incl.toNat := by
  obtain ⟨hbad, x, src, hx, rfl⟩ := draw_of_ranged_completes hbusy hp h
  obtain ⟨hle, hwidth⟩ := le_and_width_of_legal_unsigned (badRange_unsigned_eq_false_iff.mp hbad)
  have hlt := mapU64_lt hx hwidth
  rw [toNat_add_of_le_sub hle (le_of_lt_add_incl hlt)]
  rw [BitVec.toNat_sub_of_le hle] at hlt
  omega

theorem rangedI64_bounds {lo hi : U64} (hbusy : s.engine = .busy l)
    (hp : progressOf c s.key l (s.source l) = rangedI64 i lo hi incl (s.source l))
    (h : CompletesWith c s g v) : lo.toInt ≤ v.toInt ∧ v.toInt < hi.toInt + incl.toNat := by
  obtain ⟨hbad, x, src, hx, rfl⟩ := draw_of_ranged_completes hbusy hp h
  obtain ⟨hle, hwidth⟩ := le_and_width_of_legal_signed (badRange_signed_eq_false_iff.mp hbad)
  have hlt := mapU64_lt hx hwidth
  have hsub := natCast_toNat_sub hle
  rw [toInt_add_of_le_sub hle (le_of_lt_add_incl hlt)]
  omega

end Bounds

/-! ### The statements -/

/-- The legal ranges of the unsigned one-sided forms (R113, R117). -/
theorem legal_of_incl_or_ne_zero {p : Prop} {a : Nat} (h : p ∨ a ≠ 0) : 0 < a ∨ (p ∧ 0 = a) := by
  rcases Nat.eq_zero_or_pos a with rfl | hpos
  · exact .inr ⟨h.resolve_right fun hne => hne rfl, rfl⟩
  · exact .inl hpos

/-- Settles O38, by the unsigned 32-bit form with minimum 0 and with minimum OPA. -/
theorem unsignedRanged32 : Obligations.UnsignedRanged32 := by
  intro i incl s l hbusy a b
  have ha : l.a32.toNat = a := a32_toNat l
  have hb : l.b32.toNat = b := b32_toNat l
  refine ⟨fun hlegal => ?_, fun hlegal => ?_, fun hne => next32_isSome hne _⟩
  · have h := rangedU32_ends (lo := 0#32) (hi := l.a32) hbusy (progressOf_getu32 i incl ..)
      (by rw [ha]; exact legal_of_incl_or_ne_zero hlegal)
    simpa only [ha, BitVec.toNat_zero, Nat.sub_zero, Nat.zero_add] using h
  · have h := rangedU32_ends hbusy (progressOf_getu32r i incl ..) (by rw [ha, hb]; exact hlegal)
    rwa [ha, hb] at h

/-- Settles O39, by the signed 32-bit form. -/
theorem signedRanged32 : Obligations.SignedRanged32 := by
  intro i incl s l hbusy a b
  refine ⟨fun hlegal => ?_, fun hlegal => ?_, fun hne => next32_isSome hne _⟩
  · have h := rangedI32_ends (lo := 0#32) (hi := l.a32) hbusy (progressOf_geti32 i incl ..)
      (by rw [BitVec.toInt_zero]; exact hlegal.imp_right fun h => ⟨h.1, h.2.symm⟩)
    simp only [BitVec.toInt_zero, Int.sub_zero, Int.zero_add] at h
    exact h
  · exact rangedI32_ends hbusy (progressOf_geti32r i incl ..) hlegal

/-- Settles O40, by the unsigned 64-bit form. -/
theorem unsignedRanged64 : Obligations.UnsignedRanged64 := by
  intro i incl s l hbusy a b
  refine ⟨fun hlegal => ?_, fun hlegal => ?_,
    fun hne => ⟨next32_isSome hne _, next64_isSome hne _⟩⟩
  · exact rangedU64_maps (c := .getu64 i incl) (lo := 0#64) (hi := l.opa) hbusy
      (progressOf_getu64 i incl ..) (legal_of_incl_or_ne_zero hlegal)
  · exact rangedU64_maps (c := .getu64r i incl) hbusy (progressOf_getu64r i incl ..) hlegal

/-- Settles O41, by the signed 64-bit form. -/
theorem signedRanged64 : Obligations.SignedRanged64 := by
  intro i incl s l hbusy a b
  refine ⟨fun hlegal => ?_, fun hlegal => ?_,
    fun hne => ⟨next32_isSome hne _, next64_isSome hne _⟩⟩
  · have h := rangedI64_maps (c := .geti64 i incl) (lo := 0#64) (hi := l.opa) hbusy
      (progressOf_geti64 i incl ..)
      (by rw [BitVec.toInt_zero]; exact hlegal.imp_right fun h => ⟨h.1, h.2.symm⟩)
    rwa [BitVec.toInt_zero, Int.sub_zero] at h
  · exact rangedI64_maps (c := .geti64r i incl) hbusy (progressOf_geti64r i incl ..) hlegal

/-- Settles O42: a ranged command fails where its range is bad, which is the rule's condition on the
bounds of its form. -/
theorem invalidRangeRaised : Obligations.InvalidRangeRaised := by
  intro i incl s l hbusy ua ub sa sb
  have ha : l.a32.toNat = ua := a32_toNat l
  have hb : l.b32.toNat = ub := b32_toNat l
  refine ⟨?u32, ?u32r, ?i32, ?i32r, ?u64, ?u64r, ?i64, ?i64r⟩
  case u32 =>
    refine (fails_ranged_iff hbusy (progressOf_getu32 i incl ..)).trans ?_
    rw [badRange_unsigned_iff, ha]
    simp
  case u32r =>
    refine (fails_ranged_iff hbusy (progressOf_getu32r i incl ..)).trans ?_
    rw [badRange_unsigned_iff, ha, hb]
  case i32 =>
    refine (fails_ranged_iff hbusy (progressOf_geti32 i incl ..)).trans ?_
    rw [badRange_signed_iff, BitVec.toInt_zero]
    rfl
  case i32r =>
    exact (fails_ranged_iff hbusy (progressOf_geti32r i incl ..)).trans badRange_signed_iff
  case u64 =>
    refine (fails_ranged_iff hbusy (progressOf_getu64 i incl ..)).trans ?_
    rw [badRange_unsigned_iff]
    simp
  case u64r =>
    exact (fails_ranged_iff hbusy (progressOf_getu64r i incl ..)).trans badRange_unsigned_iff
  case i64 =>
    refine (fails_ranged_iff hbusy (progressOf_geti64 i incl ..)).trans ?_
    rw [badRange_signed_iff, BitVec.toInt_zero]
  case i64r =>
    exact (fails_ranged_iff hbusy (progressOf_geti64r i incl ..)).trans badRange_signed_iff

/-- Settles O43: a command that completes had a legal range, and its mapped draw is below the
width. -/
theorem rangedResultsInBounds : Obligations.RangedResultsInBounds := by
  intro i incl s l g v hbusy
  have ha := a32_toNat l
  have hb := b32_toNat l
  refine ⟨fun h => ?u32, fun h => ?u32r, fun h => ?i32,
    rangedI32_bounds hbusy (progressOf_geti32r i incl ..), fun h => ?u64,
    rangedU64_bounds hbusy (progressOf_getu64r i incl ..), fun h => ?i64,
    rangedI64_bounds hbusy (progressOf_geti64r i incl ..)⟩
  case u32 => exact ha ▸ (rangedU32_bounds hbusy (progressOf_getu32 i incl ..) h).2
  case u32r => exact ha ▸ hb ▸ rangedU32_bounds hbusy (progressOf_getu32r i incl ..) h
  case i32 => exact rangedI32_bounds hbusy (progressOf_geti32 i incl ..) h
  case u64 => exact (rangedU64_bounds hbusy (progressOf_getu64 i incl ..) h).2
  case i64 => exact rangedI64_bounds hbusy (progressOf_geti64 i incl ..) h

end Sys2Proof.Machine
end

section
/-! PROOFS. The generators (42_lfsr_tempering.md, 43_additive_whitening.md): the tempering and the
whitening are compositions of bijections, the additive sequence is an arithmetic progression with an
odd step, and the draws from an array walk it to its end; then the statements on these. -/

namespace Sys2Proof.Machine

/-! ### Bijective steps -/

section Steps

variable {w : Nat}

/-- A masked right shift is undone from the top bit down (R178). -/
theorem xor_ushiftRight_and_injective {k : Nat} (hk : 0 < k) (d : BitVec w) :
    Function.Injective fun y : BitVec w => y ^^^ ((y >>> k) &&& d) := by
  intro x y h
  have hbit : ∀ i, (x.getLsbD i ^^ (x.getLsbD (k + i) && d.getLsbD i))
      = (y.getLsbD i ^^ (y.getLsbD (k + i) && d.getLsbD i)) := fun i => by
    simpa using congrArg (·.getLsbD i) h
  have htop : ∀ j i, w ≤ i + j → x.getLsbD i = y.getLsbD i := by
    intro j
    induction j with
    | zero => intro i hi; rw [BitVec.getLsbD_of_ge x i hi, BitVec.getLsbD_of_ge y i hi]
    | succ j ih =>
      intro i hi
      have := hbit i
      rwa [ih (k + i) (by omega), Bool.xor_left_inj] at this
  exact BitVec.eq_of_getLsbD_eq fun i _ => htop w i (by omega)

/-- A masked left shift is undone from bit 0 up. -/
theorem xor_shiftLeft_and_injective {k : Nat} (hk : 0 < k) (b : BitVec w) :
    Function.Injective fun y : BitVec w => y ^^^ ((y <<< k) &&& b) := by
  intro x y h
  refine BitVec.eq_of_getLsbD_eq fun i => ?_
  induction i using Nat.strong_induction_on with
  | _ i ih =>
    intro hi
    have hbit : (x.getLsbD i ^^ ((!decide (i < k) && x.getLsbD (i - k)) && b.getLsbD i))
        = (y.getLsbD i ^^ ((!decide (i < k) && y.getLsbD (i - k)) && b.getLsbD i)) := by
      simpa only [BitVec.getLsbD_xor, BitVec.getLsbD_and, BitVec.getLsbD_shiftLeft, hi, decide_true,
        Bool.true_and] using congrArg (·.getLsbD i) h
    by_cases hlow : i < k
    · simpa [hlow] using hbit
    · rwa [ih (i - k) (by omega) (by omega), Bool.xor_left_inj] at hbit

theorem xor_ushiftRight_injective {k : Nat} (hk : 0 < k) :
    Function.Injective fun y : BitVec w => y ^^^ (y >>> k) := by
  have := xor_ushiftRight_and_injective hk (BitVec.allOnes w)
  simpa only [BitVec.and_allOnes] using this

/-- Tempering is injective for any parameters whose shifts are not 0. -/
theorem temper_injective (p : MtParams w) (hu : 0 < p.u) (hs : 0 < p.s) (ht : 0 < p.t)
    (hl : 0 < p.l) : Function.Injective (temper p) :=
  (xor_ushiftRight_injective hl).comp <| (xor_shiftLeft_and_injective ht p.c).comp <|
    (xor_shiftLeft_and_injective hs p.b).comp (xor_ushiftRight_and_injective hu p.d)

end Steps

theorem mul_right_injective_of_inverse {m m' : U64} (h : m * m' = 1) :
    Function.Injective fun z : U64 => z * m :=
  (IsUnit.of_mul_eq_one m' h).mul_left_injective

theorem whitenMul1_inverse : whitenMul1 * 0x96DE1B173F119089 = 1 := by decide

theorem whitenMul2_inverse : whitenMul2 * 0x319642B2D24D8EC3 = 1 := by decide

theorem addIncrement_inverse : addIncrement * 0xF1DE83E19937733D = 1 := by decide

theorem whiten_injective : Function.Injective whiten :=
  (xor_ushiftRight_injective (by decide : 0 < 31)).comp <|
    ((mul_right_injective_of_inverse whitenMul2_inverse).comp
      (xor_ushiftRight_injective (by decide : 0 < 27))).comp <|
    (mul_right_injective_of_inverse whitenMul1_inverse).comp
      (xor_ushiftRight_injective (by decide : 0 < 30))

/-- Settles O58: four injective steps on a finite type. -/
theorem temperingIsBijective : Obligations.TemperingIsBijective :=
  ⟨Finite.injective_iff_bijective.mp (temper_injective mt32Params (by decide) (by decide)
      (by decide) (by decide)),
    Finite.injective_iff_bijective.mp (temper_injective mt64Params (by decide) (by decide)
      (by decide) (by decide))⟩

/-! ### The additive sequence -/

theorem addAdvance_iterate (n : Nat) (s : U64) :
    addAdvance^[n] s = s + BitVec.ofNat 64 n * addIncrement := by
  induction n with
  | zero => simp
  | succ n ih =>
    rw [Function.iterate_succ_apply', ih, addAdvance, BitVec.ofNat_add,
      show BitVec.ofNat 64 1 = 1 from rfl]
    ring

theorem addDiscard_eq_iterate (n s : U64) : addDiscard n s = addAdvance^[n.toNat] s := by
  rw [addAdvance_iterate, BitVec.ofNat_toNat, BitVec.setWidth_eq, addDiscard]

/-- Two numbers of advances meet where they agree modulo 2^64: the increment is odd. -/
theorem addAdvance_iterate_eq_iff (m n : Nat) (s : U64) :
    addAdvance^[m] s = addAdvance^[n] s ↔ BitVec.ofNat 64 m = BitVec.ofNat 64 n := by
  rw [addAdvance_iterate, addAdvance_iterate, add_right_inj]
  exact (mul_right_injective_of_inverse addIncrement_inverse).eq_iff

/-- The outputs after 1 to 2^64 advances differ from each other. -/
theorem whiten_addAdvance_injective (s : U64) :
    Function.Injective fun x : U64 => whiten (addAdvance^[x.toNat + 1] s) := by
  intro x y h
  have := (addAdvance_iterate_eq_iff _ _ _).mp (whiten_injective h)
  simpa [BitVec.ofNat_add] using this

/-- Settles O60: the sequence is an arithmetic progression whose step has an inverse. -/
theorem additiveGeneratorPeriod : Obligations.AdditiveGeneratorPeriod := by
  refine ⟨addDiscard_eq_iterate, Finite.injective_iff_bijective.mp whiten_injective,
    fun s n => ?_, fun s v => ?_⟩
  · rw [show s = addAdvance^[0] s from rfl, ← Function.iterate_add_apply, Nat.add_zero,
      addAdvance_iterate_eq_iff, ← BitVec.toNat_inj, BitVec.toNat_ofNat, BitVec.toNat_ofNat,
      Nat.zero_mod, Nat.dvd_iff_mod_eq_zero]
  · obtain ⟨x, hx, hunique⟩ :=
      (Finite.injective_iff_bijective.mp (whiten_addAdvance_injective s)).existsUnique v
    exact ⟨x.toFin, hx, fun n hn => congrArg BitVec.toFin (hunique (BitVec.ofFin n) hn)⟩

/-! ### Draws along an array -/

section Arrays

variable {w n : Nat} (p : MtParams w)

theorem Mt.discard_eq_iterate (count : Nat) (g : Mt w n) :
    g.discard p count = (Mt.skip p)^[count] g := by
  induction count generalizing g with
  | zero => rfl
  | succ count ih => exact ih (g.skip p)

theorem Mt.skip_of_lt {g : Mt w n} (h : g.idx < n) : g.skip p = { g with idx := g.idx + 1 } := by
  rw [Mt.skip, Mt.ready_of_lt p h]

theorem Mt.skip_of_ge {g : Mt w n} (h : n ≤ g.idx) : g.skip p = { g.reload p with idx := 1 } := by
  rw [Mt.skip, Mt.ready_of_ge p h, Mt.reload_idx]

/-- The reload is lazy (R175). -/
theorem Mt.skip_iterate_of_le {g : Mt w n} {count : Nat} (h : g.idx + count ≤ n) :
    (Mt.skip p)^[count] g = { g with idx := g.idx + count } := by
  induction count with
  | zero => rfl
  | succ count ih =>
    rw [Function.iterate_succ_apply', ih (by omega), Mt.skip_of_lt p (Nat.lt_of_succ_le h)]
    rfl

/-- A degenerate array (R189): word 0 has no upper bits and every other word is 0. -/
structure Mt.Degenerate (g : Mt w n) : Prop where
  first : g.word 0 &&& p.upper = 0
  rest : ∀ k, k ≠ 0 → g.word k = 0

/-- The array every reload makes of a degenerate one. -/
def Mt.Blank (g : Mt w n) : Prop := ∀ k, g.word k = 0

variable {p}

theorem Mt.Blank.degenerate {g : Mt w n} (h : g.Blank) : g.Degenerate p :=
  ⟨by rw [h 0]; exact BitVec.zero_and, fun k _ => h k⟩

theorem twist_eq_zero {current : BitVec w} (h : current &&& p.upper = 0) :
    twist p current 0 0 = 0 := by
  simp [twist, h]

theorem temper_zero (p : MtParams w) : temper p 0 = 0 := by simp [temper]

theorem Mt.word_ge (g : Mt w n) {k : Nat} (h : n ≤ k) : g.word k = 0 := dif_neg (Nat.not_lt.mpr h)

/-- The new words are 0 one after the other, in the order of the reload. -/
theorem Mt.Degenerate.reload {g : Mt w n} (h : g.Degenerate p) (hn : 1 < n) (hpos : 0 < p.offset)
    (hoffset : p.offset < n) : (g.reload p).Blank := by
  intro k
  induction k using Nat.strong_induction_on with
  | _ k ih =>
    by_cases hk : k < n
    case neg => exact (g.reload p).word_ge (Nat.not_lt.mp hk)
    have hcurrent : g.word k &&& p.upper = 0 := by
      by_cases h0 : k = 0
      · rw [h0]; exact h.first
      · rw [h.rest k h0]; exact BitVec.zero_and
    have hnext : (if k + 1 < n then g.word (k + 1) else (g.reload p).word 0) = 0 := by
      split
      · exact h.rest _ (Nat.succ_ne_zero k)
      · exact ih 0 (by omega)
    have hahead : (if k + p.offset < n then g.word (k + p.offset)
        else (g.reload p).word (k + p.offset - n)) = 0 := by
      split
      · exact h.rest _ (by omega)
      · exact ih _ (by omega)
    rw [Mt.reload_word p g hn hoffset k hk, hnext, hahead, twist_eq_zero hcurrent]

theorem Mt.Blank.words_eq {g : Mt w n} (h : g.Blank) : g.words = Vector.replicate n 0 := by
  refine Vector.ext fun k hk => ?_
  rw [← g.word_lt hk, h k, Vector.getElem_replicate]

/-- What a run of draws from a degenerate array keeps, once the index is past word 0. -/
structure Mt.DrawsZero (p : MtParams w) (g : Mt w n) : Prop where
  degenerate : g.Degenerate p
  idx : 1 ≤ g.idx

section Degenerate

variable {g : Mt w n} (hn : 1 < n) (hpos : 0 < p.offset) (hoffset : p.offset < n)
include hn hpos hoffset

theorem Mt.Degenerate.skip (h : g.Degenerate p) : (g.skip p).DrawsZero p := by
  by_cases hlt : g.idx < n
  · rw [Mt.skip_of_lt p hlt]
    exact ⟨⟨h.first, h.rest⟩, Nat.succ_pos _⟩
  · rw [Mt.skip_of_ge p (Nat.not_lt.mp hlt)]
    have hblank := (h.reload hn hpos hoffset).degenerate (p := p)
    exact ⟨⟨hblank.first, hblank.rest⟩, le_rfl⟩

theorem Mt.Degenerate.skip_iterate (h : g.Degenerate p) {count : Nat}
    (hcount : 1 ≤ g.idx ∨ 1 ≤ count) : ((Mt.skip p)^[count] g).DrawsZero p := by
  induction count with
  | zero => exact ⟨h, hcount.resolve_right (by decide)⟩
  | succ count ih =>
    rw [Function.iterate_succ_apply']
    by_cases h0 : count = 0
    · rw [h0]; exact h.skip hn hpos hoffset
    · exact (ih (.inr (by omega))).degenerate.skip hn hpos hoffset

theorem Mt.DrawsZero.draw (h : g.DrawsZero p) : (g.draw p).1 = 0 := by
  by_cases hlt : g.idx < n
  · rw [Mt.draw_of_lt p hlt, ← g.word_lt hlt,
      h.degenerate.rest _ (Nat.ne_of_gt h.idx), temper_zero]
  · rw [Mt.draw_of_ge p (Nat.not_lt.mp hlt) (by omega), ← Mt.word_lt _ (by omega),
      h.degenerate.reload hn hpos hoffset 0, temper_zero]

end Degenerate

end Arrays

/-- Settles O56: a draw and a discard step move alike, and below the end only the index. -/
theorem drawsKeepArrayUntilExhausted : Obligations.DrawsKeepArrayUntilExhausted :=
  ⟨fun _ _ h => Mt.skip_iterate_of_le mt32Params h,
    fun _ _ h => Mt.skip_iterate_of_le mt64Params h⟩

/-- The statement of R189 for any parameters. -/
theorem Mt.degenerate_draws {w n : Nat} {p : MtParams w} {g : Mt w n} (hn : 1 < n)
    (hpos : 0 < p.offset) (hoffset : p.offset < n) (hfirst : g.words[0] &&& p.upper = 0)
    (hrest : ∀ k (h : k < n), k ≠ 0 → g.words[k] = 0) :
    (g.reload p).words = Vector.replicate n 0
    ∧ (∀ count, 1 ≤ g.idx ∨ 1 ≤ count → (((Mt.skip p)^[count] g).draw p).1 = 0)
    ∧ (g.idx = 0 → (g.draw p).1 = temper p g.words[0]) := by
  have h : g.Degenerate p := by
    refine ⟨by rw [g.word_lt (by omega)]; exact hfirst, fun k hk => ?_⟩
    by_cases hlt : k < n
    · rw [g.word_lt hlt]; exact hrest k hlt hk
    · exact g.word_ge (Nat.not_lt.mp hlt)
  refine ⟨(h.reload hn hpos hoffset).words_eq, fun count hcount =>
    (h.skip_iterate hn hpos hoffset hcount).draw hn hpos hoffset, fun hidx => ?_⟩
  have hlt : g.idx < n := by omega
  rw [Mt.draw_of_lt p hlt]
  simp only [hidx]

/-- Settles O57: every reload of a degenerate array is blank, and past word 0 only zeros are
read. -/
theorem degenerateArrayDrawsZero : Obligations.DegenerateArrayDrawsZero :=
  ⟨fun _ hfirst hrest =>
      Mt.degenerate_draws (p := mt32Params) (by decide) (by decide) (by decide) hfirst hrest,
    fun _ hfirst hrest =>
      Mt.degenerate_draws (p := mt64Params) (by decide) (by decide) (by decide) hfirst hrest⟩

end Sys2Proof.Machine
end

section
/-! PROOFS. NOP, the seed commands, DISCARD and the test hooks (41_seeding_discard.md, R190, R206):
each command's pseudocode is one line; then the statements, with the closed form of DISCARD
(R188). -/

namespace Sys2Proof.Machine

/-! ### NOP and the test hooks -/

/-- Settles O45: the pseudocode ends at once with the instances as they are. -/
theorem nopResult : Obligations.NopResult := fun _ _ _ hbusy => silent_of_done hbusy rfl

theorem temper_mt32 (y : U32) : temper mt32Params y =
    let y := y ^^^ ((y >>> 11) &&& 0xFFFFFFFF)
    let y := y ^^^ ((y <<< 7) &&& 0x9D2C5680)
    let y := y ^^^ ((y <<< 15) &&& 0xEFC60000)
    y ^^^ (y >>> 18) := rfl

theorem temper_mt64 (y : U64) : temper mt64Params y =
    let y := y ^^^ ((y >>> 29) &&& 0x5555555555555555)
    let y := y ^^^ ((y <<< 17) &&& 0x71D67FFFEDA60000)
    let y := y ^^^ ((y <<< 37) &&& 0xFFF7EEE000000000)
    y ^^^ (y >>> 43) := rfl

/-- Settles O59: the stage is the generator's own, at the variant's constants. -/
theorem testHookResults : Obligations.TestHookResults := by
  intro s l hbusy
  refine ⟨?mt32, ?mt64, fails_of_raise hbusy rfl, fails_of_raise hbusy rfl, ?add64,
    fails_of_raise hbusy rfl, fails_of_raise hbusy rfl, fails_of_raise hbusy rfl⟩
  case mt32 =>
    rintro _ _ _ _ rfl rfl rfl rfl
    have h : CompletesWith (.temper .mt32) s s.gen (zext64 (temper mt32Params l.a32)) :=
      completes_of_done hbusy rfl
    rw [temper_mt32] at h
    exact h
  case mt64 =>
    rintro _ _ _ _ rfl rfl rfl rfl
    have h : CompletesWith (.temper .mt64) s s.gen (temper mt64Params l.opa) :=
      completes_of_done hbusy rfl
    rw [temper_mt64] at h
    exact h
  case add64 =>
    rintro _ _ rfl rfl
    have h : CompletesWith (.whiten .add64) s s.gen (whiten l.opa) := completes_of_done hbusy rfl
    rw [whiten, whitenMul1, whitenMul2] at h
    exact h

/-! ### Seeds -/

section Seeds

variable {s : State} {l : Latched}

theorem seedDefault_silent (hbusy : s.engine = .busy l) (i : Inst) :
    CompletesSilently (.seedDefault i) s ((defaultSeed i s.gen).setCache i Cache.zero) :=
  silent_of_done hbusy rfl

theorem progressOf_seedScalar {i : Inst} (h : i ≠ .ext) (key : Vector U64 624) (src : Source) :
    progressOf (.seedScalar i) key l src = seeded i (scalarSeed i l src.gen) := if_neg h

theorem seedScalar_silent (hbusy : s.engine = .busy l) {i : Inst} (h : i ≠ .ext) :
    CompletesSilently (.seedScalar i) s ((scalarSeed i l s.gen).setCache i Cache.zero) :=
  silent_of_done hbusy (progressOf_seedScalar h _ _)

theorem progressOf_seedKey_long {i : Inst} (h : i ≠ .ext) (hlen : 624 < l.opa.toNat)
    (key : Vector U64 624) (src : Source) :
    progressOf (.seedKey i) key l src = .raise .bufferBounds := by
  rw [progressOf, if_neg h, if_pos hlen]

theorem progressOf_seedKey_zero {i : Inst} (h : i ≠ .ext) (hlen : l.opa = 0)
    (key : Vector U64 624) (src : Source) :
    progressOf (.seedKey i) key l src = progressOf (.seedDefault i) key l src := by
  have hshort : ¬Config.keyDepth < l.opa.toNat := by rw [hlen]; decide
  simp only [progressOf, if_neg h, if_neg hshort, if_pos hlen]

theorem progressOf_seedKey_words {i : Inst} (h : i ≠ .ext) (hpos : 1 ≤ l.opa.toNat)
    (hlen : l.opa.toNat ≤ 624) (key : Vector U64 624) (src : Source) :
    progressOf (.seedKey i) key l src
      = seeded i (keySeed i (key.toList.take l.opa.toNat) src.gen) := by
  have hne : l.opa ≠ 0 := by intro h0; rw [h0] at hpos; exact absurd hpos (by decide)
  rw [progressOf, if_neg h, if_neg (Nat.not_lt.mpr hlen), if_neg hne]

theorem seedKey_silent (hbusy : s.engine = .busy l) {i : Inst} (h : i ≠ .ext)
    (hpos : 1 ≤ l.opa.toNat) (hlen : l.opa.toNat ≤ 624) :
    CompletesSilently (.seedKey i) s
      ((keySeed i (s.key.toList.take l.opa.toNat) s.gen).setCache i Cache.zero) :=
  silent_of_done hbusy (progressOf_seedKey_words h hpos hlen _ _)

end Seeds

/-- Settles O46: the default key's seeding is the rule's in-place one. -/
theorem seedDefaultResult : Obligations.SeedDefaultResult := by
  intro s l hbusy
  have mt32 := seedDefault_silent hbusy .mt32
  have mt64 := seedDefault_silent hbusy .mt64
  rw [defaultSeed, mtSeedKey_eq_inPlace mt32Params (by decide) (by decide)] at mt32
  rw [defaultSeed, mtSeedKey_eq_inPlace mt64Params (by decide) (by decide)] at mt64
  exact ⟨mt32, mt64, seedDefault_silent hbusy .add64, seedDefault_silent hbusy .ext⟩

/-- Settles O47: EXT is refused first, and the array is that of the rule's recurrence. -/
theorem seedScalarResult : Obligations.SeedScalarResult := by
  intro s l hbusy
  have mt32 := seedScalar_silent hbusy (i := .mt32) (by decide)
  have mt64 := seedScalar_silent hbusy (i := .mt64) (by decide)
  rw [scalarSeed, ← seedScalarInPlace_eq mt32Params _ (by decide)] at mt32
  rw [scalarSeed, ← seedScalarInPlace_eq mt64Params _ (by decide)] at mt64
  exact ⟨mt32, mt64, seedScalar_silent hbusy (by decide), fails_of_raise hbusy rfl⟩

/-- Settles O48, by the checks in the order of R221. -/
theorem seedKeyResult : Obligations.SeedKeyResult := by
  intro s l hbusy
  refine ⟨fails_of_raise hbusy rfl,
    fun hlen i h => fails_of_raise hbusy (progressOf_seedKey_long h hlen _ _),
    fun hlen i h => by rw [exec_busy hbusy, exec_busy hbusy, progressOf_seedKey_zero h hlen],
    fun hpos hlen => ?_⟩
  have hwords : s.key.toList.take l.opa.toNat ≠ [] :=
    List.ne_nil_of_length_pos (by rw [List.length_take, Vector.length_toList]; omega)
  have hmap : (s.key.toList.take l.opa.toNat).map lo32 ≠ [] := by simpa using hwords
  have mt32 := seedKey_silent hbusy (i := .mt32) (by decide) hpos hlen
  have mt64 := seedKey_silent hbusy (i := .mt64) (by decide) hpos hlen
  have add64 := seedKey_silent hbusy (i := .add64) (by decide) hpos hlen
  rw [keySeed, mtSeedKey_eq_inPlace mt32Params hmap (by decide)] at mt32
  rw [keySeed, mtSeedKey_eq_inPlace mt64Params hwords (by decide)] at mt64
  have hhead : (s.key.toList.take l.opa.toNat).headD 0 = s.key[0] := by
    rw [List.headD_eq_head?_getD, List.head?_take, if_neg (by omega)]
    simp [List.head?_eq_getElem?]
  rw [keySeed, hhead] at add64
  exact ⟨mt32, mt64, add64⟩

/-! ### DISCARD -/

section Discard

variable {w n : Nat} {p : MtParams w}

/-- A reload looks at the words alone. -/
theorem Mt.reload_congr {g g' : Mt w n} (h : g.words = g'.words) : g.reload p = g'.reload p := by
  simp only [Mt.reload, h]

/-- After `count` steps the array is reloaded `r` times, and `r` laps and the index make up the
position reached; the index is 0 only where no step was made. -/
theorem Mt.skip_iterate_position {g : Mt w n} (hn : 0 < n) (hidx : g.idx ≤ n) (count : Nat) :
    ∃ r, ((Mt.skip p)^[count] g).words = ((Mt.reload p)^[r] g).words
      ∧ ((Mt.skip p)^[count] g).idx + r * n = g.idx + count
      ∧ ((Mt.skip p)^[count] g).idx ≤ n ∧ (r ≠ 0 → 1 ≤ ((Mt.skip p)^[count] g).idx) := by
  induction count with
  | zero => exact ⟨0, rfl, by simp, hidx, nofun⟩
  | succ count ih =>
    obtain ⟨r, hwords, hpos, hle, -⟩ := ih
    rw [Function.iterate_succ_apply']
    generalize (Mt.skip p)^[count] g = g' at hwords hpos hle ⊢
    by_cases hlt : g'.idx < n
    · rw [Mt.skip_of_lt p hlt]
      exact ⟨r, hwords, by dsimp only; omega, hlt, fun _ => Nat.succ_pos _⟩
    · rw [Mt.skip_of_ge p (Nat.not_lt.mp hlt)]
      refine ⟨r + 1, ?_, ?_, hn, fun _ => le_rfl⟩
      · rw [Function.iterate_succ_apply', ← Mt.reload_congr hwords]
      · rw [Nat.succ_mul]; dsimp only; omega

/-- The number of reloads and the index of R188's closed form. -/
theorem reloads_and_idx {idx idx' count r : Nat} (hn : 0 < n) (hidx : idx ≤ n)
    (hpos : idx' + r * n = idx + count) (hle : idx' ≤ n) (hr : r ≠ 0 → 1 ≤ idx') :
    r = (count - (n - idx) + (n - 1)) / n
    ∧ (count ≤ n - idx → idx' = idx + count)
    ∧ (n - idx < count → idx' = count - (n - idx) - (r - 1) * n) := by
  cases r with
  | zero =>
    rw [Nat.zero_mul] at hpos
    exact ⟨(Nat.div_eq_of_lt (by omega)).symm, fun _ => by omega, fun _ => by omega⟩
  | succ r =>
    have := hr (Nat.succ_ne_zero r)
    rw [Nat.succ_mul] at hpos
    refine ⟨(Nat.div_eq_of_lt_le ?_ ?_).symm, fun _ => by omega, fun _ => ?_⟩
    · rw [Nat.succ_mul]; omega
    · rw [Nat.succ_mul, Nat.succ_mul]; omega
    · rw [Nat.add_sub_cancel]; omega

theorem Mt.discard_closed_form {g : Mt w n} (hn : 0 < n) (hidx : g.idx ≤ n) (count : Nat) :
    (g.discard p count).words
        = ((Mt.reload p)^[(count - (n - g.idx) + (n - 1)) / n] g).words
      ∧ (count ≤ n - g.idx → (g.discard p count).idx = g.idx + count)
      ∧ (n - g.idx < count → (g.discard p count).idx = count - (n - g.idx)
          - ((count - (n - g.idx) + (n - 1)) / n - 1) * n) := by
  rw [Mt.discard_eq_iterate]
  obtain ⟨r, hwords, hpos, hle, hr⟩ := Mt.skip_iterate_position (p := p) hn hidx count
  obtain ⟨hreloads, hbelow, habove⟩ := reloads_and_idx hn hidx hpos hle hr
  rw [← hreloads]
  exact ⟨hwords, hbelow, habove⟩

end Discard

/-- Settles O50: the closed form for any parameters, at N = 624 and N = 312. -/
theorem mtDiscardClosedForm : Obligations.MtDiscardClosedForm := by
  intro s l hbusy
  exact ⟨fun hidx => ⟨_, silent_of_done hbusy rfl, Mt.discard_closed_form (by decide) hidx _⟩,
    fun hidx => ⟨_, silent_of_done hbusy rfl, Mt.discard_closed_form (by decide) hidx _⟩⟩

/-- Settles O49: ADD64's closed form, and EXT's drop of as many words as were asked for. -/
theorem discardResult : Obligations.DiscardResult := by
  intro s l hbusy
  have hext : progressOf (.discard .ext) s.key l (s.source l)
      = discard .ext l.opa (s.source l) := rfl
  rw [discard, extDiscard_eq, State.source_words] at hext
  refine ⟨?add64, fun hlen => takes_of_need hbusy ?need, fun hlen => silent_of_done hbusy ?done⟩
  case add64 =>
    have h : CompletesSilently (.discard .add64) s
        { s.gen with addState := addDiscard l.opa s.gen.addState } := silent_of_done hbusy rfl
    rw [addDiscard, addIncrement] at h
    exact h
  case need => rw [hext, if_neg (Nat.not_le.mpr hlen)]
  case done => rw [hext, if_pos hlen]; rfl

/-! ### DISCARD and NEXT -/

/-- What one native draw makes of the instances. -/
def nextGen (i : Inst) (g : Generators) : Generators :=
  match i with
  | .mt32 => { g with mt32 := g.mt32.skip mt32Params }
  | .mt64 => { g with mt64 := g.mt64.skip mt64Params }
  | .add64 => { g with addState := addAdvance g.addState }
  | .ext => g

theorem nativeDraw_gen {i : Inst} (h : i ≠ .ext) (src : Source) :
    ∃ v, nativeDraw i src = some (v, { src with gen := nextGen i src.gen }) := by
  cases i with
  | mt32 => exact ⟨_, nativeDraw_mt32 src⟩
  | mt64 => exact ⟨_, nativeDraw_mt64 src⟩
  | add64 => exact ⟨_, nativeDraw_add64 src⟩
  | ext => exact absurd rfl h

/-- NEXT moves the instances by one draw. -/
theorem exec_next_gen {i : Inst} (h : i ≠ .ext) {s : State} {l : Latched}
    (hbusy : s.engine = .busy l) : ∃ t, exec (.next i) s = .next t ∧ t.gen = nextGen i s.gen := by
  obtain ⟨v, hv⟩ := nativeDraw_gen h (s.source l)
  exact ⟨_, completes_of_drawn (out := id) hbusy rfl hv, rfl⟩

theorem afterNexts_gen {i : Inst} (h : i ≠ .ext) (n : Nat) (s : State) :
    ∃ t, afterNexts i n s = some t ∧ t.gen = (nextGen i)^[n] s.gen := by
  induction n generalizing s with
  | zero => exact ⟨s, rfl, rfl⟩
  | succ n ih =>
    obtain ⟨t, ht, hgen⟩ := exec_next_gen h (s := { s with engine := .busy _ }) rfl
    obtain ⟨u, hu, hugen⟩ := ih t
    refine ⟨u, ?_, by rw [hugen, hgen]; rfl⟩
    rw [afterNexts, ht]
    exact hu

theorem nextGen_iterate_mt32 (n : Nat) (g : Generators) :
    (nextGen .mt32)^[n] g = { g with mt32 := (Mt.skip mt32Params)^[n] g.mt32 } := by
  induction n generalizing g with
  | zero => rfl
  | succ n ih => exact ih _

theorem nextGen_iterate_mt64 (n : Nat) (g : Generators) :
    (nextGen .mt64)^[n] g = { g with mt64 := (Mt.skip mt64Params)^[n] g.mt64 } := by
  induction n generalizing g with
  | zero => rfl
  | succ n ih => exact ih _

theorem nextGen_iterate_add64 (n : Nat) (g : Generators) :
    (nextGen .add64)^[n] g = { g with addState := addAdvance^[n] g.addState } := by
  induction n generalizing g with
  | zero => rfl
  | succ n ih => exact ih _

theorem discard_eq_nextGen_iterate {i : Inst} (h : i ≠ .ext) (n : U64) (src : Source) :
    discard i n src = .done none ((nextGen i)^[n.toNat] src.gen) := by
  cases i with
  | mt32 => rw [nextGen_iterate_mt32, ← Mt.discard_eq_iterate]; rfl
  | mt64 => rw [nextGen_iterate_mt64, ← Mt.discard_eq_iterate]; rfl
  | add64 => rw [nextGen_iterate_add64, ← addDiscard_eq_iterate]; rfl
  | ext => exact absurd rfl h

/-- Settles O51: both leave the instances n draws further. -/
theorem discardLaw : Obligations.DiscardLaw := by
  intro i s l hbusy h
  obtain ⟨t', ht', hgen⟩ := afterNexts_gen h l.opa.toNat s
  have hdiscard : exec (.discard i) s
      = .next (s.complete none ((nextGen i)^[l.opa.toNat] s.gen)) := by
    rw [exec_busy hbusy, progressOf, discard_eq_nextGen_iterate h, settle_done]
    rfl
  exact ⟨_, t', hdiscard, ht', hgen.symm, rfl⟩

end Sys2Proof.Machine
end
